-- ==== Sys2Proof/Word.lean ====
section
/-! DEFINITION. The words of the TAC70-BLIT model: the widths the spec names (00_scope.md R9 to R11). -/

namespace Sys2Proof

/-- A u8: one byte of the arena, the cartridge, PROG or RGBA_OUT (R10). -/
abbrev Byte := BitVec 8

/-- A u4: a pixel value, a colour, an alpha key or a palette index (R91). -/
abbrev Nibble := BitVec 4

/-- A u32: RESULT, STATUS and the four words of a command (R26, R27, R90). -/
abbrev Word32 := BitVec 32

/-- The 128-bit command value `CMD = {W3, W2, W1, W0}` (R90). -/
abbrev Command := BitVec 128

end Sys2Proof
end

