-- ==== Sys2Proof/Config.lean ====
section
/-! DEFINITION. The parameters an implementation fixes (00_scope.md R8, 10_state.md R34). The source leaves
DEFAULT_FONT and SPACE_W open: each is a constant without a body here, so that nothing can be proved of its value. -/

namespace Sys2Proof

/-- The configuration of one instance of the block (R34): "configuration, fixed for a model instance". No command
writes it. `State` carries it, since the host fixes the form of `exec` and `step` and R8 lets a model take an OPEN
parameter as an argument (log 4). -/
structure Params where
  /-- `CART_SIZE`, the size of the cartridge input space (R33, D37). -/
  cartSize : Nat
  /-- `DEFAULT_FONT`, 2048 bytes in the layout of R223 (D14). -/
  font : Vector Byte 2048
  /-- `SPACE_W[0]`, 0 to 8 (R8, D16). -/
  spaceNormal : Fin 9
  /-- `SPACE_W[1]`, 0 to 8 (R8, D16). -/
  spaceAlternate : Fin 9
  deriving DecidableEq, Repr

/-- What R8 requires of the open parameters beyond their ranges: the two space widths are distinct. -/
abbrev Params.Legal (p : Params) : Prop := p.spaceNormal ≠ p.spaceAlternate

/-- `DEFAULT_FONT`: OPEN (R8, D14, U8). UNVERIFIED, safe: a claim holds for every font (log 5). -/
opaque Config.defaultFont : Vector Byte 2048

/-- `SPACE_W[0]`: OPEN, 0 to 8 (R8, D16, U9). UNVERIFIED, safe: a claim holds for every width (log 6). -/
opaque Config.spaceNormal : Fin 9

/-- Which of the eight widths other than `SPACE_W[0]` is `SPACE_W[1]`: OPEN (R8, D16, U9; log 6). -/
opaque Config.spaceChoice : Fin 8

/-- `SPACE_W[1]`: the width that `spaceChoice` selects among those distinct from `SPACE_W[0]`; every legal pair is
reached by exactly one pair of constants (log 6). -/
def Config.spaceAlternate : Fin 9 := Config.spaceNormal.succAbove Config.spaceChoice

/-- `CART_SIZE`: OPEN, with the spec's default 2^24 (R8, D37). The statements hold for every size, since they read it
from the state; this is the size `State.reset` carries (log 4). -/
def Config.defaultCartSize : Nat := 16777216

/-- The configuration that `State.reset` carries. -/
def Config.params : Params where
  cartSize := Config.defaultCartSize
  font := Config.defaultFont
  spaceNormal := Config.spaceNormal
  spaceAlternate := Config.spaceAlternate

end Sys2Proof
end

