-- ==== Sys2Proof/Syntax.lean ====
section
/-! DEFINITION. The commands of the block, one constructor for each row of spec/opcode_table.json, and the field layout
of the 128-bit command word (30_encoding.md R91, R93). -/

namespace Sys2Proof

/-- A surface descriptor slot, `SLOT[0]` to `SLOT[3]` (R24); the value of `SA` or `SB` (R91). -/
inductive SlotId where
  | s0 | s1 | s2 | s3
  deriving DecidableEq, Repr

/-- A glyph variant: normal = 0, alternate = 1 (R7, R223). -/
inductive Variant where
  | normal | alternate
  deriving DecidableEq, Repr

/-- A decoded command. Operands the rules compute on are integers (R92: "A command computes on the decoded integers");
operands the rules mask or store are bit vectors of the field's width. `Instr.WellFormed` says which integers fit
their fields. -/
inductive Instr where
  /-- R300. -/
  | nop
  /-- R174: slot, base (IMM), width (WD), height (HT), depth (C). -/
  | setsurf (a : SlotId) (base w h bpp : Nat)
  /-- R222: slot, tile id (IMM). -/
  | tilesurf (a : SlotId) (id : Nat)
  /-- R224: slot, variant (C[0]), code point (IMM). -/
  | glyphsurf (a : SlotId) (v : Variant) (code : Nat)
  /-- R175: slot, x, y, colour. -/
  | pixset (a : SlotId) (x y : Int) (c : Nibble)
  /-- R176: slot, x, y. -/
  | pixget (a : SlotId) (x y : Int)
  /-- R177: slot, colour. -/
  | cls (a : SlotId) (c : Nibble)
  /-- R178: slot, x, y, width, height, colour. -/
  | rect (a : SlotId) (x y : Int) (w h : Nat) (c : Nibble)
  /-- R179: slot, x, y, width, height, colour. -/
  | rectb (a : SlotId) (x y : Int) (w h : Nat) (c : Nibble)
  /-- R180: destination (SA), source (SB), x, y, scale (IMM[7:0]), key present (K), key value (KEY), flips (HF, VF). -/
  | blit (d s : SlotId) (x y : Int) (scale : Nat) (k : Bool) (key : Nibble) (hf vf : Bool)
  /-- R183: slot. -/
  | torgba (a : SlotId)
  /-- R231: cell x, y. -/
  | mget (x y : Int)
  /-- R232: cell x, y, tile id (IMM[7:0]). -/
  | mset (x y : Int) (id : Byte)
  /-- R292: palette index (C). -/
  | palget (i : Nibble)
  /-- R228: variant (C[0]), code point (IMM). -/
  | glyphmet (v : Variant) (code : Nat)
  /-- R227. -/
  | recompute
  /-- R262: button index (IMM[4:0]), pressed (K). -/
  | btnset (i : BitVec 5) (pressed : Bool)
  /-- R263: button index (IMM[4:0]). -/
  | btnget (i : BitVec 5)
  /-- R267: x (IMM[7:0]), y (IMM[15:8]), buttons (IMM[18:16]), scroll x (X), scroll y (Y). -/
  | mouseset (mx my : Byte) (mb : BitVec 3) (sx sy : Int)
  /-- R268. -/
  | mousepos
  /-- R269. -/
  | mousebtn
  /-- R270. -/
  | scrollx
  /-- R271. -/
  | scrolly
  /-- R301: address (IMM). -/
  | memrd (addr : Nat)
  /-- R302: address (IMM), data (WD[7:0]). -/
  | memwr (addr : Nat) (data : Byte)
  /-- R146: cartridge length (IMM). -/
  | load (len : Nat)
  /-- R303. -/
  | stepbegin
  /-- R304. -/
  | stepend
  /-- R305. -/
  | clrstatus
  deriving DecidableEq, Repr

/-- The 29 assigned opcodes, 0x00 to 0x1C in this order (R93). -/
inductive Opcode where
  | nop | setsurf | tilesurf | glyphsurf | pixset | pixget | cls | rect | rectb | blit | torgba
  | mget | mset | palget | glyphmet | recompute | btnset | btnget | mouseset | mousepos | mousebtn
  | scrollx | scrolly | memrd | memwr | load | stepbegin | stepend | clrstatus
  deriving DecidableEq, Repr

/-- The fields of every command word, from the least significant bit up (R91). -/
structure Fields where
  op  : BitVec 8
  sa  : BitVec 2
  sb  : BitVec 2
  c   : BitVec 4
  k   : BitVec 1
  key : BitVec 4
  hf  : BitVec 1
  vf  : BitVec 1
  rsv : BitVec 9
  x   : BitVec 16
  y   : BitVec 16
  wd  : BitVec 16
  ht  : BitVec 16
  imm : BitVec 32
  deriving DecidableEq, Repr

/-- The command word with every bit 0 (R300: "the all-zero 16-byte word is NOP"). -/
def Fields.zero : Fields :=
  { op := 0, sa := 0, sb := 0, c := 0, k := 0, key := 0, hf := 0, vf := 0, rsv := 0,
    x := 0, y := 0, wd := 0, ht := 0, imm := 0 }

end Sys2Proof
end

