-- ==== Sys2Proof/WellFormed.lean ====
section
/-! DEFINITION. Which commands have an encoding: every integer operand fits its field (30_encoding.md R91, R92; the
operands the assembler of R103 rejects are those that fail here). -/

namespace Sys2Proof

/-- A coordinate or scroll delta fits X or Y, which are s16 (R92, R103). -/
abbrev FitsS16 (v : Int) : Prop := -32768 ≤ v ∧ v ≤ 32767

/-- A size fits WD or HT, which are u16 (R91, R103). -/
abbrev FitsU16 (v : Nat) : Prop := v < 65536

/-- A base, id, code point, address or length fits IMM, which is u32 (R91). -/
abbrev FitsU32 (v : Nat) : Prop := v < 4294967296

/-- A depth fits C, which is u4 (R91, R103). -/
abbrev FitsU4 (v : Nat) : Prop := v < 16

/-- A scale fits IMM[7:0] (R93, R103). -/
abbrev FitsU8 (v : Nat) : Prop := v < 256

/-- The command has an encoding: each integer operand fits the field R93 gives it. -/
def Instr.wellFormed (i : Instr) : Bool :=
  match i with
  | .nop => true
  | .setsurf _ base w h bpp => decide (FitsU32 base ∧ FitsU16 w ∧ FitsU16 h ∧ FitsU4 bpp)
  | .tilesurf _ id => decide (FitsU32 id)
  | .glyphsurf _ _ code => decide (FitsU32 code)
  | .pixset _ x y _ => decide (FitsS16 x ∧ FitsS16 y)
  | .pixget _ x y => decide (FitsS16 x ∧ FitsS16 y)
  | .cls _ _ => true
  | .rect _ x y w h _ => decide (FitsS16 x ∧ FitsS16 y ∧ FitsU16 w ∧ FitsU16 h)
  | .rectb _ x y w h _ => decide (FitsS16 x ∧ FitsS16 y ∧ FitsU16 w ∧ FitsU16 h)
  | .blit _ _ x y scale _ _ _ _ => decide (FitsS16 x ∧ FitsS16 y ∧ FitsU8 scale)
  | .torgba _ => true
  | .mget x y => decide (FitsS16 x ∧ FitsS16 y)
  | .mset x y _ => decide (FitsS16 x ∧ FitsS16 y)
  | .palget _ => true
  | .glyphmet _ code => decide (FitsU32 code)
  | .recompute => true
  | .btnset _ _ => true
  | .btnget _ => true
  | .mouseset _ _ _ sx sy => decide (FitsS16 sx ∧ FitsS16 sy)
  | .mousepos => true
  | .mousebtn => true
  | .scrollx => true
  | .scrolly => true
  | .memrd addr => decide (FitsU32 addr)
  | .memwr addr _ => decide (FitsU32 addr)
  | .load len => decide (FitsU32 len)
  | .stepbegin => true
  | .stepend => true
  | .clrstatus => true

/-- `Instr.wellFormed` as a proposition. The decoder gives no other command, so what `exec` does with one is no claim
about the block (log 16). -/
abbrev Instr.WellFormed (i : Instr) : Prop := i.wellFormed = true

end Sys2Proof
end

