-- ==== Sys2Proof/Decode.lean ====
section
/-! DEFINITION. The decoder, total on any bytes, and after it the encoder (30_encoding.md R90 to R97). -/

namespace Sys2Proof

/-- What a byte sequence at the command port is (R94): a command, one of the two decoding errors, or not the 16 bytes
of a command. -/
inductive Decoded where
  /-- One command of R93. -/
  | instr (i : Instr)
  /-- OP is 0x1D or above: ILLEGAL_OPCODE (R94 step 1). -/
  | illegalOpcode
  /-- A bit the opcode does not use is 1: RESERVED_FIELD (R94 step 2). -/
  | reservedField
  /-- Not exactly 16 bytes: no command has been delivered (R90, R97). -/
  | incomplete
  deriving DecidableEq, Repr

/-- Four bytes as a little-endian word: `Wk = b[4k] | b[4k+1]<<8 | b[4k+2]<<16 | b[4k+3]<<24` (R90). -/
def wordOfBytes (b0 b1 b2 b3 : Byte) : Word32 := b3 ++ b2 ++ b1 ++ b0

/-- The command value of 16 bytes in port order: `CMD = {W3, W2, W1, W0}` (R90). -/
def commandOfBytes : List Byte → Option Command
  | [b0, b1, b2, b3, b4, b5, b6, b7, b8, b9, b10, b11, b12, b13, b14, b15] =>
    some (wordOfBytes b12 b13 b14 b15 ++ wordOfBytes b8 b9 b10 b11 ++ wordOfBytes b4 b5 b6 b7 ++
      wordOfBytes b0 b1 b2 b3)
  | _ => none

/-- The field layout of R91. -/
def unpackFields (cmd : Command) : Fields where
  op  := cmd.extractLsb' 0 8
  sa  := cmd.extractLsb' 8 2
  sb  := cmd.extractLsb' 10 2
  c   := cmd.extractLsb' 12 4
  k   := cmd.extractLsb' 16 1
  key := cmd.extractLsb' 17 4
  hf  := cmd.extractLsb' 21 1
  vf  := cmd.extractLsb' 22 1
  rsv := cmd.extractLsb' 23 9
  x   := cmd.extractLsb' 32 16
  y   := cmd.extractLsb' 48 16
  wd  := cmd.extractLsb' 64 16
  ht  := cmd.extractLsb' 80 16
  imm := cmd.extractLsb' 96 32

/-- The opcode numbers of R93; 0x1D to 0xFF are illegal (R95). -/
def opcodeOf (op : BitVec 8) : Option Opcode :=
  match op.toNat with
  | 0x00 => some .nop
  | 0x01 => some .setsurf
  | 0x02 => some .tilesurf
  | 0x03 => some .glyphsurf
  | 0x04 => some .pixset
  | 0x05 => some .pixget
  | 0x06 => some .cls
  | 0x07 => some .rect
  | 0x08 => some .rectb
  | 0x09 => some .blit
  | 0x0A => some .torgba
  | 0x0B => some .mget
  | 0x0C => some .mset
  | 0x0D => some .palget
  | 0x0E => some .glyphmet
  | 0x0F => some .recompute
  | 0x10 => some .btnset
  | 0x11 => some .btnget
  | 0x12 => some .mouseset
  | 0x13 => some .mousepos
  | 0x14 => some .mousebtn
  | 0x15 => some .scrollx
  | 0x16 => some .scrolly
  | 0x17 => some .memrd
  | 0x18 => some .memwr
  | 0x19 => some .load
  | 0x1A => some .stepbegin
  | 0x1B => some .stepend
  | 0x1C => some .clrstatus
  | _ => none

/-- The bits of the command that the opcode does not use (R93): every used field is cleared, and of a field used only
in its low bits the rest stays, moved down. The command is well formed when nothing is left (R94 step 2). -/
def Fields.unused (f : Fields) (o : Opcode) : Fields :=
  match o with
  | .nop => { f with op := 0 }
  | .setsurf => { f with op := 0, sa := 0, c := 0, wd := 0, ht := 0, imm := 0 }
  | .tilesurf => { f with op := 0, sa := 0, imm := 0 }
  | .glyphsurf => { f with op := 0, sa := 0, c := f.c >>> 1, imm := 0 }
  | .pixset => { f with op := 0, sa := 0, c := 0, x := 0, y := 0 }
  | .pixget => { f with op := 0, sa := 0, x := 0, y := 0 }
  | .cls => { f with op := 0, sa := 0, c := 0 }
  | .rect => { f with op := 0, sa := 0, c := 0, x := 0, y := 0, wd := 0, ht := 0 }
  | .rectb => { f with op := 0, sa := 0, c := 0, x := 0, y := 0, wd := 0, ht := 0 }
  | .blit =>
    { f with op := 0, sa := 0, sb := 0, k := 0, key := 0, hf := 0, vf := 0, x := 0, y := 0, imm := f.imm >>> 8 }
  | .torgba => { f with op := 0, sa := 0 }
  | .mget => { f with op := 0, x := 0, y := 0 }
  | .mset => { f with op := 0, x := 0, y := 0, imm := f.imm >>> 8 }
  | .palget => { f with op := 0, c := 0 }
  | .glyphmet => { f with op := 0, c := f.c >>> 1, imm := 0 }
  | .recompute => { f with op := 0 }
  | .btnset => { f with op := 0, k := 0, imm := f.imm >>> 5 }
  | .btnget => { f with op := 0, imm := f.imm >>> 5 }
  | .mouseset => { f with op := 0, x := 0, y := 0, imm := f.imm >>> 19 }
  | .mousepos => { f with op := 0 }
  | .mousebtn => { f with op := 0 }
  | .scrollx => { f with op := 0 }
  | .scrolly => { f with op := 0 }
  | .memrd => { f with op := 0, imm := 0 }
  | .memwr => { f with op := 0, wd := f.wd >>> 8, imm := 0 }
  | .load => { f with op := 0, imm := 0 }
  | .stepbegin => { f with op := 0 }
  | .stepend => { f with op := 0 }
  | .clrstatus => { f with op := 0 }

/-- The slot that SA or SB names (R91). -/
def slotOf (v : BitVec 2) : SlotId :=
  if v = 0 then .s0 else if v = 1 then .s1 else if v = 2 then .s2 else .s3

/-- The variant that C[0] names (R93, R223: normal = 0, alternate = 1). -/
def variantOf (c : BitVec 4) : Variant := if c.getLsbD 0 then .alternate else .normal

/-- A one-bit field as a truth value (R91). -/
def flagOf (b : BitVec 1) : Bool := b = 1

/-- The operands of R92 and R93: X and Y sign-extended, every other field zero-extended. -/
def Fields.instr (f : Fields) (o : Opcode) : Instr :=
  match o with
  | .nop => .nop
  | .setsurf => .setsurf (slotOf f.sa) f.imm.toNat f.wd.toNat f.ht.toNat f.c.toNat
  | .tilesurf => .tilesurf (slotOf f.sa) f.imm.toNat
  | .glyphsurf => .glyphsurf (slotOf f.sa) (variantOf f.c) f.imm.toNat
  | .pixset => .pixset (slotOf f.sa) f.x.toInt f.y.toInt f.c
  | .pixget => .pixget (slotOf f.sa) f.x.toInt f.y.toInt
  | .cls => .cls (slotOf f.sa) f.c
  | .rect => .rect (slotOf f.sa) f.x.toInt f.y.toInt f.wd.toNat f.ht.toNat f.c
  | .rectb => .rectb (slotOf f.sa) f.x.toInt f.y.toInt f.wd.toNat f.ht.toNat f.c
  | .blit =>
    .blit (slotOf f.sa) (slotOf f.sb) f.x.toInt f.y.toInt (f.imm.extractLsb' 0 8).toNat (flagOf f.k) f.key
      (flagOf f.hf) (flagOf f.vf)
  | .torgba => .torgba (slotOf f.sa)
  | .mget => .mget f.x.toInt f.y.toInt
  | .mset => .mset f.x.toInt f.y.toInt (f.imm.extractLsb' 0 8)
  | .palget => .palget f.c
  | .glyphmet => .glyphmet (variantOf f.c) f.imm.toNat
  | .recompute => .recompute
  | .btnset => .btnset (f.imm.extractLsb' 0 5) (flagOf f.k)
  | .btnget => .btnget (f.imm.extractLsb' 0 5)
  | .mouseset =>
    .mouseset (f.imm.extractLsb' 0 8) (f.imm.extractLsb' 8 8) (f.imm.extractLsb' 16 3) f.x.toInt f.y.toInt
  | .mousepos => .mousepos
  | .mousebtn => .mousebtn
  | .scrollx => .scrollx
  | .scrolly => .scrolly
  | .memrd => .memrd f.imm.toNat
  | .memwr => .memwr f.imm.toNat (f.wd.extractLsb' 0 8)
  | .load => .load f.imm.toNat
  | .stepbegin => .stepbegin
  | .stepend => .stepend
  | .clrstatus => .clrstatus

/-- The three steps of R94 on the fields of a command. -/
def Fields.decode (f : Fields) : Decoded :=
  match opcodeOf f.op with
  | none => .illegalOpcode
  | some o => if f.unused o = Fields.zero then .instr (f.instr o) else .reservedField

/-- R94: "every 128-bit value is either one command of rule R93 or one of the two errors". -/
def decodeCommand (cmd : Command) : Decoded := (unpackFields cmd).decode

/-- The decoder on bytes in port order: a decoder takes exactly 16 bytes per command, always (R97). -/
def decode (bytes : List Byte) : Decoded :=
  match commandOfBytes bytes with
  | some cmd => decodeCommand cmd
  | none => .incomplete

/-- The opcode number of each opcode (R93). -/
def Opcode.code (o : Opcode) : BitVec 8 :=
  match o with
  | .nop => 0x00
  | .setsurf => 0x01
  | .tilesurf => 0x02
  | .glyphsurf => 0x03
  | .pixset => 0x04
  | .pixget => 0x05
  | .cls => 0x06
  | .rect => 0x07
  | .rectb => 0x08
  | .blit => 0x09
  | .torgba => 0x0A
  | .mget => 0x0B
  | .mset => 0x0C
  | .palget => 0x0D
  | .glyphmet => 0x0E
  | .recompute => 0x0F
  | .btnset => 0x10
  | .btnget => 0x11
  | .mouseset => 0x12
  | .mousepos => 0x13
  | .mousebtn => 0x14
  | .scrollx => 0x15
  | .scrolly => 0x16
  | .memrd => 0x17
  | .memwr => 0x18
  | .load => 0x19
  | .stepbegin => 0x1A
  | .stepend => 0x1B
  | .clrstatus => 0x1C

/-- The value of SA or SB that names a slot (R91). -/
def SlotId.code (a : SlotId) : BitVec 2 :=
  match a with
  | .s0 => 0
  | .s1 => 1
  | .s2 => 2
  | .s3 => 3

/-- The value of C that names a variant (R93). -/
def Variant.code (v : Variant) : BitVec 4 :=
  match v with
  | .normal => 0
  | .alternate => 1

/-- A truth value as a one-bit field (R91). -/
def bitOf (b : Bool) : BitVec 1 := if b then 1 else 0

/-- The fields of a command: those R93 lists hold its operands, every other field is 0. -/
def Instr.fields (i : Instr) : Fields :=
  match i with
  | .nop => { Fields.zero with op := Opcode.code .nop }
  | .setsurf a base w h bpp =>
    { Fields.zero with
      op := Opcode.code .setsurf, sa := a.code, c := BitVec.ofNat 4 bpp, wd := BitVec.ofNat 16 w,
      ht := BitVec.ofNat 16 h, imm := BitVec.ofNat 32 base }
  | .tilesurf a id => { Fields.zero with op := Opcode.code .tilesurf, sa := a.code, imm := BitVec.ofNat 32 id }
  | .glyphsurf a v code =>
    { Fields.zero with op := Opcode.code .glyphsurf, sa := a.code, c := v.code, imm := BitVec.ofNat 32 code }
  | .pixset a x y c =>
    { Fields.zero with
      op := Opcode.code .pixset, sa := a.code, c := c, x := BitVec.ofInt 16 x, y := BitVec.ofInt 16 y }
  | .pixget a x y =>
    { Fields.zero with op := Opcode.code .pixget, sa := a.code, x := BitVec.ofInt 16 x, y := BitVec.ofInt 16 y }
  | .cls a c => { Fields.zero with op := Opcode.code .cls, sa := a.code, c := c }
  | .rect a x y w h c =>
    { Fields.zero with
      op := Opcode.code .rect, sa := a.code, c := c, x := BitVec.ofInt 16 x, y := BitVec.ofInt 16 y,
      wd := BitVec.ofNat 16 w, ht := BitVec.ofNat 16 h }
  | .rectb a x y w h c =>
    { Fields.zero with
      op := Opcode.code .rectb, sa := a.code, c := c, x := BitVec.ofInt 16 x, y := BitVec.ofInt 16 y,
      wd := BitVec.ofNat 16 w, ht := BitVec.ofNat 16 h }
  | .blit d s x y scale k key hf vf =>
    { Fields.zero with
      op := Opcode.code .blit, sa := d.code, sb := s.code, k := bitOf k, key := key, hf := bitOf hf,
      vf := bitOf vf, x := BitVec.ofInt 16 x, y := BitVec.ofInt 16 y, imm := BitVec.ofNat 32 scale }
  | .torgba a => { Fields.zero with op := Opcode.code .torgba, sa := a.code }
  | .mget x y => { Fields.zero with op := Opcode.code .mget, x := BitVec.ofInt 16 x, y := BitVec.ofInt 16 y }
  | .mset x y id =>
    { Fields.zero with
      op := Opcode.code .mset, x := BitVec.ofInt 16 x, y := BitVec.ofInt 16 y, imm := id.setWidth 32 }
  | .palget i => { Fields.zero with op := Opcode.code .palget, c := i }
  | .glyphmet v code =>
    { Fields.zero with op := Opcode.code .glyphmet, c := v.code, imm := BitVec.ofNat 32 code }
  | .recompute => { Fields.zero with op := Opcode.code .recompute }
  | .btnset i pressed =>
    { Fields.zero with op := Opcode.code .btnset, k := bitOf pressed, imm := i.setWidth 32 }
  | .btnget i => { Fields.zero with op := Opcode.code .btnget, imm := i.setWidth 32 }
  | .mouseset mx my mb sx sy =>
    { Fields.zero with
      op := Opcode.code .mouseset, x := BitVec.ofInt 16 sx, y := BitVec.ofInt 16 sy,
      imm := (mb ++ my ++ mx).setWidth 32 }
  | .mousepos => { Fields.zero with op := Opcode.code .mousepos }
  | .mousebtn => { Fields.zero with op := Opcode.code .mousebtn }
  | .scrollx => { Fields.zero with op := Opcode.code .scrollx }
  | .scrolly => { Fields.zero with op := Opcode.code .scrolly }
  | .memrd addr => { Fields.zero with op := Opcode.code .memrd, imm := BitVec.ofNat 32 addr }
  | .memwr addr data =>
    { Fields.zero with op := Opcode.code .memwr, wd := data.setWidth 16, imm := BitVec.ofNat 32 addr }
  | .load len => { Fields.zero with op := Opcode.code .load, imm := BitVec.ofNat 32 len }
  | .stepbegin => { Fields.zero with op := Opcode.code .stepbegin }
  | .stepend => { Fields.zero with op := Opcode.code .stepend }
  | .clrstatus => { Fields.zero with op := Opcode.code .clrstatus }

/-- The command value with the given fields, most significant field first (R91). -/
def packFields (f : Fields) : Command :=
  f.imm ++ f.ht ++ f.wd ++ f.y ++ f.x ++ f.rsv ++ f.vf ++ f.hf ++ f.key ++ f.k ++ f.c ++ f.sb ++ f.sa ++ f.op

/-- The command value of a well-formed command (R91, R93). -/
def encodeCommand (i : Instr) : Command := packFields i.fields

/-- The 16 bytes of a command value in port order, `b0` the least significant (R90). -/
def bytesOfCommand (cmd : Command) : List Byte := (List.range 16).map fun k => cmd.extractLsb' (8 * k) 8

/-- The 16 bytes of a well-formed command, in port order. -/
def encode (i : Instr) : List Byte := bytesOfCommand (encodeCommand i)

/-- The instruction the decoder reads from the command whose bits are `w`, numbered as spec/opcode_table.json numbers
them: bit 0 is the least significant bit of `b0`. Every bit at or above `nbits` is 0. -/
def decodeTableWord (nbits w : Nat) : Option Instr :=
  match decode (bytesOfCommand (BitVec.ofNat 128 (w % 2 ^ nbits))) with
  | .instr i => some i
  | .illegalOpcode => none
  | .reservedField => none
  | .incomplete => none

end Sys2Proof
end

