-- ==== Sys2Proof/Machine/Regions.lean ====
section
/-! DEFINITION. The arena address map (20_memory.md R61) and the sizes R7 and R8 fix (log 17). -/

namespace Sys2Proof.Machine

/-- `FB_BASE` (R61). -/
abbrev fbBase : Nat := 0x00000
/-- `SPRITE_BASE` (R61). -/
abbrev spriteBase : Nat := 0x03FC0
/-- `PAL_BASE` (R61). -/
abbrev palBase : Nat := 0x07FC0
/-- `FONT_BASE` (R61). -/
abbrev fontBase : Nat := 0x08020
/-- `WAVE_BASE` (R61). -/
abbrev waveBase : Nat := 0x08820
/-- `SAMPLE_BASE` (R61). -/
abbrev sampleBase : Nat := 0x08920
/-- `PATTERN_BASE` (R61). -/
abbrev patternBase : Nat := 0x099A0
/-- `MUSIC_BASE` (R61). -/
abbrev musicBase : Nat := 0x0C6A0
/-- `FLAGS_BASE` (R61). -/
abbrev flagsBase : Nat := 0x0C838
/-- `MAP_BASE` (R61). -/
abbrev mapBase : Nat := 0x0CA38
/-- `GAMEPAD_BASE` (R61). -/
abbrev gamepadBase : Nat := 0x149B8
/-- `MOUSE_BASE` (R61). -/
abbrev mouseBase : Nat := 0x149BC
/-- `ARENA_SIZE` (R8, R61). -/
abbrev arenaSize : Nat := 84416

/-- The size of the font glyph bank: 2 variants, 128 glyphs, 8 bytes each (R61, R223). -/
abbrev fontSize : Nat := 2048
/-- `SPRITE_COUNT` (R7). -/
abbrev spriteCount : Nat := 512
/-- `SPRITE_BYTES` (R7). -/
abbrev spriteBytes : Nat := 32
/-- `GLYPH_CODES` (R7). -/
abbrev glyphCodes : Nat := 128
/-- `GLYPH_BYTES` (R7). -/
abbrev glyphBytes : Nat := 8
/-- `FB_W` (R8). -/
abbrev fbWidth : Nat := 240
/-- `FB_H` (R8). -/
abbrev fbHeight : Nat := 136
/-- `MAP_W` (R7). -/
abbrev mapWidth : Nat := 240
/-- `MAP_H` (R7). -/
abbrev mapHeight : Nat := 136

/-- One region of the arena: its name, base and size. -/
structure Region where
  name : String
  base : Nat
  size : Nat
  deriving DecidableEq, Repr

/-- The table of R61, in address order. -/
def regions : List Region :=
  [⟨"framebuffer", fbBase, 16320⟩, ⟨"sprite bank", spriteBase, 16384⟩, ⟨"palette", palBase, 96⟩,
   ⟨"font glyph bank", fontBase, fontSize⟩, ⟨"waveform table", waveBase, 256⟩,
   ⟨"sample table", sampleBase, 4224⟩, ⟨"pattern table", patternBase, 11520⟩,
   ⟨"music table", musicBase, 408⟩, ⟨"flags table", flagsBase, 512⟩, ⟨"tile map", mapBase, 32640⟩,
   ⟨"gamepad latch", gamepadBase, 4⟩, ⟨"mouse register", mouseBase, 4⟩]

/-- What an arena byte that the memory does not list reads as: the reset contents of R35, DEFAULT_FONT in the font
region and 0 everywhere else (log 18). -/
def arenaUnlisted (p : Params) (a : Nat) : Byte :=
  if h : fontBase ≤ a ∧ a < fontBase + fontSize then
    p.font[a - fontBase]'(by simp only [fontBase, fontSize] at h ⊢; omega)
  else 0

/-- What a byte of CART that nothing has filled reads as: DESIGN CHOICE 0, unsafe (R33 gives none; log 7). -/
def cartUnlisted (_ : Nat) : Byte := 0

end Sys2Proof.Machine
end

