-- ==== Sys2Proof/Machine/Memory.lean ====
section
/-! DEFINITION. Byte memory as a list of (address, byte) pairs in one canonical form, and the access primitives of
20_memory.md R66 and R67. -/

namespace Sys2Proof.Machine

/-- A byte memory: the bytes that differ from what an unlisted address reads as. -/
abbrev Memory := List Host.Cell

/-- The byte at an address: the listed one, or what the unlisted address reads as (`u`). -/
def Memory.read (u : Nat → Byte) (m : Memory) (a : Nat) : Byte :=
  match m with
  | [] => u a
  | (k, b) :: rest => if k = a then b else Memory.read u rest a

/-- The entry that makes address `a` read as `v`: none where it reads as `v` unlisted. -/
def Memory.entry (u : Nat → Byte) (a : Nat) (v : Byte) : Memory := if v = u a then [] else [(a, v)]

/-- Store `v` at `a`, keeping the canonical form. -/
def Memory.write (u : Nat → Byte) (m : Memory) (a : Nat) (v : Byte) : Memory :=
  match m with
  | [] => Memory.entry u a v
  | (k, b) :: rest =>
    if k < a then (k, b) :: Memory.write u rest a v
    else Memory.entry u a v ++ ((k, b) :: rest).filter (fun c => c.1 ≠ a)

/-- Make every address from `lo` up to but not including `hi` read as it does unlisted. -/
def Memory.restore (m : Memory) (lo hi : Nat) : Memory := m.filter (fun c => ¬ (lo ≤ c.1 ∧ c.1 < hi))

/-- The canonical form: addresses strictly rising, and no entry equal to what its address reads as unlisted. -/
abbrev Memory.wf (u : Nat → Byte) (m : Memory) : Prop :=
  m.Pairwise (fun x y => x.1 < y.1) ∧ ∀ c ∈ m, c.2 ≠ u c.1

/-- Every listed address is below `n`. -/
abbrev Memory.below (n : Nat) (m : Memory) : Prop := ∀ c ∈ m, c.1 < n

/-- `A[a]` (R66). -/
def arenaGet (p : Params) (m : Memory) (a : Nat) : Byte := Memory.read (arenaUnlisted p) m a

/-- `A[a] <- v` (R66). -/
def arenaSet (p : Params) (m : Memory) (a : Nat) (v : Byte) : Memory := Memory.write (arenaUnlisted p) m a v

/-- `MemRead(a, n)` (R67). -/
def memRead (p : Params) (m : Memory) (a n : Nat) : List Byte := (List.range n).map fun i => arenaGet p m (a + i)

/-- `MemWrite(a, n, v)`, with `n` the length of `v`, in ascending order (R67). -/
def memWrite (p : Params) (m : Memory) (a : Nat) (v : List Byte) : Memory :=
  match v with
  | [] => m
  | b :: rest => memWrite p (arenaSet p m a b) (a + 1) rest

end Sys2Proof.Machine
end

