-- ==== Sys2Proof/Machine/Surface.lean ====
section
/-! DEFINITION. Surfaces and the pixel primitives (41_pixel.md R170 to R173), and the tile and glyph views
(42_atlas.md R220, R221, R223). -/

namespace Sys2Proof.Machine

/-- The legal depths, 1 and 4 bits per pixel (R7, R170). -/
inductive Depth where
  | bpp1 | bpp4
  deriving DecidableEq, Repr

/-- A PixelSurface descriptor {base, w, h, bpp} (R24; log 12). -/
structure Surface where
  base : Nat
  w : Nat
  h : Nat
  bpp : Depth
  deriving DecidableEq, Repr

/-- The depth as a number of bits (R170). -/
def Depth.bits (d : Depth) : Nat :=
  match d with
  | .bpp1 => 1
  | .bpp4 => 4

/-- `(1 << B) - 1`: 0x1 or 0xF (R171). -/
def Depth.mask (d : Depth) : Byte :=
  match d with
  | .bpp1 => 0x1
  | .bpp4 => 0xF

/-- The depth that SETSURF's C names, if it names one (R174). -/
def depthOf (bpp : Nat) : Option Depth := if bpp = 1 then some .bpp1 else if bpp = 4 then some .bpp4 else none

/-- `Extent(S) = ceil(S.w · S.h · S.bpp / 8)` (R170). -/
def Surface.extent (S : Surface) : Nat := (S.w * S.h * S.bpp.bits + 7) / 8

/-- A legal surface lies in the arena: `S.base + Extent(S) ≤ ARENA_SIZE` (R170; the depth is legal by its type). -/
abbrev Surface.Legal (S : Surface) : Prop := S.base + S.extent ≤ arenaSize

/-- The framebuffer view, SLOT[0] after reset (R25). -/
def framebuffer : Surface := ⟨fbBase, fbWidth, fbHeight, .bpp4⟩

/-- `EMPTY4`, "no such resource" for tiles (R221). -/
def empty4 : Surface := ⟨0, 0, 0, .bpp4⟩

/-- `EMPTY1`, "no such resource" for glyphs (R221). -/
def empty1 : Surface := ⟨0, 0, 0, .bpp1⟩

/-- `TileView(id)` (R220). -/
def tileView (id : Nat) : Surface := ⟨spriteBase + spriteBytes * id, 8, 8, .bpp4⟩

/-- The number of a variant: normal = 0, alternate = 1 (R223). -/
def variantNumber (v : Variant) : Nat :=
  match v with
  | .normal => 0
  | .alternate => 1

/-- `GlyphAddr(v, c) = FONT_BASE + 1024·v + 8·c` (R223). -/
def glyphAddr (v : Variant) (c : Nat) : Nat := fontBase + 1024 * variantNumber v + glyphBytes * c

/-- `GlyphView(v, c)` (R223). -/
def glyphView (v : Variant) (c : Nat) : Surface := ⟨glyphAddr v c, 8, 8, .bpp1⟩

/-- The bit offset of a pixel from the first bit of the surface (R171). -/
def bitOffset (S : Surface) (x y : Nat) : Nat := (x + y * S.w) * S.bpp.bits

/-- The arena address of the byte that holds a pixel (R171). -/
def pixByte (S : Surface) (x y : Nat) : Nat := S.base + bitOffset S x y / 8

/-- The position of a pixel's lowest bit inside its byte (R171). -/
def pixShift (S : Surface) (x y : Nat) : Nat := bitOffset S x y % 8

/-- `GetPix(S, x, y)` (R172). Its precondition `0 ≤ x < S.w` and `0 ≤ y < S.h` is in the types of `x` and `y`, so the
undefined case of U1 cannot be written (log 9). -/
def getPix (p : Params) (m : Memory) (S : Surface) (x : Fin S.w) (y : Fin S.h) : Nibble :=
  ((arenaGet p m (pixByte S x y) >>> pixShift S x y) &&& S.bpp.mask).setWidth 4

/-- A byte with the lane at `sh` replaced: `(b & ~(m << sh) & 0xFF) | ((v & m) << sh)` (R173). -/
def laneSet (b : Byte) (mask : Byte) (sh : Nat) (v : Nibble) : Byte :=
  (b &&& ~~~(mask <<< sh)) ||| ((v.setWidth 8 &&& mask) <<< sh)

/-- The coordinates lie on the surface (R173). -/
abbrev Surface.Contains (S : Surface) (x y : Int) : Prop := 0 ≤ x ∧ x < S.w ∧ 0 ≤ y ∧ y < S.h

/-- `SetPix(S, x, y, v)`, a silent no-op off the surface (R173). -/
def setPix (p : Params) (S : Surface) (x y : Int) (v : Nibble) (m : Memory) : Memory :=
  if S.Contains x y then
    arenaSet p m (pixByte S x.toNat y.toNat)
      (laneSet (arenaGet p m (pixByte S x.toNat y.toNat)) S.bpp.mask (pixShift S x.toNat y.toNat) v)
  else m

end Sys2Proof.Machine
end

