-- ==== Sys2Proof/Machine/Metrics.lean ====
section
/-! DEFINITION. The glyph metrics cache (42_atlas.md R225, R226; 10_state.md R29). -/

namespace Sys2Proof.Machine

/-- One entry of the cache: advance width and left padding, each a u4 (R29). -/
structure GlyphMetric where
  adv : Nibble
  lpad : Nibble
  deriving DecidableEq, Repr

/-- `MET[v][c]`: 128 entries for each variant (R29). -/
structure MetricTable where
  normal : Vector GlyphMetric 128
  alternate : Vector GlyphMetric 128
  deriving DecidableEq, Repr

/-- `MET[v][c]` (R29). -/
def metricAt (t : MetricTable) (v : Variant) (c : Fin 128) : GlyphMetric :=
  match v with
  | .normal => t.normal[c]
  | .alternate => t.alternate[c]

/-- `SPACE_W[v]` (R8). -/
def spaceWidth (p : Params) (v : Variant) : Nat :=
  match v with
  | .normal => p.spaceNormal
  | .alternate => p.spaceAlternate

/-- The columns of a glyph that hold a set pixel: bit k is set iff column k has one (R225). -/
def glyphColumns (p : Params) (m : Memory) (v : Variant) (c : Nat) : Byte :=
  Nat.fold 8 (fun r _ col => col ||| arenaGet p m (glyphAddr v c + r)) 0

/-- The least set bit of a byte, if it has one (R225, `min { k in 0..7 : col[k] = 1 }`). -/
def lowestBit (col : Byte) : Option Nat := (List.range 8).find? fun k => col.getLsbD k

/-- The greatest set bit of a byte, if it has one (R225, `max { k in 0..7 : col[k] = 1 }`). -/
def highestBit (col : Byte) : Option Nat := (List.range 8).reverse.find? fun k => col.getLsbD k

/-- Left and right padding of a glyph with the given columns; 8 and 8 for a blank one (R225). -/
def glyphPads (col : Byte) : Nat × Nat :=
  match lowestBit col, highestBit col with
  | some l, some h => (l, 7 - h)
  | _, _ => (8, 8)

/-- `GlyphMetrics(I, v, c)` (R225). The space is code 32 (G1). The subtraction is the natural one, which is
`max(0, 8 - lpad - rpad)`. -/
def glyphMetrics (p : Params) (m : Memory) (v : Variant) (c : Nat) : GlyphMetric :=
  if c = 32 then { adv := BitVec.ofNat 4 (spaceWidth p v), lpad := 0 }
  else
    let pads := glyphPads (glyphColumns p m v c)
    { adv := BitVec.ofNat 4 (8 - pads.1 - pads.2), lpad := BitVec.ofNat 4 pads.1 }

/-- `Metrics(I)` (R226). -/
def metrics (p : Params) (m : Memory) : MetricTable where
  normal := Vector.ofFn fun c : Fin 128 => glyphMetrics p m .normal c
  alternate := Vector.ofFn fun c : Fin 128 => glyphMetrics p m .alternate c

end Sys2Proof.Machine
end

