-- ==== Sys2Proof/Machine/State.lean ====
section
/-! DEFINITION. The state of the block (10_state.md), the reasons a step can stop, and the state after reset. -/

namespace Sys2Proof.Machine

/-- Why a step stops with a fault. -/
inductive Fault where
  /-- Raised by a command that draws on, or reads, a surface slot whose bytes run past the arena: an access to an
  address the spec says does not exist (R66). R170 says every slot is legal at all times, so no run from reset reaches
  it (log 8). Safe: the hardware never holds such a slot. -/
  | illegalSlot
  deriving DecidableEq, Repr

/-- Why a step is refused. -/
inductive Refusal where
  /-- Raised by the dispatch of an instruction that has no meaning yet, named by its mnemonic. No arm of `exec` raises
  it: every instruction has its meaning. Safe. -/
  | notModelled (mnemonic : String)
  deriving DecidableEq, Repr

/-- The four surface descriptor slots (R24). -/
structure Slots where
  s0 : Surface
  s1 : Surface
  s2 : Surface
  s3 : Surface
  deriving DecidableEq, Repr

/-- The state of the block, with its inputs and its configuration. -/
structure State where
  /-- The configuration of this instance (R34); no command writes it (log 4). -/
  cfg : Params
  /-- The arena `A` (R23): the bytes that differ from the reset contents. -/
  arena : Memory
  /-- `SLOT[0..3]` (R24). -/
  slots : Slots
  /-- `RESULT` (R26). -/
  result : Word32
  /-- `STATUS.ERR` (R27). -/
  err : Byte
  /-- `IN_STEP` (R28). -/
  inStep : Bool
  /-- `MET` (R29). -/
  met : MetricTable
  /-- `PROG` (R30). -/
  prog : List Byte
  /-- `RGBA_OUT` (R31). -/
  rgbaOut : List Byte
  /-- `CART`, the cartridge input space (R33): the bytes that differ from an unfilled one. -/
  cart : Memory
  /-- The bytes the host has written to the command port since reset, in port order (R22, R36, R90; log 1). -/
  commands : List Byte
  /-- How many commands the engine has finished: R22's index into the command sequence (log 1). -/
  index : Nat
  deriving DecidableEq, Repr

/-- The slots after reset: the framebuffer view and three empty views (R25). -/
def Slots.reset : Slots := ⟨framebuffer, empty4, empty4, empty4⟩

/-- The state right after the reset sequence of R360, for a configuration and the contents of CART, which reset does
not change (R33, R35). The command sequence starts anew (log 1). -/
def State.resetWith (p : Params) (cart : Memory) : State where
  cfg := p
  arena := []
  slots := Slots.reset
  result := 0
  err := 0
  inStep := false
  met := metrics p []
  prog := []
  rgbaOut := []
  cart := cart
  commands := []
  index := 0

/-- The machine right after reset (R35, R360), with nothing filled into CART. -/
def State.reset : State := State.resetWith Config.params []

/-- How one command ends. -/
abbrev Result := Host.Outcome State Fault Refusal

end Sys2Proof.Machine
end

