-- ==== Sys2Proof/Machine/Flags.lean ====
section
/-! DEFINITION. The STATUS register and the error codes it records (10_state.md R27, 60_exceptions.md R332). -/

namespace Sys2Proof.Machine

/-- The errors a command can raise (R332). -/
inductive ErrorName where
  | illegalOpcode | reservedField | badSurface | addrRange | decodeEof | unsupportedChunk | buildBadText
  deriving DecidableEq, Repr

/-- `Code(E)` (R332). -/
def errorCode (e : ErrorName) : Byte :=
  match e with
  | .illegalOpcode => 1
  | .reservedField => 2
  | .badSurface => 3
  | .addrRange => 4
  | .decodeEof => 5
  | .unsupportedChunk => 6
  | .buildBadText => 7

/-- The STATUS register as the host reads it (R27): ERR in [7:0], IN_STEP at [8], [31:9] read as 0. A view of
ERR and IN_STEP, not stored (log 13). -/
def State.status (s : State) : Word32 := s.err.setWidth 32 ||| ((BitVec.ofBool s.inStep).setWidth 32 <<< 8)

end Sys2Proof.Machine
end

