-- ==== Sys2Proof/Machine/Ops.lean ====
section
/-! DEFINITION. The named operations over the state: the arena, the slots, RESULT, the other outputs, and the command
port. Recording an error, which this block has in place of taking a trap (60_exceptions.md R330, R336), is `State.raise`,
and clearing it, which stands in for the return (R337), is `State.clearErr`. -/

namespace Sys2Proof.Machine

/-- `A[a]` (R66). -/
def State.byte (s : State) (a : Nat) : Byte := arenaGet s.cfg s.arena a

/-- Replace the arena's contents. -/
def State.setArena (s : State) (m : Memory) : State := { s with arena := m }

/-- `A[a] <- v` (R66). -/
def State.setByte (s : State) (a : Nat) (v : Byte) : State := s.setArena (arenaSet s.cfg s.arena a v)

/-- `SLOT[k]` (R24). -/
def Slots.get (t : Slots) (k : SlotId) : Surface :=
  match k with
  | .s0 => t.s0
  | .s1 => t.s1
  | .s2 => t.s2
  | .s3 => t.s3

/-- `SLOT[k] <- S`: all four fields at once (R24). -/
def Slots.set (t : Slots) (k : SlotId) (S : Surface) : Slots :=
  match k with
  | .s0 => { t with s0 := S }
  | .s1 => { t with s1 := S }
  | .s2 => { t with s2 := S }
  | .s3 => { t with s3 := S }

/-- `SLOT[k]` of a state (R24). -/
def State.slot (s : State) (k : SlotId) : Surface := s.slots.get k

/-- `SLOT[k] <- S` (R24). -/
def State.setSlot (s : State) (k : SlotId) (S : Surface) : State := { s with slots := s.slots.set k S }

/-- `RESULT <- v` (R26). -/
def State.setResult (s : State) (v : Word32) : State := { s with result := v }

/-- `MET <- t` (R29). -/
def State.setMet (s : State) (t : MetricTable) : State := { s with met := t }

/-- `RGBA_OUT <- out` (R31). -/
def State.setRgba (s : State) (out : List Byte) : State := { s with rgbaOut := out }

/-- `raise E` (R331): the first error is kept, and every other write of the command is discarded. -/
def State.raise (s : State) (e : ErrorName) : State := { s with err := if s.err = 0 then errorCode e else s.err }

/-- `STATUS.ERR <- 0` (R305). -/
def State.clearErr (s : State) : State := { s with err := 0 }

/-- `IN_STEP <- b` (R303, R304). -/
def State.setInStep (s : State) (b : Bool) : State := { s with inStep := b }

/-- One more command is finished (R22: "every command advances it by exactly one"). -/
def State.advance (s : State) : State := { s with index := s.index + 1 }

/-- The bytes at the command port that the engine takes next: up to 16, from command `index` on (R22, R90). -/
def State.fetchBytes (s : State) : List Byte := (s.commands.drop (16 * s.index)).take 16

/-- A finished command advances the index (R22, R73; log 19). -/
def finishCommand (r : Result) : Result :=
  match r with
  | .next s => .next s.advance
  | .fault f => .fault f
  | .refused f => .refused f

/-- A command word that fails to decode raises its error and has no other effect (R94, R331); it too advances the
index (R22). -/
def rejectCommand (e : ErrorName) (s : State) : Result := finishCommand (.next (s.raise e))

/-- What the engine does with no command at the port: "Between commands it is idle, and all state is kept" (R340;
log 2). -/
def idle (s : State) : Result := .next s

/-- The command sequence with one command stored at an index, and the bytes before and after it kept (log 3). -/
def placeCommand (commands : List Byte) (index : Nat) (bytes : List Byte) : List Byte :=
  commands.take (16 * index) ++ List.replicate (16 * index - commands.length) 0 ++ bytes ++
    commands.drop (16 * index + 16)

end Sys2Proof.Machine
end

