-- ==== Sys2Proof/Machine/Operands.lean ====
section
/-! DEFINITION. The operand forms the commands share: surface operands, map cells, palette entries, button indices and
the packed scroll deltas. -/

namespace Sys2Proof.Machine

/-- Run a command on the surface a slot holds. R170 says the slot is legal; in a state that no run reaches, where it
is not, the command would leave the arena, and it faults instead (log 8). -/
def State.onSurface (s : State) (a : SlotId) (k : Surface → Result) : Result :=
  if (s.slot a).Legal then k (s.slot a) else .fault .illegalSlot

/-- `MapAddr(x, y)` for a cell of the map, none outside it (R230, R231). -/
def mapAddr (x y : Int) : Option Nat :=
  if 0 ≤ x ∧ x < mapWidth ∧ 0 ≤ y ∧ y < mapHeight then some (mapBase + mapWidth * y.toNat + x.toNat) else none

/-- `PalGet(i)`: red, green and blue (R292). An index of 16 or more cannot be written (R293, U2; log 10). -/
def palGet (p : Params) (m : Memory) (i : Nibble) : Byte × Byte × Byte :=
  (arenaGet p m (palBase + 3 * i.toNat), arenaGet p m (palBase + 3 * i.toNat + 1),
    arenaGet p m (palBase + 3 * i.toNat + 2))

/-- The latch byte of a button: `GAMEPAD_BASE + i[4:3]` (R260, R261). -/
def buttonAddr (i : BitVec 5) : Nat := gamepadBase + (i.extractLsb' 3 2).toNat

/-- The bit of a button in its latch byte: `i[2:0]` (R260, R261). -/
def buttonBit (i : BitVec 5) : Nat := (i.extractLsb' 0 3).toNat

/-- `clamp(v, -32, 31)` (R11, R265). -/
def clampScroll (v : Int) : Int := min (max v (-32)) 31

/-- `Pack6(v) = v mod 64` as a u6 (R265). -/
def pack6 (v : Int) : BitVec 6 := BitVec.ofInt 6 v

/-- `Unpack6(f) = asr8((f << 2) & 0xFF, 2)` (R266). -/
def unpack6 (f : BitVec 6) : Byte := (f.setWidth 8 <<< 2).sshiftRight 2

/-- Byte 2 of the mouse register: `mb | (fx[4:0] << 3)` (R264, R267). -/
def mouseByte2 (mb : BitVec 3) (fx : BitVec 6) : Byte :=
  mb.setWidth 8 ||| ((fx.extractLsb' 0 5).setWidth 8 <<< 3)

/-- Byte 3 of the mouse register: `fx[5] | (fy << 1)`, bit 7 = 0 (R264, R267). -/
def mouseByte3 (fx fy : BitVec 6) : Byte := (fx.extractLsb' 5 1).setWidth 8 ||| (fy.setWidth 8 <<< 1)

/-- `SX` from bytes 2 and 3 of the mouse register (R264, R270). -/
def scrollFieldX (b2 b3 : Byte) : BitVec 6 := ((b2 >>> 3) ||| ((b3 &&& 1) <<< 5)).setWidth 6

/-- `SY` from byte 3 of the mouse register (R264, R271). -/
def scrollFieldY (b3 : Byte) : BitVec 6 := ((b3 >>> 1) &&& 0x3F).setWidth 6

end Sys2Proof.Machine
end

