-- ==== Sys2Proof/Machine/Atlas.lean ====
section
/-! DEFINITION. The sprite and glyph atlas, the metrics cache and the tile map (42_atlas.md R222 to R232). -/

namespace Sys2Proof.Machine

/-- TILESURF (R222). -/
def execTilesurf (a : SlotId) (id : Nat) (s : State) : Result :=
  .next (s.setSlot a (if id < spriteCount then tileView id else empty4))

/-- GLYPHSURF (R224). -/
def execGlyphsurf (a : SlotId) (v : Variant) (code : Nat) (s : State) : Result :=
  .next (s.setSlot a (if code < glyphCodes then glyphView v code else empty1))

/-- RECOMPUTE (R227). -/
def execRecompute (s : State) : Result := .next (s.setMet (metrics s.cfg s.arena))

/-- `(1 << 31) | (lpad << 8) | adv` (R228). -/
def metricWord (e : GlyphMetric) : Word32 := (1#32 <<< 31) ||| (e.lpad.setWidth 32 <<< 8) ||| e.adv.setWidth 32

/-- RESULT of GLYPHMET: the cached entry, 0 for a code point of 128 or more (R228). -/
def glyphWord (t : MetricTable) (v : Variant) (code : Nat) : Word32 :=
  if h : code < 128 then metricWord (metricAt t v ⟨code, h⟩) else 0

/-- GLYPHMET (R228). -/
def execGlyphmet (v : Variant) (code : Nat) (s : State) : Result := .next (s.setResult (glyphWord s.met v code))

/-- MGET (R231). -/
def execMget (x y : Int) (s : State) : Result :=
  match mapAddr x y with
  | some a => .next (s.setResult ((s.byte a).setWidth 32))
  | none => .next (s.setResult 0)

/-- MSET (R232). -/
def execMset (x y : Int) (id : Byte) (s : State) : Result :=
  match mapAddr x y with
  | some a => .next (s.setByte a id)
  | none => .next s

end Sys2Proof.Machine
end

