-- ==== Sys2Proof/Machine/Cartridge.lean ====
section
/-! DEFINITION. The cartridge chunk framer, the memory image builder and LOAD (40_cartridge.md R130 to R148;
30_encoding.md R98 to R102). -/

namespace Sys2Proof.Machine

/-- The kind of a chunk (R100, R101). -/
inductive ChunkKind where
  | dummy | tiles | sprites | map | code | flags | samples | waveform | palette | music | patterns
  | defaultChunk | screen | binary
  /-- A reserved or deprecated code: 3, 13 or 16. -/
  | reserved (code : BitVec 5)
  /-- An unassigned code. -/
  | unknown (code : BitVec 5)
  deriving DecidableEq, Repr

/-- `Kind(code)`, total on the 5-bit codes (R100, R101). -/
def chunkKind (code : BitVec 5) : ChunkKind :=
  match code.toNat with
  | 0 => .dummy
  | 1 => .tiles
  | 2 => .sprites
  | 3 => .reserved code
  | 4 => .map
  | 5 => .code
  | 6 => .flags
  | 9 => .samples
  | 10 => .waveform
  | 12 => .palette
  | 13 => .reserved code
  | 14 => .music
  | 15 => .patterns
  | 16 => .reserved code
  | 17 => .defaultChunk
  | 18 => .screen
  | 19 => .binary
  | _ => .unknown code

/-- A decoded chunk (R130); its kind is `chunkKind code`. -/
structure Chunk where
  code : BitVec 5
  bank : BitVec 3
  size : BitVec 16
  payload : List Byte
  deriving DecidableEq, Repr

/-- `len(payload) = size` (R130). -/
abbrev Chunk.Sized (ch : Chunk) : Prop := ch.payload.length = ch.size.toNat

/-- The u16 little-endian size of a record header (R98). -/
def chunkSize (lo hi : Byte) : BitVec 16 := lo.setWidth 16 ||| (hi.setWidth 16 <<< 8)

/-- The loop of DecodeCart on the bytes not yet read (R131). Each record takes 4 bytes at least, so as many rounds as
there are bytes always suffice: `fuel` never decides the outcome. -/
def decodeChunks (fuel : Nat) (bytes : List Byte) : Except ErrorName (List Chunk) :=
  match fuel, bytes with
  | _, [] => .ok []
  | fuel + 1, h :: lo :: hi :: _reserved :: rest =>
    if rest.length < (chunkSize lo hi).toNat then .error .decodeEof
    else
      match decodeChunks fuel (rest.drop (chunkSize lo hi).toNat) with
      | .ok chunks =>
        .ok ({ code := h.extractLsb' 0 5, bank := h.extractLsb' 5 3, size := chunkSize lo hi,
               payload := rest.take (chunkSize lo hi).toNat } :: chunks)
      | .error e => .error e
  | _, _ => .error .decodeEof

/-- `DecodeCart` of the cartridge's bytes (R131). -/
def decodeCart (bytes : List Byte) : Except ErrorName (List Chunk) := decodeChunks bytes.length bytes

/-- The bytes of one record: header byte `(bank << 5) | code`, size, reserved byte 0, payload (R98, R99, R135). -/
def encodeChunk (ch : Chunk) : List Byte :=
  [ch.bank ++ ch.code, ch.size.extractLsb' 0 8, ch.size.extractLsb' 8 8, 0] ++ ch.payload

/-- `EncodeCart` (R135). -/
def encodeCart (chunks : List Chunk) : List Byte := chunks.flatMap encodeChunk

/-- What the first byte of a UTF-8 sequence allows: how many bytes follow, and the least and greatest second byte.
None where no well-formed sequence begins with it (the Unicode standard's table of well-formed sequences; log 11). -/
def utf8Lead (b : Byte) : Option (Nat × Byte × Byte) :=
  if b ≤ 0x7F then some (0, 0x80, 0xBF)
  else if b < 0xC2 then none
  else if b ≤ 0xDF then some (1, 0x80, 0xBF)
  else if b = 0xE0 then some (2, 0xA0, 0xBF)
  else if b = 0xED then some (2, 0x80, 0x9F)
  else if b ≤ 0xEF then some (2, 0x80, 0xBF)
  else if b = 0xF0 then some (3, 0x90, 0xBF)
  else if b ≤ 0xF3 then some (3, 0x80, 0xBF)
  else if b = 0xF4 then some (3, 0x80, 0x8F)
  else none

/-- The bytes complete a sequence that still needs `n` continuation bytes, the next of them from `lo` to `hi`, and
after it hold well-formed sequences only. -/
def utf8Rest (n : Nat) (lo hi : Byte) (bytes : List Byte) : Bool :=
  match bytes with
  | [] => n == 0
  | b :: rest =>
    match n with
    | 0 =>
      match utf8Lead b with
      | some (k, lo', hi') => utf8Rest k lo' hi' rest
      | none => false
    | k + 1 => decide (lo ≤ b ∧ b ≤ hi) && utf8Rest k 0x80 0xBF rest

/-- `ValidUTF8` (R138, R141): a well-formed UTF-8 byte sequence (D11). -/
def validUtf8 (bytes : List Byte) : Bool := utf8Rest 0 0x80 0xBF bytes

/-- `Dest(code)`: destination base and capacity of a copied chunk (R137). -/
def chunkDest (kind : ChunkKind) : Option (Nat × Nat) :=
  match kind with
  | .tiles => some (spriteBase, 16384)
  | .sprites => some (spriteBase, 16384)
  | .map => some (mapBase, 32640)
  | .flags => some (flagsBase, 512)
  | .samples => some (sampleBase, 4224)
  | .waveform => some (waveBase, 256)
  | .palette => some (palBase, 48)
  | .music => some (musicBase, 408)
  | .patterns => some (patternBase, 11520)
  | .dummy => none
  | .code => none
  | .defaultChunk => none
  | .screen => none
  | .binary => none
  | .reserved _ => none
  | .unknown _ => none

/-- One round of the builder's loop, on the image and the program text so far (R138). The bank is ignored (R144). -/
def buildChunk (p : Params) (ch : Chunk) (m : Memory) (prog : List Byte) : Except ErrorName (Memory × List Byte) :=
  match chunkDest (chunkKind ch.code) with
  | some (base, cap) => .ok (memWrite p m base (ch.payload.take (min ch.size.toNat cap)), prog)
  | none =>
    match chunkKind ch.code with
    | .code => if validUtf8 ch.payload then .ok (m, ch.payload) else .error .buildBadText
    | .defaultChunk => .ok (m, prog)
    | .screen => .ok (m, prog)
    | _ => .error .unsupportedChunk

/-- The builder's loop, in decode order, stopping at the first failing chunk (R138, R334). -/
def buildChunks (p : Params) (chunks : List Chunk) (m : Memory) (prog : List Byte) :
    Except ErrorName (Memory × List Byte) :=
  match chunks with
  | [] => .ok (m, prog)
  | ch :: rest =>
    match buildChunk p ch m prog with
    | .ok (m', prog') => buildChunks p rest m' prog'
    | .error e => .error e

/-- What a successful build gives (R138). -/
structure Image where
  mem : Memory
  prog : List Byte
  met : MetricTable
  deriving DecidableEq, Repr

/-- `for i in 0..2047: I[FONT_BASE + i] <- DEFAULT_FONT[i]` (R138, R145): the font region reads as it does unlisted,
which is DEFAULT_FONT. -/
def seedFont (m : Memory) : Memory := Memory.restore m fontBase (fontBase + fontSize)

/-- `BuildImage` (R138). The empty memory is the image of zeros with the font region already holding DEFAULT_FONT;
nothing reads that region before it is seeded (log 14). -/
def buildImage (p : Params) (chunks : List Chunk) : Except ErrorName Image :=
  match buildChunks p chunks [] [] with
  | .ok (m, prog) => .ok { mem := seedFont m, prog := prog, met := metrics p (seedFont m) }
  | .error e => .error e

/-- `CART[i]` (R33). -/
def cartByte (cart : Memory) (i : Nat) : Byte := Memory.read cartUnlisted cart i

/-- `CART[0..n-1]`. -/
def cartBytes (cart : Memory) (n : Nat) : List Byte := (List.range n).map (cartByte cart)

/-- Decode, then build (R146, R148). -/
def loadImage (p : Params) (bytes : List Byte) : Except ErrorName Image :=
  match decodeCart bytes with
  | .ok chunks => buildImage p chunks
  | .error e => .error e

/-- `A <- b.I; PROG <- b.prog; MET <- b.met` (R146). -/
def State.install (s : State) (img : Image) : State := { s with arena := img.mem, prog := img.prog, met := img.met }

/-- LOAD (R146, R147). -/
def execLoad (len : Nat) (s : State) : Result :=
  if len > s.cfg.cartSize then .next (s.raise .addrRange)
  else
    match loadImage s.cfg (cartBytes s.cart len) with
    | .ok img => .next (s.install img)
    | .error e => .next (s.raise e)

end Sys2Proof.Machine
end

