-- ==== Sys2Proof/Machine/Control.lean ====
section
/-! DEFINITION. The control, memory access and step commands (45_control.md R300 to R305). -/

namespace Sys2Proof.Machine

/-- NOP (R300). -/
def execNop (s : State) : Result := .next s

/-- MEMRD (R301). -/
def execMemrd (addr : Nat) (s : State) : Result :=
  if addr ≥ arenaSize then .next (s.raise .addrRange) else .next (s.setResult ((s.byte addr).setWidth 32))

/-- MEMWR (R302). -/
def execMemwr (addr : Nat) (data : Byte) (s : State) : Result :=
  if addr ≥ arenaSize then .next (s.raise .addrRange) else .next (s.setByte addr data)

/-- STEPBEGIN (R303). -/
def execStepbegin (s : State) : Result := .next (s.setInStep true)

/-- STEPEND (R304). -/
def execStepend (s : State) : Result := .next (s.setInStep false)

/-- CLRSTATUS (R305). -/
def execClrstatus (s : State) : Result := .next s.clearErr

end Sys2Proof.Machine
end

