-- ==== Sys2Proof/Machine/Palette.lean ====
section
/-! DEFINITION. The palette lookup command (44_palette.md R292). -/

namespace Sys2Proof.Machine

/-- RESULT of PALGET: red in [7:0], green in [15:8], blue in [23:16], 0 above (R292). -/
def paletteWord (rgb : Byte × Byte × Byte) : Word32 :=
  rgb.1.setWidth 32 ||| (rgb.2.1.setWidth 32 <<< 8) ||| (rgb.2.2.setWidth 32 <<< 16)

/-- PALGET (R292). -/
def execPalget (i : Nibble) (s : State) : Result :=
  .next (s.setResult (paletteWord (palGet s.cfg s.arena i)))

end Sys2Proof.Machine
end

