-- ==== Sys2Proof/Machine/Peripheral.lean ====
section
/-! DEFINITION. The gamepad latch and the mouse register (43_peripheral.md R262 to R271). -/

namespace Sys2Proof.Machine

/-- A latch byte with one button bit written: `(A[a] & ~(1 << b) & 0xFF) | (K << b)` (R262). -/
def latchSet (b : Byte) (bit : Nat) (pressed : Bool) : Byte :=
  (b &&& ~~~(1#8 <<< bit)) ||| ((BitVec.ofBool pressed).setWidth 8 <<< bit)

/-- BTNSET (R262). -/
def execBtnset (i : BitVec 5) (pressed : Bool) (s : State) : Result :=
  .next (s.setByte (buttonAddr i) (latchSet (s.byte (buttonAddr i)) (buttonBit i) pressed))

/-- BTNGET (R263). -/
def execBtnget (i : BitVec 5) (s : State) : Result :=
  .next (s.setResult (((s.byte (buttonAddr i) >>> buttonBit i) &&& 1).setWidth 32))

/-- The four stores of MOUSESET, in ascending address order (R267). -/
def mouseWrite (mx my : Byte) (mb : BitVec 3) (sx sy : Int) (s : State) : State :=
  let fx := pack6 (clampScroll sx)
  let fy := pack6 (clampScroll sy)
  (((s.setByte mouseBase mx).setByte (mouseBase + 1) my).setByte (mouseBase + 2) (mouseByte2 mb fx)).setByte
    (mouseBase + 3) (mouseByte3 fx fy)

/-- MOUSESET (R267). -/
def execMouseset (mx my : Byte) (mb : BitVec 3) (sx sy : Int) (s : State) : Result :=
  .next (mouseWrite mx my mb sx sy s)

/-- MOUSEPOS (R268). -/
def execMousepos (s : State) : Result :=
  .next (s.setResult ((s.byte mouseBase).setWidth 32 ||| ((s.byte (mouseBase + 1)).setWidth 32 <<< 8)))

/-- MOUSEBTN (R269). -/
def execMousebtn (s : State) : Result := .next (s.setResult ((s.byte (mouseBase + 2) &&& 0x07).setWidth 32))

/-- SCROLLX (R270). -/
def execScrollx (s : State) : Result :=
  .next (s.setResult
    ((unpack6 (scrollFieldX (s.byte (mouseBase + 2)) (s.byte (mouseBase + 3)))).signExtend 32))

/-- SCROLLY (R271). -/
def execScrolly (s : State) : Result :=
  .next (s.setResult ((unpack6 (scrollFieldY (s.byte (mouseBase + 3)))).signExtend 32))

end Sys2Proof.Machine
end

