-- ==== Sys2Proof/Machine/Pixel.lean ====
section
/-! DEFINITION. The PixelSurface commands (41_pixel.md R174 to R183). Each drawing loop is a function on the arena; the
command checks its surfaces and applies it. -/

namespace Sys2Proof.Machine

/-- SETSURF (R174): the depth is checked first, then the extent (R334). -/
def execSetsurf (a : SlotId) (base w h bpp : Nat) (s : State) : Result :=
  match depthOf bpp with
  | none => .next (s.raise .badSurface)
  | some d =>
    let S : Surface := ⟨base, w, h, d⟩
    if base + S.extent > arenaSize then .next (s.raise .badSurface) else .next (s.setSlot a S)

/-- PIXSET (R175). -/
def execPixset (a : SlotId) (x y : Int) (c : Nibble) (s : State) : Result :=
  s.onSurface a fun S => .next (s.setArena (setPix s.cfg S x y c s.arena))

/-- The pixel at integer coordinates, 0 off the surface (R176). -/
def pixelOrZero (p : Params) (m : Memory) (S : Surface) (x y : Int) : Nibble :=
  if h : S.Contains x y then getPix p m S ⟨x.toNat, by omega⟩ ⟨y.toNat, by omega⟩ else 0

/-- PIXGET (R176). -/
def execPixget (a : SlotId) (x y : Int) (s : State) : Result :=
  s.onSurface a fun S => .next (s.setResult ((pixelOrZero s.cfg s.arena S x y).setWidth 32))

/-- The loop of CLS (R177). -/
def clearSurface (p : Params) (S : Surface) (c : Nibble) (m : Memory) : Memory :=
  Nat.fold S.h (fun y _ m => Nat.fold S.w (fun x _ m => setPix p S x y c m) m) m

/-- CLS (R177). -/
def execCls (a : SlotId) (c : Nibble) (s : State) : Result :=
  s.onSurface a fun S => .next (s.setArena (clearSurface s.cfg S c s.arena))

/-- The loop of RECT (R178). -/
def fillRect (p : Params) (S : Surface) (x y : Int) (w h : Nat) (c : Nibble) (m : Memory) : Memory :=
  if w = 0 ∨ h = 0 then m
  else Nat.fold h (fun j _ m => Nat.fold w (fun i _ m => setPix p S (x + i) (y + j) c m) m) m

/-- RECT (R178). -/
def execRect (a : SlotId) (x y : Int) (w h : Nat) (c : Nibble) (s : State) : Result :=
  s.onSurface a fun S => .next (s.setArena (fillRect s.cfg S x y w h c s.arena))

/-- The first loop of RECTB: the top and the bottom edge (R179). -/
def outlineRows (p : Params) (S : Surface) (x y : Int) (w h : Nat) (c : Nibble) (m : Memory) : Memory :=
  Nat.fold w (fun i _ m => setPix p S (x + i) (y + h - 1) c (setPix p S (x + i) y c m)) m

/-- The second loop of RECTB: the left and the right edge (R179). -/
def outlineColumns (p : Params) (S : Surface) (x y : Int) (w h : Nat) (c : Nibble) (m : Memory) : Memory :=
  Nat.fold h (fun j _ m => setPix p S (x + w - 1) (y + j) c (setPix p S x (y + j) c m)) m

/-- The loops of RECTB (R179). -/
def outlineRect (p : Params) (S : Surface) (x y : Int) (w h : Nat) (c : Nibble) (m : Memory) : Memory :=
  if w = 0 ∨ h = 0 then m else outlineColumns p S x y w h c (outlineRows p S x y w h c m)

/-- RECTB (R179). -/
def execRectb (a : SlotId) (x y : Int) (w h : Nat) (c : Nibble) (s : State) : Result :=
  s.onSurface a fun S => .next (s.setArena (outlineRect s.cfg S x y w h c s.arena))

/-- The `s × s` block of destination pixels of one source pixel, row-major (R180). -/
def blitBlock (p : Params) (D : Surface) (x y : Int) (scale : Nat) (c : Nibble) (m : Memory) : Memory :=
  Nat.fold scale (fun dy _ m => Nat.fold scale (fun dx _ m => setPix p D (x + dx) (y + dy) c m) m) m

/-- A source coordinate, mirrored or not: `n - 1 - i` or `i` (R180). -/
def flipIndex {n : Nat} (flip : Bool) (i : Fin n) : Fin n := if flip then i.rev else i

/-- One iteration of BLIT's source loop: read the source pixel live (R181), skip it if it equals the key, else write
its block (R180). -/
def blitPixel (p : Params) (D S : Surface) (x y : Int) (scale : Nat) (k : Bool) (key : Nibble) (hf vf : Bool)
    (i : Fin S.w) (j : Fin S.h) (m : Memory) : Memory :=
  let c := getPix p m S (flipIndex hf i) (flipIndex vf j)
  if k = true ∧ c = key then m else blitBlock p D (x + i * scale) (y + j * scale) scale c m

/-- The loops of BLIT (R180). -/
def blitSurface (p : Params) (D S : Surface) (x y : Int) (scale : Nat) (k : Bool) (key : Nibble) (hf vf : Bool)
    (m : Memory) : Memory :=
  if scale = 0 then m
  else
    Nat.fold S.h (fun j hj m =>
      Nat.fold S.w (fun i hi m => blitPixel p D S x y scale k key hf vf ⟨i, hi⟩ ⟨j, hj⟩ m) m) m

/-- BLIT (R180, R181). -/
def execBlit (d src : SlotId) (x y : Int) (scale : Nat) (k : Bool) (key : Nibble) (hf vf : Bool) (s : State) :
    Result :=
  s.onSurface d fun D => s.onSurface src fun S =>
    .next (s.setArena (blitSurface s.cfg D S x y scale k key hf vf s.arena))

/-- The four bytes TORGBA appends for one pixel: red, green, blue, 255 (R183). -/
def rgbaPixel (p : Params) (m : Memory) (i : Nibble) : List Byte :=
  [(palGet p m i).1, (palGet p m i).2.1, (palGet p m i).2.2, 255]

/-- The loops of TORGBA (R183). -/
def rgbaSurface (p : Params) (m : Memory) (S : Surface) : List Byte :=
  (List.finRange S.h).flatMap fun y => (List.finRange S.w).flatMap fun x => rgbaPixel p m (getPix p m S x y)

/-- TORGBA (R183). -/
def execTorgba (a : SlotId) (s : State) : Result :=
  s.onSurface a fun S => .next (s.setRgba (rgbaSurface s.cfg s.arena S))

end Sys2Proof.Machine
end

