-- ==== Sys2Proof/Machine/Dispatch.lean ====
section
/-! DEFINITION. The meaning of each command, by its constructor. -/

namespace Sys2Proof.Machine

def exec (i : Instr) (s : State) : Host.Outcome State Fault Refusal :=
  match i with
  | .nop => Sys2Proof.Machine.execNop s
  | .setsurf a base w h bpp => Sys2Proof.Machine.execSetsurf a base w h bpp s
  | .tilesurf a id => Sys2Proof.Machine.execTilesurf a id s
  | .glyphsurf a v code => Sys2Proof.Machine.execGlyphsurf a v code s
  | .pixset a x y c => Sys2Proof.Machine.execPixset a x y c s
  | .pixget a x y => Sys2Proof.Machine.execPixget a x y s
  | .cls a c => Sys2Proof.Machine.execCls a c s
  | .rect a x y w h c => Sys2Proof.Machine.execRect a x y w h c s
  | .rectb a x y w h c => Sys2Proof.Machine.execRectb a x y w h c s
  | .blit d src x y scale k key hf vf => Sys2Proof.Machine.execBlit d src x y scale k key hf vf s
  | .torgba a => Sys2Proof.Machine.execTorgba a s
  | .mget x y => Sys2Proof.Machine.execMget x y s
  | .mset x y id => Sys2Proof.Machine.execMset x y id s
  | .palget c => Sys2Proof.Machine.execPalget c s
  | .glyphmet v code => Sys2Proof.Machine.execGlyphmet v code s
  | .recompute => Sys2Proof.Machine.execRecompute s
  | .btnset b pressed => Sys2Proof.Machine.execBtnset b pressed s
  | .btnget b => Sys2Proof.Machine.execBtnget b s
  | .mouseset mx my mb sx sy => Sys2Proof.Machine.execMouseset mx my mb sx sy s
  | .mousepos => Sys2Proof.Machine.execMousepos s
  | .mousebtn => Sys2Proof.Machine.execMousebtn s
  | .scrollx => Sys2Proof.Machine.execScrollx s
  | .scrolly => Sys2Proof.Machine.execScrolly s
  | .memrd addr => Sys2Proof.Machine.execMemrd addr s
  | .memwr addr data => Sys2Proof.Machine.execMemwr addr data s
  | .load len => Sys2Proof.Machine.execLoad len s
  | .stepbegin => Sys2Proof.Machine.execStepbegin s
  | .stepend => Sys2Proof.Machine.execStepend s
  | .clrstatus => Sys2Proof.Machine.execClrstatus s

end Sys2Proof.Machine
end

