-- ==== Sys2Proof/Machine/Step.lean ====
section
/-! DEFINITION. One step: the engine takes the next command from the port and executes it to completion
(10_state.md R20, R22; 20_memory.md R73). It has no duration (log 22). -/

namespace Sys2Proof.Machine

/-- One step of the engine (R94, R330). -/
def step (s : State) : Host.Outcome State Fault Refusal :=
  match decode s.fetchBytes with
  | .instr i => finishCommand (exec i s)
  | .illegalOpcode => rejectCommand .illegalOpcode s
  | .reservedField => rejectCommand .reservedField s
  | .incomplete => idle s

/-- The state with the command whose bits are `w` (bit 0 is the least significant bit of `b0`; every bit at or above
`nbits` is 0) at the port as the next command. Nothing else changes (log 3). -/
def State.withFetchWord (s : State) (nbits w : Nat) : State :=
  { s with commands := placeCommand s.commands s.index (bytesOfCommand (BitVec.ofNat 128 (w % 2 ^ nbits))) }

end Sys2Proof.Machine
end

