-- ==== Sys2Proof/Machine/Assembler.lean ====
section
/-! DEFINITION. The assembler syntax (30_encoding.md R103): one command a line, the mnemonic, then its operands
separated by commas. A line is a list of characters (log 20). -/

namespace Sys2Proof.Machine

/-- The value of a hexadecimal digit. -/
def digitValue (c : Char) : Option Nat :=
  let n := c.toNat
  if 48 ≤ n ∧ n ≤ 57 then some (n - 48)
  else if 65 ≤ n ∧ n ≤ 70 then some (n - 55)
  else if 97 ≤ n ∧ n ≤ 102 then some (n - 87)
  else none

/-- The digits of a number in a base, after the value read so far. -/
def parseDigits (base acc : Nat) (cs : List Char) : Option Nat :=
  match cs with
  | [] => some acc
  | c :: rest =>
    match digitValue c with
    | some d => if d < base then parseDigits base (base * acc + d) rest else none
    | none => none

/-- "Numbers are decimal, or hexadecimal with `0x`" (R103). -/
def parseNat (cs : List Char) : Option Nat :=
  match cs with
  | [] => none
  | '0' :: 'x' :: rest => if rest.isEmpty then none else parseDigits 16 0 rest
  | c :: rest => parseDigits 10 0 (c :: rest)

/-- A number with an optional minus sign. -/
def parseInt (cs : List Char) : Option Int :=
  match cs with
  | '-' :: rest => (parseNat rest).map fun n => -(n : Int)
  | _ => (parseNat cs).map fun n => (n : Int)

/-- A number that fits a field of `w` bits. -/
def parseBits (w : Nat) (cs : List Char) : Option (BitVec w) :=
  match parseNat cs with
  | some n => if n < 2 ^ w then some (BitVec.ofNat w n) else none
  | none => none

/-- `S<a>` is one of S0 to S3 (R103). -/
def parseSlot (cs : List Char) : Option SlotId :=
  match cs with
  | ['S', '0'] => some .s0
  | ['S', '1'] => some .s1
  | ['S', '2'] => some .s2
  | ['S', '3'] => some .s3
  | _ => none

/-- A variant is 0 or 1 (R103). -/
def parseVariant (cs : List Char) : Option Variant :=
  match parseNat cs with
  | some 0 => some .normal
  | some 1 => some .alternate
  | _ => none

/-- A button state is 0 or 1 (R103). -/
def parseState (cs : List Char) : Option Bool :=
  match parseNat cs with
  | some 0 => some false
  | some 1 => some true
  | _ => none

/-- The tail of BLIT's operands: `[, key=k] [, hflip] [, vflip]`, in this order (R103). -/
def parseBlitTail (ops : List (List Char)) : Option (Bool × Nibble × Bool × Bool) :=
  let keyed : Option ((Bool × Nibble) × List (List Char)) :=
    match ops with
    | ('k' :: 'e' :: 'y' :: '=' :: k) :: rest => (parseBits 4 k).map fun v => ((true, v), rest)
    | _ => some ((false, 0), ops)
  match keyed with
  | none => none
  | some ((k, key), rest) =>
    let hflip := rest.head? = some ['h', 'f', 'l', 'i', 'p']
    let rest' := if hflip then rest.tail else rest
    let vflip := rest'.head? = some ['v', 'f', 'l', 'i', 'p']
    let rest'' := if vflip then rest'.tail else rest'
    if rest''.isEmpty then some (k, key, hflip, vflip) else none

/-- A character that separates the mnemonic from its operands, or surrounds an operand. -/
def isBlank (c : Char) : Bool := c = ' ' ∨ c = '\t'

/-- Drop the blanks at both ends. -/
def trimBlanks (cs : List Char) : List Char := ((cs.dropWhile isBlank).reverse.dropWhile isBlank).reverse

/-- The operands between commas, each trimmed; `cur` is the operand being read, backwards. -/
def splitOperands (cur : List Char) (cs : List Char) : List (List Char) :=
  match cs with
  | [] => [trimBlanks cur.reverse]
  | c :: rest => if c = ',' then trimBlanks cur.reverse :: splitOperands [] rest else splitOperands (c :: cur) rest

/-- The mnemonics (R93). -/
def mnemonics : List (String × Opcode) :=
    [("NOP", .nop), ("SETSURF", .setsurf), ("TILESURF", .tilesurf), ("GLYPHSURF", .glyphsurf), ("PIXSET",
   .pixset), ("PIXGET", .pixget), ("CLS", .cls), ("RECT", .rect), ("RECTB", .rectb), ("BLIT", .blit), ("TORGBA",
   .torgba), ("MGET", .mget), ("MSET", .mset), ("PALGET", .palget), ("GLYPHMET", .glyphmet), ("RECOMPUTE",
   .recompute), ("BTNSET", .btnset), ("BTNGET", .btnget), ("MOUSESET", .mouseset), ("MOUSEPOS", .mousepos),
   ("MOUSEBTN", .mousebtn), ("SCROLLX", .scrollx), ("SCROLLY", .scrolly), ("MEMRD", .memrd), ("MEMWR", .memwr),
   ("LOAD", .load), ("STEPBEGIN", .stepbegin), ("STEPEND", .stepend), ("CLRSTATUS", .clrstatus)]

/-- The opcode that a mnemonic names. -/
def opcodeNamed (cs : List Char) : Option Opcode :=
  (mnemonics.find? fun e => e.1.toList = cs).map fun e => e.2

/-- The command of an opcode and its operands, before the operand ranges are checked (R103). -/
def assembleParts (o : Opcode) (ops : List (List Char)) : Option Instr :=
  match o, ops with
  | .nop, [] => some .nop
  | .setsurf, [a, base, w, h, bpp] => do
    some (.setsurf (← parseSlot a) (← parseNat base) (← parseNat w) (← parseNat h) (← parseNat bpp))
  | .tilesurf, [a, id] => do some (.tilesurf (← parseSlot a) (← parseNat id))
  | .glyphsurf, [a, v, code] => do
    some (.glyphsurf (← parseSlot a) (← parseVariant v) (← parseNat code))
  | .pixset, [a, x, y, c] => do
    some (.pixset (← parseSlot a) (← parseInt x) (← parseInt y) (← parseBits 4 c))
  | .pixget, [a, x, y] => do
    some (.pixget (← parseSlot a) (← parseInt x) (← parseInt y))
  | .cls, [a, c] => do some (.cls (← parseSlot a) (← parseBits 4 c))
  | .rect, [a, x, y, w, h, c] => do
    some (.rect (← parseSlot a) (← parseInt x) (← parseInt y) (← parseNat w) (← parseNat h) (← parseBits 4 c))
  | .rectb, [a, x, y, w, h, c] => do
    some (.rectb (← parseSlot a) (← parseInt x) (← parseInt y) (← parseNat w) (← parseNat h) (← parseBits 4 c))
  | .blit, d :: src :: x :: y :: scale :: tail => do
    let (k, key, hf, vf) ← parseBlitTail tail
    some (.blit (← parseSlot d) (← parseSlot src) (← parseInt x) (← parseInt y) (← parseNat scale) k key hf vf)
  | .torgba, [a] => do some (.torgba (← parseSlot a))
  | .mget, [x, y] => do some (.mget (← parseInt x) (← parseInt y))
  | .mset, [x, y, id] => do some (.mset (← parseInt x) (← parseInt y) (← parseBits 8 id))
  | .palget, [i] => do some (.palget (← parseBits 4 i))
  | .glyphmet, [v, code] => do
    some (.glyphmet (← parseVariant v) (← parseNat code))
  | .recompute, [] => some .recompute
  | .btnset, [i, pressed] => do some (.btnset (← parseBits 5 i) (← parseState pressed))
  | .btnget, [i] => do some (.btnget (← parseBits 5 i))
  | .mouseset, [mx, my, mb, sx, sy] => do
    some (.mouseset (← parseBits 8 mx) (← parseBits 8 my) (← parseBits 3 mb) (← parseInt sx) (← parseInt sy))
  | .mousepos, [] => some .mousepos
  | .mousebtn, [] => some .mousebtn
  | .scrollx, [] => some .scrollx
  | .scrolly, [] => some .scrolly
  | .memrd, [addr] => do some (.memrd (← parseNat addr))
  | .memwr, [addr, data] => do some (.memwr (← parseNat addr) (← parseBits 8 data))
  | .load, [len] => do some (.load (← parseNat len))
  | .stepbegin, [] => some .stepbegin
  | .stepend, [] => some .stepend
  | .clrstatus, [] => some .clrstatus
  | _, _ => none

/-- Assemble one line; an operand that does not fit its field is rejected (R103). -/
def assemble (line : List Char) : Option Instr :=
  let t := trimBlanks line
  let rest := trimBlanks (t.dropWhile fun c => !isBlank c)
  let ops := if rest.isEmpty then [] else splitOperands [] rest
  match opcodeNamed (t.takeWhile fun c => !isBlank c) with
  | some o =>
    match assembleParts o ops with
    | some i => if i.wellFormed then some i else none
    | none => none
  | none => none

end Sys2Proof.Machine
end

