-- ==== Sys2Proof/Machine/HostPort.lean ====
section
/-! DEFINITION. What the outside world does to the block, and what it may read (10_state.md R20, R33, R36;
20_memory.md R74). -/

namespace Sys2Proof.Machine

/-- The host writes bytes to the command port; they follow those already written (R36, R90). Scripting host and input
driver share the port, and their commands may interleave in any way (R20, R272). -/
def State.issue (s : State) (bytes : List Byte) : State := { s with commands := s.commands ++ bytes }

/-- The host writes one command to the port (R36). -/
def State.issueCommand (s : State) (i : Instr) : State := s.issue (encode i)

/-- The cells of a cartridge whose bytes stand at `a`, `a + 1`, … -/
def cartCells (a : Nat) (bytes : List Byte) : Memory :=
  match bytes with
  | [] => []
  | b :: rest => Memory.entry cartUnlisted a b ++ cartCells (a + 1) rest

/-- The cartridge source fills CART from its first byte (R33); CART has `CART_SIZE` bytes. A fill replaces the whole of
CART: past its end no byte of an earlier fill stays, and such a byte reads as one nothing has filled. DESIGN CHOICE,
unsafe: R33 and R362 are silent on a second, shorter fill (log 23). -/
def State.fillCart (s : State) (bytes : List Byte) : State :=
  { s with cart := cartCells 0 (bytes.take s.cfg.cartSize) }

/-- The reset sequence applied to a running block (R360): CART and the configuration stay (R33, R34). -/
def State.hardReset (s : State) : State := State.resetWith s.cfg s.cart

/-- An observer's read of an arena byte: possible only while IN_STEP = 0 (R36, R74), and only of an arena address
(log 15). -/
def State.observeByte (s : State) (a : Nat) : Option Byte :=
  if s.inStep = false ∧ a < arenaSize then some (s.byte a) else none

/-- The renderer's read of RGBA_OUT: possible only while IN_STEP = 0 (R31, R74; log 15). -/
def State.observeRgba (s : State) : Option (List Byte) := if s.inStep = false then some s.rgbaOut else none

end Sys2Proof.Machine
end

