-- ==== Sys2Proof/Machine/HostApi.lean ====
section
/-! DEFINITION. The host API calls as sequences of commands (30_encoding.md R104 to R111), and the
host's boot sequence (70_reset_and_hazards.md R362). They are expansions, not commands; all of them assume that SLOT[0]
holds the framebuffer view. DESIGN CHOICE: an argument that fits no field, and for which R104 to R111 give no conversion,
is passed on unchanged, as a command without an encoding (log 24). -/

namespace Sys2Proof.Machine

/-- A colour argument: `color mod 16` (R104, D42; log 21). -/
def hostColour (color : Int) : Nibble := BitVec.ofInt 4 color

/-- A rectangle size: a negative one is passed as 0 (R106, R107), one above 65535 as it is (log 24). -/
def hostSize (v : Int) : Nat := v.toNat

/-- `cls(color)` (R104). -/
def hostCls (color : Int) : List Instr := [.cls .s0 (hostColour color)]

/-- `pix(x, y, color?)`: a getter when `color` is omitted, a setter otherwise (R105). -/
def hostPix (x y : Int) (color : Option Int) : List Instr :=
  match color with
  | some c => [.pixset .s0 x y (hostColour c)]
  | none => [.pixget .s0 x y]

/-- `rect(x, y, w, h, color)` (R106). -/
def hostRect (x y w h color : Int) : List Instr := [.rect .s0 x y (hostSize w) (hostSize h) (hostColour color)]

/-- `rectb(x, y, w, h, color)` (R107). -/
def hostRectb (x y w h color : Int) : List Instr := [.rectb .s0 x y (hostSize w) (hostSize h) (hostColour color)]

/-- `mget(x, y)` (R108). -/
def hostMget (x y : Int) : List Instr := [.mget x y]

/-- `mset(x, y, id)`: the id is passed modulo 256 (R108). -/
def hostMset (x y id : Int) : List Instr := [.mset x y (BitVec.ofInt 8 id)]

/-- `btn(index)` (R109). -/
def hostBtn (index : BitVec 5) : List Instr := [.btnget index]

/-- What `btn(index)` returns: RESULT ≠ 0 after its command (R109). -/
def hostBtnResult (s : State) : Bool := s.result ≠ 0

/-- The input driver's `set(...)` (R110). -/
def hostMouseSet (x y : Byte) (buttons : BitVec 3) (scrollx scrolly : Int) : List Instr :=
  [.mouseset x y buttons scrollx scrolly]

/-- `pos()` (R110). -/
def hostMousePos : List Instr := [.mousepos]

/-- `buttons()` (R110). -/
def hostMouseButtons : List Instr := [.mousebtn]

/-- `scrollx()` (R110). -/
def hostScrollX : List Instr := [.scrollx]

/-- `scrolly()` (R110). -/
def hostScrollY : List Instr := [.scrolly]

/-- `spr(id, x, y, alphaKey?, scale?, flip?)` for a single tile with no rotation; an omitted scale is 1, an omitted key
or flip is absent (R111, D42). -/
def hostSpr (id : Nat) (x y : Int) (alphaKey : Option Nibble) (scale : Option Nat) (hflip vflip : Bool) : List Instr :=
  [.tilesurf .s3 id, .blit .s0 .s3 x y (scale.getD 1) alphaKey.isSome (alphaKey.getD 0) hflip vflip]

/-- The host's boot: LOAD of the `n` cartridge bytes it filled into CART (R362, steps 1 and 2). -/
def hostBoot (n : Nat) : List Instr := [.load n]

/-- One step as the host issues it: STEPBEGIN, the input driver's commands, the script's, `TORGBA S0`, STEPEND (R362,
step 4). -/
def hostStep (driver script : List Instr) : List Instr :=
  [.stepbegin] ++ driver ++ script ++ [.torgba .s0, .stepend]

end Sys2Proof.Machine
end

