-- ==== Sys2Proof/Safety.lean ====
section
/-! DEFINITION. What counts as a good state and a safe step of the block, in the terms the claims use. -/

namespace Sys2Proof.Machine

/-- Every slot is legal (R170) and holds a u16 width and height (R24). -/
structure Slots.Legal (t : Slots) : Prop where
  legal : ∀ k, (t.get k).Legal
  widths : ∀ k, (t.get k).w < 65536 ∧ (t.get k).h < 65536

/-- Every cached advance width and left padding is 0 to 8 (R29). -/
def MetricTable.Bounded (t : MetricTable) : Prop := ∀ v c, (metricAt t v c).adv ≤ 8 ∧ (metricAt t v c).lpad ≤ 8

/-- The invariant of the block: what the spec says of its state at all times. -/
structure State.Inv (s : State) : Prop where
  /-- The arena memory is in canonical form and lists arena addresses only (R23, R66). -/
  arena_wf : Memory.wf (arenaUnlisted s.cfg) s.arena
  arena_below : Memory.below arenaSize s.arena
  /-- Every slot holds a legal surface at all times (R170). -/
  slots : s.slots.Legal
  /-- ERR is one of the codes 0 to 7 (R332). -/
  err : s.err ≤ 7
  /-- R29. -/
  met : s.met.Bounded
  /-- PROG is valid UTF-8 (R30). -/
  prog : validUtf8 s.prog = true
  /-- RGBA_OUT is a sequence of whole RGBA values (R31). -/
  rgba : s.rgbaOut.length % 4 = 0
  /-- The cartridge memory is in canonical form and lists bytes of CART only (R33). -/
  cart_wf : Memory.wf cartUnlisted s.cart
  cart_below : Memory.below s.cfg.cartSize s.cart
  /-- The finished commands are among those issued (R22). -/
  index : 16 * s.index ≤ s.commands.length

/-- `c & ((1 << B) - 1)`: the value a lane of the depth keeps of a colour (R173, R184). -/
def Depth.stored (d : Depth) (c : Nibble) : Nibble := c &&& d.mask.setWidth 4

/-- The pixel of a surface in a state, 0 off the surface (R176). -/
def State.pixel (s : State) (S : Surface) (x y : Int) : Nibble := pixelOrZero s.cfg s.arena S x y

/-- Bit `k` of arena byte `a` (R9). -/
def State.bit (s : State) (a k : Nat) : Bool := (s.byte a).getLsbD k

/-- Bit `k` of arena byte `a` is a bit of the pixel (x, y) of the surface (R171). -/
def Surface.HoldsBit (S : Surface) (x y a k : Nat) : Prop :=
  a = pixByte S x y ∧ pixShift S x y ≤ k ∧ k < pixShift S x y + S.bpp.bits

/-- A command drew on surface `D` and did nothing else: where `new` names a colour the pixel holds it, masked to the
depth; every other pixel of `D`, every other bit of the arena and every other part of the state is as before. The
arena bytes stored to are those `pixByte` gives for the pixels drawn. -/
structure State.Draws (s t : State) (D : Surface) (new : Nat → Nat → Option Nibble) : Prop where
  rest : t = s.setArena t.arena
  drawn : ∀ x y c, x < D.w → y < D.h → new x y = some c → t.pixel D x y = D.bpp.stored c
  kept : ∀ x y, x < D.w → y < D.h → new x y = none → t.pixel D x y = s.pixel D x y
  bytes : ∀ a, (∀ x y, x < D.w → y < D.h → (new x y).isSome → a ≠ pixByte D x y) → t.byte a = s.byte a
  bits : ∀ a k, k < 8 → (∀ x y, x < D.w → y < D.h → (new x y).isSome → ¬D.HoldsBit x y a k) → t.bit a k = s.bit a k

/-- The byte ranges of two surfaces do not overlap (R182). -/
def Surface.Disjoint (S D : Surface) : Prop := S.base + S.extent ≤ D.base ∨ D.base + D.extent ≤ S.base

/-- ERR after the error of a given code is raised: the first error since the last clear is kept (R331). The statements
give the code as the numeral of R332's table. -/
def stickyErr (err code : Byte) : Byte := if err = 0 then code else err

/-- The commands that write a slot (R24). -/
def writesSlot (i : Instr) : Bool :=
  match i with
  | .setsurf .. | .tilesurf .. | .glyphsurf .. => true
  | _ => false

/-- The query commands, which write RESULT (R26). -/
def writesResult (i : Instr) : Bool :=
  match i with
  | .pixget .. | .mget .. | .palget .. | .glyphmet .. | .btnget .. | .mousepos | .mousebtn | .scrollx | .scrolly
  | .memrd .. => true
  | _ => false

/-- The commands that write the arena (R69). -/
def writesArena (i : Instr) : Bool :=
  match i with
  | .pixset .. | .cls .. | .rect .. | .rectb .. | .blit .. | .mset .. | .btnset .. | .mouseset .. | .memwr ..
  | .load .. => true
  | _ => false

/-- The commands that write IN_STEP (R28). -/
def writesInStep (i : Instr) : Bool :=
  match i with
  | .stepbegin | .stepend => true
  | _ => false

/-- The commands that write MET (R29). -/
def writesMet (i : Instr) : Bool :=
  match i with
  | .recompute | .load .. => true
  | _ => false

/-- The command that writes PROG (R30). -/
def writesProg (i : Instr) : Bool :=
  match i with
  | .load .. => true
  | _ => false

/-- The command that writes RGBA_OUT (R31). -/
def writesRgba (i : Instr) : Bool :=
  match i with
  | .torgba .. => true
  | _ => false

/-- The commands that write ERR: CLRSTATUS, and those whose rules raise an error (R305, R332). -/
def writesErr (i : Instr) : Bool :=
  match i with
  | .clrstatus | .setsurf .. | .memrd .. | .memwr .. | .load .. => true
  | _ => false

/-- The command is no BLIT with aliasing source and destination, the one write command that R70 does not call
idempotent. -/
def State.NonAliasing (s : State) (i : Instr) : Prop :=
  match i with
  | .blit d src .. => (s.slot src).Disjoint (s.slot d)
  | _ => True

/-- The commands of a list, one after the other, each finished before the next (R72, R73). -/
def runCommands (is : List Instr) (s : State) : Result :=
  match is with
  | [] => .next s
  | i :: rest =>
    match finishCommand (exec i s) with
    | .next t => runCommands rest t
    | .fault f => .fault f
    | .refused r => .refused r

/-- The source pixels of a surface, row-major: the loops over `j` and `i` of R180. -/
def sourcePixels (S : Surface) : List (Nat × Nat) :=
  (List.range S.h).flatMap fun j => (List.range S.w).map fun i => (i, j)

/-- The PIXSETs of one `scale × scale` block of destination pixels, row-major: the loops over `by` and `bx` of R180. -/
def blockPixsets (d : SlotId) (x y : Int) (scale : Nat) (c : Nibble) : List Instr :=
  (List.range scale).flatMap fun dy => (List.range scale).map fun dx => .pixset d (x + dx) (y + dy) c

/-- BLIT as the sequence of single-pixel commands that R180 and R181 give it: for each source pixel in turn a PIXGET of
it, as the arena then stands, and unless the value read is the key the PIXSETs of its block. -/
def blitByPixels (d src : SlotId) (x y : Int) (scale : Nat) (k : Bool) (key : Nibble) (hf vf : Bool)
    (pixels : List (Nat × Nat)) (s : State) : Result :=
  match pixels with
  | [] => .next s
  | (i, j) :: rest =>
    let rx : Int := if hf then (s.slot src).w - 1 - i else i
    let ry : Int := if vf then (s.slot src).h - 1 - j else j
    match exec (.pixget src rx ry) s with
    | .next u =>
      let c : Nibble := u.result.setWidth 4
      if k = true ∧ c = key then blitByPixels d src x y scale k key hf vf rest u
      else
        match runCommands (blockPixsets d (x + i * scale) (y + j * scale) scale c) u with
        | .next t => blitByPixels d src x y scale k key hf vf rest t
        | .fault f => .fault f
        | .refused r => .refused r
    | .fault f => .fault f
    | .refused r => .refused r

/-- The records of a chunk list with the given reserved bytes, one for each chunk (R98). -/
def encodeWith (chunks : List Chunk) (reserved : List Byte) : List Byte :=
  match chunks, reserved with
  | [], _ => []
  | _ :: _, [] => []
  | ch :: rest, r :: rs =>
    [ch.bank ++ ch.code, ch.size.extractLsb' 0 8, ch.size.extractLsb' 8 8, r] ++ ch.payload ++ encodeWith rest rs

/-- The destination table of R137: code, destination base and capacity of each copied chunk. -/
def destinationTable : List (Nat × Nat × Nat) :=
  [(1, 0x03FC0, 16384), (2, 0x03FC0, 16384), (4, 0x0CA38, 32640), (6, 0x0C838, 512), (9, 0x08920, 4224),
   (10, 0x08820, 256), (12, 0x07FC0, 48), (14, 0x0C6A0, 408), (15, 0x099A0, 11520)]

/-- What the chunks of a cartridge leave at an address of the image: the byte of the last chunk, in decode order, whose
copy by the table of R137 covers it (R139). -/
def lastCopied (chunks : List Chunk) (a : Nat) : Option Byte :=
  chunks.reverse.findSome? fun ch =>
    match destinationTable.find? fun row => row.1 = ch.code.toNat with
    | some (_, base, cap) => if base ≤ a ∧ a < base + min ch.size.toNat cap then ch.payload[a - base]? else none
    | none => none

/-- The program text the chunks of a cartridge leave: the payload of the last Code chunk, code 5, empty without one
(R141). -/
def lastCode (chunks : List Chunk) : List Byte :=
  ((chunks.reverse.find? fun ch => ch.code.toNat = 5).map Chunk.payload).getD []

/-- The codes without an entry in the dispatch table: Dummy, Binary, the reserved and the unassigned codes (R100,
R143). -/
def unsupportedCodes : List Nat :=
  [0, 3, 7, 8, 11, 13, 16, 19, 20, 21, 22, 23, 24, 25, 26, 27, 28, 29, 30, 31]

/-- The build error of one chunk, if it has one (R141, R143). -/
def chunkError (ch : Chunk) : Option ErrorName :=
  if ch.code.toNat ∈ unsupportedCodes then some .unsupportedChunk
  else if ch.code.toNat = 5 ∧ validUtf8 ch.payload = false then some .buildBadText
  else none

/-- A column of a glyph holds a set pixel: a bit of one of the glyph's 8 bytes (R223, R225). -/
def columnSet (p : Params) (m : Memory) (v : Variant) (c k : Nat) : Prop :=
  ∃ r < 8, (arenaGet p m (0x08020 + 1024 * v.code.toNat + 8 * c + r)).getLsbD k = true

/-- The opcode table: opcode number and mask of each row of spec/opcode_table.json; a row's match is its opcode number
(R93). -/
def opcodeRows : List (Nat × Command) :=
  [(0x00, 0xFFFFFFFFFFFFFFFFFFFFFFFFFFFFFFFF), (0x01, 0x0000000000000000FFFFFFFFFFFF0CFF),
   (0x02, 0x00000000FFFFFFFFFFFFFFFFFFFFFCFF), (0x03, 0x00000000FFFFFFFFFFFFFFFFFFFFECFF),
   (0x04, 0xFFFFFFFFFFFFFFFF00000000FFFF0CFF), (0x05, 0xFFFFFFFFFFFFFFFF00000000FFFFFCFF),
   (0x06, 0xFFFFFFFFFFFFFFFFFFFFFFFFFFFF0CFF), (0x07, 0xFFFFFFFF0000000000000000FFFF0CFF),
   (0x08, 0xFFFFFFFF0000000000000000FFFF0CFF), (0x09, 0xFFFFFF00FFFFFFFF00000000FF80F0FF),
   (0x0A, 0xFFFFFFFFFFFFFFFFFFFFFFFFFFFFFCFF), (0x0B, 0xFFFFFFFFFFFFFFFF00000000FFFFFFFF),
   (0x0C, 0xFFFFFF00FFFFFFFF00000000FFFFFFFF), (0x0D, 0xFFFFFFFFFFFFFFFFFFFFFFFFFFFF0FFF),
   (0x0E, 0x00000000FFFFFFFFFFFFFFFFFFFFEFFF), (0x0F, 0xFFFFFFFFFFFFFFFFFFFFFFFFFFFFFFFF),
   (0x10, 0xFFFFFFE0FFFFFFFFFFFFFFFFFFFEFFFF), (0x11, 0xFFFFFFE0FFFFFFFFFFFFFFFFFFFFFFFF),
   (0x12, 0xFFF80000FFFFFFFF00000000FFFFFFFF), (0x13, 0xFFFFFFFFFFFFFFFFFFFFFFFFFFFFFFFF),
   (0x14, 0xFFFFFFFFFFFFFFFFFFFFFFFFFFFFFFFF), (0x15, 0xFFFFFFFFFFFFFFFFFFFFFFFFFFFFFFFF),
   (0x16, 0xFFFFFFFFFFFFFFFFFFFFFFFFFFFFFFFF), (0x17, 0x00000000FFFFFFFFFFFFFFFFFFFFFFFF),
   (0x18, 0x00000000FFFFFF00FFFFFFFFFFFFFFFF), (0x19, 0x00000000FFFFFFFFFFFFFFFFFFFFFFFF),
   (0x1A, 0xFFFFFFFFFFFFFFFFFFFFFFFFFFFFFFFF), (0x1B, 0xFFFFFFFFFFFFFFFFFFFFFFFFFFFFFFFF),
   (0x1C, 0xFFFFFFFFFFFFFFFFFFFFFFFFFFFFFFFF)]

/-- A step is safe when the block does not stop: it answers a next state (R330: the block "never stops taking
commands"). -/
def State.StepSafe (s : State) : Prop := ∃ t, step s = .next t

end Sys2Proof.Machine
end

