-- ==== Sys2Proof/Certificates/Slice0/Obligations.lean ====
section
/-! DEFINITION. The statements for the provers. Each docstring names the rules of spec/ it rests on. -/

open Sys2Proof Sys2Proof.Machine

/-! ### Encoding -/

/-- R90 to R93: the decoder reads a well-formed command back from the 16 bytes that encode it. -/
def Obligations.DecodeOfEncodeIsTheCommand : Prop :=
  ∀ i : Instr, i.WellFormed → decode (encode i) = .instr i

/-- R90 to R94: a byte sequence that decodes to a command is the encoding of that command, and the command is well
formed: no bit is ignored. -/
def Obligations.EncodeOfDecodeIsTheBytes : Prop :=
  ∀ (bytes : List Byte) (i : Instr), decode bytes = .instr i → i.WellFormed ∧ encode i = bytes

/-- R93, R94, R95: a command of opcode 0x1D or above is ILLEGAL_OPCODE and no other is; one of an assigned opcode is a
command exactly when `(CMD & mask) = match` in its row of the opcode table, and RESERVED_FIELD otherwise. -/
def Obligations.OpcodeTableDecidesTheCommand : Prop :=
  ∀ cmd : Command,
    (decodeCommand cmd = .illegalOpcode ↔ 0x1D ≤ (cmd.extractLsb' 0 8).toNat) ∧
    ∀ op mask, (op, mask) ∈ opcodeRows → (cmd.extractLsb' 0 8).toNat = op →
      ((∃ i, decodeCommand cmd = .instr i) ↔ cmd &&& mask = BitVec.ofNat 128 op) ∧
      (decodeCommand cmd = .reservedField ↔ cmd &&& mask ≠ BitVec.ofNat 128 op)

/-- R90 to R93: four example encodings of 95_test_vectors.md, byte by byte. -/
def Obligations.SpecWordsDecode : Prop :=
  decode [0x09, 0x0C, 0x21, 0x00, 0x10, 0x00, 0x08, 0x00, 0x00, 0x00, 0x00, 0x00, 0x02, 0x00, 0x00, 0x00] =
    .instr (.blit .s0 .s3 16 8 2 true 0 true false) ∧
  decode [0x08, 0x90, 0x00, 0x00, 0x14, 0x00, 0x00, 0x00, 0x03, 0x00, 0x02, 0x00, 0x00, 0x00, 0x00, 0x00] =
    .instr (.rectb .s0 20 0 3 2 9) ∧
  decode [0x12, 0x00, 0x00, 0x00, 0xFF, 0xFF, 0x28, 0x00, 0x00, 0x00, 0x00, 0x00, 0x64, 0x32, 0x05, 0x00] =
    .instr (.mouseset 100 50 5 (-1) 40) ∧
  decode [0x19, 0x00, 0x00, 0x00, 0x00, 0x00, 0x00, 0x00, 0x00, 0x00, 0x00, 0x00, 0xAE, 0x10, 0x00, 0x00] =
    .instr (.load 4270)

/-! ### The step -/

/-- R22, R73, R94: when the bytes at the command port decode to a command, the step is that command's meaning, and a
next state has the index advanced by one. -/
def Obligations.StepRunsTheDecodedCommand : Prop :=
  ∀ (s : State) (i : Instr), decode s.fetchBytes = .instr i →
    step s = match exec i s with
      | .next u => .next { u with index := u.index + 1 }
      | .fault f => .fault f
      | .refused r => .refused r

/-- R20, R22, R72, R73: the commands the host writes to an idle port run in the order it wrote them, each finished
before the next. That several commands wait at the port is the model's choice (log 1). -/
def Obligations.IssuedCommandsRunInOrder : Prop :=
  ∀ (is : List Instr) (s : State), (∀ i ∈ is, i.WellFormed) → s.commands.length = 16 * s.index →
    Sys2Proof.core.run is.length (s.issue (is.flatMap encode)) = runCommands is (s.issue (is.flatMap encode))

/-- R94, R331: a command word that does not decode records its error and changes nothing else of the block. That the
index advances past it is the model's reading of R22 (log 19). -/
def Obligations.MalformedCommandOnlyRecordsItsError : Prop :=
  ∀ s : State,
    (decode s.fetchBytes = .illegalOpcode →
      step s = .next { s with err := if s.err = 0 then 1 else s.err, index := s.index + 1 }) ∧
    (decode s.fetchBytes = .reservedField →
      step s = .next { s with err := if s.err = 0 then 2 else s.err, index := s.index + 1 })

/-- The model's choice (log 2, from R340 "Between commands it is idle, and all state is kept"): with fewer than 16
bytes at the port a step keeps the whole state. -/
def Obligations.IdleStepKeepsTheState : Prop :=
  ∀ s : State, s.fetchBytes.length < 16 → step s = .next s

/-! ### Invariants and whole-machine rules -/

/-- R23, R24, R29, R30, R31, R33, R170, R332: every step keeps the invariant of the block. -/
def Obligations.StepKeepsTheInvariant : Prop :=
  ∀ s t : State, s.Inv → step s = .next t → t.Inv

/-- R35, R360: the invariant holds after reset, for every configuration and every cartridge in canonical form. -/
def Obligations.ResetHasTheInvariant : Prop :=
  State.reset.Inv ∧
  ∀ (p : Params) (cart : Memory), Memory.wf cartUnlisted cart → Memory.below p.cartSize cart →
    (State.resetWith p cart).Inv

/-- R330: from a state with the invariant every step answers a next state: the block never stops taking commands. -/
def Obligations.BlockNeverStops : Prop := ∀ s : State, s.Inv → s.StepSafe

/-- R331: a command that records an error has no other effect. -/
def Obligations.ErrorsArePrecise : Prop :=
  ∀ (i : Instr) (s t : State), exec i s = .next t → s.err = 0 → t.err ≠ 0 → t = { s with err := t.err }

/-- R331, R337: an error recorded is kept by every command but CLRSTATUS. -/
def Obligations.FirstErrorIsKept : Prop :=
  ∀ (i : Instr) (s t : State), i ≠ .clrstatus → exec i s = .next t → s.err ≠ 0 → t.err = s.err

/-- R24, R26, R28 to R31, R33, R34, R69, R305: each piece of state is written only by the commands the spec names for
it, and the configuration, CART and the command sequence by none. That the meaning of a command leaves the index, which
R22 says every command advances by one, to the step is the model's choice (log 19). -/
def Obligations.OnlyNamedCommandsWriteEachRegister : Prop :=
  ∀ (i : Instr) (s t : State), exec i s = .next t →
    t.cfg = s.cfg ∧ t.cart = s.cart ∧ t.commands = s.commands ∧ t.index = s.index ∧
    (writesSlot i = false → t.slots = s.slots) ∧
    (writesResult i = false → t.result = s.result) ∧
    (writesArena i = false → t.arena = s.arena) ∧
    (writesInStep i = false → t.inStep = s.inStep) ∧
    (writesMet i = false → t.met = s.met) ∧
    (writesProg i = false → t.prog = s.prog) ∧
    (writesRgba i = false → t.rgbaOut = s.rgbaOut) ∧
    (writesErr i = false → t.err = s.err)

/-- R70: repeating a command that is not a BLIT with aliasing source and destination changes no arena byte and no other
part of the state. -/
def Obligations.RepeatingACommandChangesNothing : Prop :=
  ∀ (i : Instr) (s t : State), s.NonAliasing i → exec i s = .next t →
    ∃ u, exec i t = .next u ∧ u = t.setArena u.arena ∧ ∀ a, u.byte a = t.byte a

/-- The model's choice (log 18), from no rule of the spec: memory is a list in canonical form, and two memories in
canonical form that read alike are the same list. -/
def Obligations.EqualMemoriesAreEqualData : Prop :=
  ∀ (u : Nat → Byte) (m n : Memory), Memory.wf u m → Memory.wf u n →
    (∀ a, Memory.read u m a = Memory.read u n a) → m = n

/-- R62: the regions do not overlap, cover the arena with no gaps, and begin with the framebuffer at the arena base. -/
def Obligations.RegionsCoverTheArena : Prop :=
  (regions.Pairwise fun r q => r.base + r.size ≤ q.base) ∧
  (∀ a < 84416, ∃ r ∈ regions, r.base ≤ a ∧ a < r.base + r.size) ∧
  (∀ r ∈ regions, r.base + r.size ≤ 84416) ∧ fbBase = 0

/-- R33, R34, R35, R360: what reset leaves, for every configuration and cartridge. Reset changes neither. The command
sequence starting anew is the model's choice (log 1). -/
def Obligations.ResetLeavesTheStatedValues : Prop :=
  ∀ s : State,
    let r := s.hardReset
    (∀ (c : Nat) (h : c < 2048), r.byte (0x08020 + c) = s.cfg.font[c]) ∧
    (∀ a, ¬(0x08020 ≤ a ∧ a < 0x08020 + 2048) → r.byte a = 0) ∧
    r.slot .s0 = ⟨0, 240, 136, .bpp4⟩ ∧ r.slot .s1 = ⟨0, 0, 0, .bpp4⟩ ∧ r.slot .s2 = ⟨0, 0, 0, .bpp4⟩ ∧
    r.slot .s3 = ⟨0, 0, 0, .bpp4⟩ ∧
    r.result = 0 ∧ r.status = 0 ∧ r.err = 0 ∧ r.inStep = false ∧
    (∀ v c, metricAt r.met v c = glyphMetrics s.cfg r.arena v c) ∧
    r.prog = [] ∧ r.rgbaOut = [] ∧ r.cfg = s.cfg ∧ r.cart = s.cart ∧ r.commands = [] ∧ r.index = 0

/-- R36, R74: an observer has no read while IN_STEP = 1, and reads the arena and RGBA_OUT as they stand while it is
0. -/
def Obligations.ObserversReadOnlyBetweenSteps : Prop :=
  ∀ (s : State) (a : Nat),
    (s.inStep = true → s.observeByte a = none ∧ s.observeRgba = none) ∧
    (s.inStep = false → a < 84416 → s.observeByte a = some (s.byte a)) ∧
    (s.inStep = false → s.observeRgba = some s.rgbaOut)

/-! ### Control, memory access and step commands -/

/-- R300: the all-zero word is NOP, a NOP word with any other bit set is RESERVED_FIELD, and NOP does nothing. -/
def Obligations.NopDoesNothing : Prop :=
  decode (List.replicate 16 0) = .instr .nop ∧
  (∀ cmd : Command, cmd.extractLsb' 0 8 = 0 → cmd ≠ 0 → decodeCommand cmd = .reservedField) ∧
  ∀ s : State, exec .nop s = .next s

/-- R27, R303, R304: STEPBEGIN and STEPEND set and clear IN_STEP and its mirror STATUS[8], and change nothing else:
STATUS[7:0] is still ERR, and STATUS[31:9] reads 0. -/
def Obligations.StepCommandsSetTheirFlag : Prop :=
  ∀ s : State,
    (∃ t, exec .stepbegin s = .next t ∧ t = { s with inStep := true } ∧ t.status.toNat = 256 + s.err.toNat) ∧
    (∃ t, exec .stepend s = .next t ∧ t = { s with inStep := false } ∧ t.status.toNat = s.err.toNat)

/-- R305: CLRSTATUS clears STATUS.ERR and changes nothing else. -/
def Obligations.ClrstatusClearsTheError : Prop :=
  ∀ s : State, ∃ t, exec .clrstatus s = .next t ∧ t = { s with err := 0 } ∧
    t.status = if s.inStep then 256 else 0

/-- R301, R331, R332: MEMRD reads an arena byte into RESULT, or raises ADDR_RANGE, code 4; nothing else changes. -/
def Obligations.MemrdReadsOneByte : Prop :=
  ∀ (addr : Nat) (s : State), exec (.memrd addr) s = .next
    (if addr < 84416 then { s with result := BitVec.ofNat 32 (s.byte addr).toNat }
     else { s with err := stickyErr s.err 4 })

/-- R302, R331, R332: MEMWR writes one arena byte and leaves every other, or raises ADDR_RANGE, code 4; nothing else
changes. -/
def Obligations.MemwrWritesOneByte : Prop :=
  ∀ (addr : Nat) (data : Byte) (s : State), ∃ t, exec (.memwr addr data) s = .next t ∧
    (addr < 84416 → t = s.setArena t.arena ∧ ∀ a, t.byte a = if a = addr then data else s.byte a) ∧
    (84416 ≤ addr → t = { s with err := stickyErr s.err 4 })

/-! ### PixelSurface commands -/

/-- R170, R174, R331, R332: SETSURF loads all four fields of its slot and no other slot, when the depth is 1 or 4 and the
extent fits the arena; otherwise it raises BAD_SURFACE, code 3. Nothing else changes. -/
def Obligations.SetsurfLoadsALegalSurface : Prop :=
  ∀ (a : SlotId) (base w h bpp : Nat) (s : State), ∃ t, exec (.setsurf a base w h bpp) s = .next t ∧
    (((bpp = 1 ∨ bpp = 4) ∧ base + (w * h * bpp + 7) / 8 ≤ 84416) →
      t = { s with slots := t.slots } ∧ (t.slot a).base = base ∧ (t.slot a).w = w ∧ (t.slot a).h = h ∧
      (t.slot a).bpp.bits = bpp ∧ (t.slot a).Legal ∧ ∀ b, b ≠ a → t.slot b = s.slot b) ∧
    (¬((bpp = 1 ∨ bpp = 4) ∧ base + (w * h * bpp + 7) / 8 ≤ 84416) →
      t = { s with err := stickyErr s.err 3 })

/-- R173, R175: PIXSET on a legal slot draws the one pixel, where it lies on the surface. -/
def Obligations.PixsetDrawsOnePixel : Prop :=
  ∀ (a : SlotId) (x y : Int) (c : Nibble) (s : State), (s.slot a).Legal →
    ∃ t, exec (.pixset a x y c) s = .next t ∧
      s.Draws t (s.slot a) fun px py => if (px : Int) = x ∧ (py : Int) = y then some c else none

/-- R65, R171, R172, R176: PIXGET on a legal slot reads the pixel's lane into RESULT, 0 off the surface, and changes
nothing else. -/
def Obligations.PixgetReadsOnePixel : Prop :=
  ∀ (a : SlotId) (x y : Int) (s : State), (s.slot a).Legal →
    ∃ t, exec (.pixget a x y) s = .next t ∧ t = s.setResult t.result ∧
      let S := s.slot a
      let offset := (x.toNat + y.toNat * S.w) * S.bpp.bits
      (S.Contains x y →
        t.result.toNat = (s.byte (S.base + offset / 8)).toNat / 2 ^ (offset % 8) % 2 ^ S.bpp.bits) ∧
      (¬S.Contains x y → t.result = 0)

/-- R177: CLS on a legal slot draws every pixel of the surface, and keeps the unused high bits of its last byte. -/
def Obligations.ClsDrawsEveryPixel : Prop :=
  ∀ (a : SlotId) (c : Nibble) (s : State), (s.slot a).Legal →
    ∃ t, exec (.cls a c) s = .next t ∧ s.Draws t (s.slot a) fun _ _ => some c

/-- R178: RECT on a legal slot draws the pixels of its box that lie on the surface; a box of width or height 0 has
none. -/
def Obligations.RectDrawsItsBox : Prop :=
  ∀ (a : SlotId) (x y : Int) (w h : Nat) (c : Nibble) (s : State), (s.slot a).Legal →
    ∃ t, exec (.rect a x y w h c) s = .next t ∧
      s.Draws t (s.slot a) fun px py =>
        if x ≤ px ∧ px < x + w ∧ y ≤ py ∧ py < y + h then some c else none

/-- R179: RECTB on a legal slot draws the one-pixel border of its box, where it lies on the surface. -/
def Obligations.RectbDrawsTheBorder : Prop :=
  ∀ (a : SlotId) (x y : Int) (w h : Nat) (c : Nibble) (s : State), (s.slot a).Legal →
    ∃ t, exec (.rectb a x y w h c) s = .next t ∧
      s.Draws t (s.slot a) fun px py =>
        if (x ≤ px ∧ px < x + w ∧ y ≤ py ∧ py < y + h) ∧
            ((px : Int) = x ∨ (px : Int) = x + w - 1 ∨ (py : Int) = y ∨ (py : Int) = y + h - 1) then some c
        else none

/-- R180, R182: BLIT between legal slots that do not overlap draws, in each block of `scale × scale` pixels, the source
pixel of that block, mirrored as the flips say, unless it equals the key. Overlapping surfaces and a scale of 0 are in
`BlitRunsItsPixelSequence`. -/
def Obligations.BlitCopiesBetweenDisjointSurfaces : Prop :=
  ∀ (d src : SlotId) (x y : Int) (scale : Nat) (k : Bool) (key : Nibble) (hf vf : Bool) (s : State),
    (s.slot d).Legal → (s.slot src).Legal → (s.slot src).Disjoint (s.slot d) → 1 ≤ scale →
    ∃ t, exec (.blit d src x y scale k key hf vf) s = .next t ∧
      s.Draws t (s.slot d) fun px py =>
        let S := s.slot src
        if x ≤ px ∧ px < x + S.w * scale ∧ y ≤ py ∧ py < y + S.h * scale then
          let i := ((px : Int) - x) / scale
          let j := ((py : Int) - y) / scale
          let c := s.pixel S (if hf then S.w - 1 - i else i) (if vf then S.h - 1 - j else j)
          if k = true ∧ c = key then none else some c
        else none

/-- R180, R181: BLIT between any legal slots, overlapping or the same, completes and leaves the arena that its sequence
of single-pixel reads and writes leaves, each source pixel read as the arena then stands. It writes no bit outside the
destination pixels its blocks cover, and nothing but the arena; a scale of 0 does nothing. -/
def Obligations.BlitRunsItsPixelSequence : Prop :=
  ∀ (d src : SlotId) (x y : Int) (scale : Nat) (k : Bool) (key : Nibble) (hf vf : Bool) (s : State),
    (s.slot d).Legal → (s.slot src).Legal →
    ∃ t u, exec (.blit d src x y scale k key hf vf) s = .next t ∧ t = s.setArena t.arena ∧
      blitByPixels d src x y scale k key hf vf (sourcePixels (s.slot src)) s = .next u ∧ t.arena = u.arena ∧
      (scale = 0 → t = s) ∧
      ∀ a b, b < 8 →
        (∀ px py : Nat, px < (s.slot d).w → py < (s.slot d).h →
          x ≤ px ∧ px < x + (s.slot src).w * scale ∧ y ≤ py ∧ py < y + (s.slot src).h * scale →
          ¬(s.slot d).HoldsBit px py a b) →
        t.bit a b = s.bit a b

/-- R31, R183, R292: TORGBA on a legal slot replaces RGBA_OUT by four bytes for each pixel, row-major: the pixel's
palette entry and 255. Nothing else changes. -/
def Obligations.TorgbaResolvesEveryPixel : Prop :=
  ∀ (a : SlotId) (s : State), (s.slot a).Legal →
    ∃ t, exec (.torgba a) s = .next t ∧ t = s.setRgba t.rgbaOut ∧
      t.rgbaOut.length = 4 * (s.slot a).w * (s.slot a).h ∧
      ∀ x y, x < (s.slot a).w → y < (s.slot a).h →
        let at0 := 4 * (x + y * (s.slot a).w)
        let entry := 0x07FC0 + 3 * (s.pixel (s.slot a) x y).toNat
        t.rgbaOut[at0]? = some (s.byte entry) ∧ t.rgbaOut[at0 + 1]? = some (s.byte (entry + 1)) ∧
        t.rgbaOut[at0 + 2]? = some (s.byte (entry + 2)) ∧ t.rgbaOut[at0 + 3]? = some 255

/-- The model's choice (log 8, from R66 and R170): a command on a slot that lies outside the arena, which no run from
reset holds, ends in the fault `illegalSlot`. -/
def Obligations.IllegalSlotFaults : Prop :=
  ∀ (a b : SlotId) (x y : Int) (w h scale : Nat) (c : Nibble) (k hf vf : Bool) (s : State), ¬(s.slot a).Legal →
    exec (.pixset a x y c) s = .fault .illegalSlot ∧ exec (.pixget a x y) s = .fault .illegalSlot ∧
    exec (.cls a c) s = .fault .illegalSlot ∧ exec (.rect a x y w h c) s = .fault .illegalSlot ∧
    exec (.rectb a x y w h c) s = .fault .illegalSlot ∧ exec (.torgba a) s = .fault .illegalSlot ∧
    exec (.blit a b x y scale k c hf vf) s = .fault .illegalSlot ∧
    exec (.blit b a x y scale k c hf vf) s = .fault .illegalSlot

/-! ### Atlas, metrics and map -/

/-- R220, R221, R222: TILESURF loads the view of tile `id`, or the empty view, and changes nothing else. -/
def Obligations.TilesurfLoadsTheTileView : Prop :=
  ∀ (a : SlotId) (id : Nat) (s : State), ∃ t, exec (.tilesurf a id) s = .next t ∧ t = { s with slots := t.slots } ∧
    t.slot a = (if id < 512 then ⟨0x03FC0 + 32 * id, 8, 8, .bpp4⟩ else ⟨0, 0, 0, .bpp4⟩) ∧ (t.slot a).Legal ∧
    ∀ b, b ≠ a → t.slot b = s.slot b

/-- R221, R223, R224: GLYPHSURF loads the view of a glyph, or the empty view, and changes nothing else. -/
def Obligations.GlyphsurfLoadsTheGlyphView : Prop :=
  ∀ (a : SlotId) (v : Variant) (code : Nat) (s : State), ∃ t, exec (.glyphsurf a v code) s = .next t ∧
    t = { s with slots := t.slots } ∧
    t.slot a = (if code < 128 then ⟨0x08020 + 1024 * v.code.toNat + 8 * code, 8, 8, .bpp1⟩ else ⟨0, 0, 0, .bpp1⟩) ∧
    (t.slot a).Legal ∧ ∀ b, b ≠ a → t.slot b = s.slot b

/-- R225, R226, R227: RECOMPUTE stores in every entry of MET the metrics of its glyph as the font stands, and changes
nothing else. -/
def Obligations.RecomputeRefreshesTheCache : Prop :=
  ∀ s : State, ∃ t, exec .recompute s = .next t ∧ t = s.setMet t.met ∧
    ∀ v c, metricAt t.met v c = glyphMetrics s.cfg s.arena v c

/-- R225: the metrics of a glyph. The space has its fixed width; a blank glyph has padding 8 and width 0; any other has
the first set column as padding and the distance to the last as width. -/
def Obligations.GlyphMetricsMeasureTheColumns : Prop :=
  ∀ (p : Params) (m : Memory) (v : Variant) (c : Nat),
    (c = 32 →
      (glyphMetrics p m v c).adv.toNat = (if v = .normal then p.spaceNormal else p.spaceAlternate : Fin 9).val ∧
      (glyphMetrics p m v c).lpad = 0) ∧
    (c ≠ 32 → (∀ k < 8, ¬columnSet p m v c k) →
      (glyphMetrics p m v c).adv = 0 ∧ (glyphMetrics p m v c).lpad = 8) ∧
    ∀ l h, c ≠ 32 → l < 8 → h < 8 → columnSet p m v c l → columnSet p m v c h →
      (∀ k < 8, columnSet p m v c k → l ≤ k ∧ k ≤ h) →
      (glyphMetrics p m v c).lpad.toNat = l ∧ (glyphMetrics p m v c).adv.toNat = h - l + 1

/-- R226, R227: the cache depends on the font bytes and the space widths alone. -/
def Obligations.MetricsReadOnlyTheFont : Prop :=
  ∀ (p q : Params) (m n : Memory),
    (∀ a, 0x08020 ≤ a → a < 0x08020 + 2048 → arenaGet p m a = arenaGet q n a) →
    p.spaceNormal = q.spaceNormal → p.spaceAlternate = q.spaceAlternate → metrics p m = metrics q n

/-- R228: GLYPHMET puts the cached entry in RESULT with the valid bit, 0 for a code point of 128 or more, and changes
nothing else. -/
def Obligations.GlyphmetReadsTheCache : Prop :=
  ∀ (v : Variant) (code : Nat) (s : State), ∃ t, exec (.glyphmet v code) s = .next t ∧ t = s.setResult t.result ∧
    (∀ h : code < 128, t.result.toNat =
      2147483648 + 256 * (metricAt s.met v ⟨code, h⟩).lpad.toNat + (metricAt s.met v ⟨code, h⟩).adv.toNat) ∧
    (128 ≤ code → t.result = 0)

/-- R229: no sequence of commands without RECOMPUTE and LOAD changes MET. Where MET was computed from the font of an
image `m`, a GLYPHMET after such a sequence returns the metrics of the font as it stood in `m`. -/
def Obligations.MetricsStayStale : Prop :=
  ∀ (is : List Instr) (s t : State), (∀ i ∈ is, writesMet i = false) → runCommands is s = .next t →
    t.met = s.met ∧
    ∀ (p : Params) (m : Memory), s.met = metrics p m → ∀ (v : Variant) (c : Nat), c < 128 →
      exec (.glyphmet v c) t = .next (t.setResult (metricWord (glyphMetrics p m v c)))

/-- R230, R231: MGET puts the map cell in RESULT, 0 outside the map, and changes nothing else. -/
def Obligations.MgetReadsTheCell : Prop :=
  ∀ (x y : Int) (s : State), ∃ t, exec (.mget x y) s = .next t ∧ t = s.setResult t.result ∧
    ((0 ≤ x ∧ x < 240 ∧ 0 ≤ y ∧ y < 136) → t.result.toNat = (s.byte (0x0CA38 + 240 * y.toNat + x.toNat)).toNat) ∧
    (¬(0 ≤ x ∧ x < 240 ∧ 0 ≤ y ∧ y < 136) → t.result = 0)

/-- R230, R232: MSET writes the byte of its map cell and no other; outside the map it does nothing. -/
def Obligations.MsetWritesTheCell : Prop :=
  ∀ (x y : Int) (id : Byte) (s : State), ∃ t, exec (.mset x y id) s = .next t ∧ t = s.setArena t.arena ∧
    ((0 ≤ x ∧ x < 240 ∧ 0 ≤ y ∧ y < 136) →
      ∀ a, t.byte a = if a = 0x0CA38 + 240 * y.toNat + x.toNat then id else s.byte a) ∧
    (¬(0 ≤ x ∧ x < 240 ∧ 0 ≤ y ∧ y < 136) → t = s)

/-! ### Peripheral registers and palette -/

/-- R260, R261, R262: BTNSET sets its one button bit to the given state: every other bit of the latch and every other
byte is kept, and nothing but the arena changes. -/
def Obligations.BtnsetSetsOneButton : Prop :=
  ∀ (i : BitVec 5) (pressed : Bool) (s : State), ∃ t, exec (.btnset i pressed) s = .next t ∧
    t = s.setArena t.arena ∧
    (∀ p b, p < 4 → b < 8 →
      t.bit (0x149B8 + p) b = if 8 * p + b = i.toNat then pressed else s.bit (0x149B8 + p) b) ∧
    ∀ a, a ≠ 0x149B8 + i.toNat / 8 → t.byte a = s.byte a

/-- R260, R261, R263: BTNGET puts its button's bit in RESULT and changes nothing else. -/
def Obligations.BtngetReadsOneButton : Prop :=
  ∀ (i : BitVec 5) (s : State),
    exec (.btnget i) s = .next (s.setResult (if s.bit (0x149B8 + i.toNat / 8) (i.toNat % 8) then 1 else 0))

/-- R264, R265, R267: MOUSESET writes the four mouse bytes, with the scroll deltas clamped to -32..31, leaves every
other byte, and changes nothing but the arena. -/
def Obligations.MousesetWritesTheRegister : Prop :=
  ∀ (mx my : Byte) (mb : BitVec 3) (sx sy : Int) (s : State),
    let fx := (min (max sx (-32)) 31 % 64).toNat
    let fy := (min (max sy (-32)) 31 % 64).toNat
    ∃ t, exec (.mouseset mx my mb sx sy) s = .next t ∧ t = s.setArena t.arena ∧
      t.byte 0x149BC = mx ∧ t.byte (0x149BC + 1) = my ∧
      (t.byte (0x149BC + 2)).toNat = mb.toNat + 8 * (fx % 32) ∧
      (t.byte (0x149BC + 3)).toNat = fx / 32 + 2 * fy ∧
      ∀ a, ¬(0x149BC ≤ a ∧ a < 0x149BC + 4) → t.byte a = s.byte a

/-- R264, R268 to R271: the four mouse reads put their fields of the register in RESULT, the deltas sign-extended, and
change nothing else. -/
def Obligations.MouseReadsGiveTheFields : Prop :=
  ∀ s : State,
    let b := fun k => (s.byte (0x149BC + k)).toNat
    let signed := fun f : Nat => if f < 32 then (f : Int) else f - 64
    (∃ t, exec .mousepos s = .next t ∧ t = s.setResult t.result ∧ t.result.toNat = b 0 + 256 * b 1) ∧
    (∃ t, exec .mousebtn s = .next t ∧ t = s.setResult t.result ∧ t.result.toNat = b 2 % 8) ∧
    (∃ t, exec .scrollx s = .next t ∧ t = s.setResult t.result ∧
      t.result.toInt = signed (b 2 / 8 + 32 * (b 3 % 2))) ∧
    (∃ t, exec .scrolly s = .next t ∧ t = s.setResult t.result ∧ t.result.toInt = signed (b 3 / 2 % 64))

/-- R265, R267, R270, R271: after a MOUSESET, SCROLLX and SCROLLY give the clamped deltas, MOUSEPOS the position and
MOUSEBTN the buttons. -/
def Obligations.MouseRegisterRoundTrips : Prop :=
  ∀ (mx my : Byte) (mb : BitVec 3) (sx sy : Int) (s t : State), exec (.mouseset mx my mb sx sy) s = .next t →
    (∃ u, exec .mousepos t = .next u ∧ u.result.toNat = mx.toNat + 256 * my.toNat) ∧
    (∃ u, exec .mousebtn t = .next u ∧ u.result.toNat = mb.toNat) ∧
    (∃ u, exec .scrollx t = .next u ∧ u.result.toInt = min (max sx (-32)) 31) ∧
    (∃ u, exec .scrolly t = .next u ∧ u.result.toInt = min (max sy (-32)) 31)

/-- R265, R266: Unpack6 shifts its 6-bit field into the top of a byte and back arithmetically, which is its sign
extension, and undoes Pack6 for every value from -32 to 31; Pack6 is the value modulo 64. -/
def Obligations.ScrollPackingRoundTrips : Prop :=
  (∀ f : BitVec 6, unpack6 f = (f.setWidth 8 <<< 2).sshiftRight 2 ∧ (unpack6 f).toInt = f.toInt) ∧
  (∀ v : Int, ((pack6 v).toNat : Int) = v % 64) ∧
  ∀ v : Int, -32 ≤ v → v ≤ 31 → (unpack6 (pack6 v)).toInt = v

/-- R290, R292: PALGET puts red, green and blue of its entry in RESULT, 0 above them, and changes nothing else. -/
def Obligations.PalgetReadsTheEntry : Prop :=
  ∀ (i : Nibble) (s : State), ∃ t, exec (.palget i) s = .next t ∧ t = s.setResult t.result ∧
    t.result.toNat = (s.byte (0x07FC0 + 3 * i.toNat)).toNat + 256 * (s.byte (0x07FC0 + 3 * i.toNat + 1)).toNat +
      65536 * (s.byte (0x07FC0 + 3 * i.toNat + 2)).toNat

/-! ### Cartridge -/

/-- R134, R135, R136: decoding the encoding of a chunk list gives the list, in order. A stream that decodes to a list is
its records with some reserved bytes; encoding the list replaces every reserved byte by 0, and so gives the stream back
only when they are 0. -/
def Obligations.CartridgeRoundTrips : Prop :=
  (∀ chunks : List Chunk, (∀ ch ∈ chunks, ch.Sized) → decodeCart (encodeCart chunks) = .ok chunks) ∧
  ∀ (bytes : List Byte) (chunks : List Chunk), decodeCart bytes = .ok chunks →
    (∀ ch ∈ chunks, ch.Sized) ∧
    ∃ reserved : List Byte, reserved.length = chunks.length ∧ bytes = encodeWith chunks reserved ∧
      encodeCart chunks = encodeWith chunks (List.replicate chunks.length 0) ∧
      (encodeCart chunks = bytes ↔ ∀ r ∈ reserved, r = 0)

/-- R131, R132, R133: the decoder's only error is DECODE_EOF, and it fails exactly on the streams that are no sequence
of complete records: a stream with a complete record in front decodes as its rest does, one of 1 to 3 bytes or with a
truncated payload does not. -/
def Obligations.DecoderFailsOnTruncationOnly : Prop :=
  decodeCart [] = .ok [] ∧
  (∀ (ch : Chunk) (rsv : Byte) (rest : List Byte), ch.Sized →
    decodeCart ((ch.bank ++ ch.code) :: ch.size.extractLsb' 0 8 :: ch.size.extractLsb' 8 8 :: rsv ::
        (ch.payload ++ rest)) =
      match decodeCart rest with
      | .ok chunks => .ok (ch :: chunks)
      | .error e => .error e) ∧
  (∀ bytes : List Byte, 1 ≤ bytes.length → bytes.length ≤ 3 → decodeCart bytes = .error .decodeEof) ∧
  (∀ (h lo hi rsv : Byte) (payload : List Byte), payload.length < lo.toNat + 256 * hi.toNat →
    decodeCart (h :: lo :: hi :: rsv :: payload) = .error .decodeEof) ∧
  ∀ (bytes : List Byte) (e : ErrorName), decodeCart bytes = .error e → e = .decodeEof

/-- R137 to R141, R145: a built image. Every byte outside the font region is that of the last chunk whose copy, by the
nine rows of R137, covers it, 0 if none does; the font region is DEFAULT_FONT; the program text is the last Code
chunk's; the metrics are those of DEFAULT_FONT. -/
def Obligations.LastChunkWinsEachByte : Prop :=
  ∀ (p : Params) (chunks : List Chunk) (img : Image), buildImage p chunks = .ok img →
    (∀ (c : Nat) (h : c < 2048), arenaGet p img.mem (0x08020 + c) = p.font[c]) ∧
    (∀ a, ¬(0x08020 ≤ a ∧ a < 0x08020 + 2048) → arenaGet p img.mem a = (lastCopied chunks a).getD 0) ∧
    img.prog = lastCode chunks ∧ img.met = metrics p []

/-- R100, R141, R143, R334: the builder fails exactly when some chunk has a code of R143's list or is a Code chunk,
code 5, of bad text, with the error of the first such chunk in decode order. -/
def Obligations.BuilderFailsAtTheFirstBadChunk : Prop :=
  ∀ (p : Params) (chunks : List Chunk) (e : ErrorName),
    buildImage p chunks = .error e ↔ chunks.findSome? chunkError = some e

/-- D11, R141: valid text is exactly the UTF-8 encoding of some sequence of characters. The encoding of a character is
Lean's own (log 11). -/
def Obligations.ValidTextIsUtf8 : Prop :=
  ∀ bytes : List Byte, validUtf8 bytes = true ↔
    ∃ cs : List Char, bytes = cs.flatMap fun c => (String.utf8EncodeChar c).map UInt8.toBitVec

/-- R146, R331, R332, R334: LOAD always completes. It raises ADDR_RANGE (4) past CART_SIZE, else DECODE_EOF (5) if the
stream does not decode, else the builder's error, which is UNSUPPORTED_CHUNK (6) or BUILD_BAD_TEXT (7), and else
replaces the arena, PROG and MET by the image's and nothing else. -/
def Obligations.LoadReplacesTheImage : Prop :=
  ∀ (len : Nat) (s : State), ∃ t, exec (.load len) s = .next t ∧
    (s.cfg.cartSize < len → t = { s with err := stickyErr s.err 4 }) ∧
    (len ≤ s.cfg.cartSize →
      (∀ e, decodeCart (cartBytes s.cart len) = .error e → t = { s with err := stickyErr s.err 5 }) ∧
      ∀ chunks, decodeCart (cartBytes s.cart len) = .ok chunks →
        (∀ e, buildImage s.cfg chunks = .error e →
          (e = .unsupportedChunk ∧ t = { s with err := stickyErr s.err 6 }) ∨
          (e = .buildBadText ∧ t = { s with err := stickyErr s.err 7 })) ∧
        ∀ img, buildImage s.cfg chunks = .ok img →
          t = { s with arena := img.mem, prog := img.prog, met := img.met })

/-- R147: when LOAD raises any error, the arena, PROG and MET keep their values. -/
def Obligations.FailedLoadKeepsTheImage : Prop :=
  ∀ (len : Nat) (s : State),
    (s.cfg.cartSize < len ∨ ∃ e, loadImage s.cfg (cartBytes s.cart len) = .error e) →
    ∃ t, exec (.load len) s = .next t ∧ t.arena = s.arena ∧ t.prog = s.prog ∧ t.met = s.met

/-- R140, R145, R146: after every successful LOAD the reserved palette half, the gamepad and the mouse bytes are 0, the
font is DEFAULT_FONT and MET holds its metrics. -/
def Obligations.LoadClearsInputAndReservedBytes : Prop :=
  ∀ (len : Nat) (s : State) (img : Image), len ≤ s.cfg.cartSize → loadImage s.cfg (cartBytes s.cart len) = .ok img →
    ∃ t, exec (.load len) s = .next t ∧
      (∀ a, 0x07FC0 + 48 ≤ a → a < 0x07FC0 + 96 → t.byte a = 0) ∧
      (∀ a, 0x149B8 ≤ a → a < 84416 → t.byte a = 0) ∧
      (∀ (c : Nat) (h : c < 2048), t.byte (0x08020 + c) = s.cfg.font[c]) ∧
      t.met = (State.resetWith s.cfg s.cart).met

/-- R146, R360: `LOAD 0` succeeds and gives the arena, PROG and MET of reset, and changes nothing else. -/
def Obligations.LoadOfNothingGivesTheResetImage : Prop :=
  ∀ s : State, exec (.load 0) s = .next
    { s with arena := s.hardReset.arena, prog := s.hardReset.prog, met := s.hardReset.met }

/-! ### Host API -/

/-- R111: the expansion of `spr` leaves SLOT[3] as the view of the tile, and draws on SLOT[0] what BLIT from that view
draws. Arguments that fit no field are passed on as they are, the model's choice (log 24). -/
def Obligations.SprExpandsToTileAndBlit : Prop :=
  ∀ (id : Nat) (x y : Int) (key : Option Nibble) (scale : Option Nat) (hf vf : Bool) (s : State),
    (s.slot .s0).Legal →
    ∃ t u, runCommands (hostSpr id x y key scale hf vf) s = .next t ∧
      t.slot .s3 = (if id < 512 then tileView id else empty4) ∧ (∀ b, b ≠ .s3 → t.slot b = s.slot b) ∧
      exec (.blit .s0 .s3 x y (scale.getD 1) key.isSome (key.getD 0) hf vf)
        (s.setSlot .s3 (if id < 512 then tileView id else empty4)) = .next u ∧
      ∀ a, t.byte a = u.byte a
end

