-- ==== Sys2Proof/Laws/State.lean ====
section
/-! SUPPORT. One lemma per field per update of the state, each true by rfl. -/

namespace Sys2Proof.Machine

section
variable (s : State) (m : Memory)
@[simp] theorem State.setArena_cfg : (s.setArena m).cfg = s.cfg := rfl
@[simp] theorem State.setArena_arena : (s.setArena m).arena = m := rfl
@[simp] theorem State.setArena_slots : (s.setArena m).slots = s.slots := rfl
@[simp] theorem State.setArena_result : (s.setArena m).result = s.result := rfl
@[simp] theorem State.setArena_err : (s.setArena m).err = s.err := rfl
@[simp] theorem State.setArena_inStep : (s.setArena m).inStep = s.inStep := rfl
@[simp] theorem State.setArena_met : (s.setArena m).met = s.met := rfl
@[simp] theorem State.setArena_prog : (s.setArena m).prog = s.prog := rfl
@[simp] theorem State.setArena_rgbaOut : (s.setArena m).rgbaOut = s.rgbaOut := rfl
@[simp] theorem State.setArena_cart : (s.setArena m).cart = s.cart := rfl
@[simp] theorem State.setArena_commands : (s.setArena m).commands = s.commands := rfl
@[simp] theorem State.setArena_index : (s.setArena m).index = s.index := rfl
end

section
variable (s : State) (a : Nat) (v : Byte)
@[simp] theorem State.setByte_cfg : (s.setByte a v).cfg = s.cfg := rfl
@[simp] theorem State.setByte_arena : (s.setByte a v).arena = arenaSet s.cfg s.arena a v := rfl
@[simp] theorem State.setByte_slots : (s.setByte a v).slots = s.slots := rfl
@[simp] theorem State.setByte_result : (s.setByte a v).result = s.result := rfl
@[simp] theorem State.setByte_err : (s.setByte a v).err = s.err := rfl
@[simp] theorem State.setByte_inStep : (s.setByte a v).inStep = s.inStep := rfl
@[simp] theorem State.setByte_met : (s.setByte a v).met = s.met := rfl
@[simp] theorem State.setByte_prog : (s.setByte a v).prog = s.prog := rfl
@[simp] theorem State.setByte_rgbaOut : (s.setByte a v).rgbaOut = s.rgbaOut := rfl
@[simp] theorem State.setByte_cart : (s.setByte a v).cart = s.cart := rfl
@[simp] theorem State.setByte_commands : (s.setByte a v).commands = s.commands := rfl
@[simp] theorem State.setByte_index : (s.setByte a v).index = s.index := rfl
end

section
variable (s : State) (k : SlotId) (S : Surface)
@[simp] theorem State.setSlot_cfg : (s.setSlot k S).cfg = s.cfg := rfl
@[simp] theorem State.setSlot_arena : (s.setSlot k S).arena = s.arena := rfl
@[simp] theorem State.setSlot_slots : (s.setSlot k S).slots = s.slots.set k S := rfl
@[simp] theorem State.setSlot_result : (s.setSlot k S).result = s.result := rfl
@[simp] theorem State.setSlot_err : (s.setSlot k S).err = s.err := rfl
@[simp] theorem State.setSlot_inStep : (s.setSlot k S).inStep = s.inStep := rfl
@[simp] theorem State.setSlot_met : (s.setSlot k S).met = s.met := rfl
@[simp] theorem State.setSlot_prog : (s.setSlot k S).prog = s.prog := rfl
@[simp] theorem State.setSlot_rgbaOut : (s.setSlot k S).rgbaOut = s.rgbaOut := rfl
@[simp] theorem State.setSlot_cart : (s.setSlot k S).cart = s.cart := rfl
@[simp] theorem State.setSlot_commands : (s.setSlot k S).commands = s.commands := rfl
@[simp] theorem State.setSlot_index : (s.setSlot k S).index = s.index := rfl
end

section
variable (s : State) (v : Word32)
@[simp] theorem State.setResult_cfg : (s.setResult v).cfg = s.cfg := rfl
@[simp] theorem State.setResult_arena : (s.setResult v).arena = s.arena := rfl
@[simp] theorem State.setResult_slots : (s.setResult v).slots = s.slots := rfl
@[simp] theorem State.setResult_result : (s.setResult v).result = v := rfl
@[simp] theorem State.setResult_err : (s.setResult v).err = s.err := rfl
@[simp] theorem State.setResult_inStep : (s.setResult v).inStep = s.inStep := rfl
@[simp] theorem State.setResult_met : (s.setResult v).met = s.met := rfl
@[simp] theorem State.setResult_prog : (s.setResult v).prog = s.prog := rfl
@[simp] theorem State.setResult_rgbaOut : (s.setResult v).rgbaOut = s.rgbaOut := rfl
@[simp] theorem State.setResult_cart : (s.setResult v).cart = s.cart := rfl
@[simp] theorem State.setResult_commands : (s.setResult v).commands = s.commands := rfl
@[simp] theorem State.setResult_index : (s.setResult v).index = s.index := rfl
end

section
variable (s : State) (t : MetricTable)
@[simp] theorem State.setMet_cfg : (s.setMet t).cfg = s.cfg := rfl
@[simp] theorem State.setMet_arena : (s.setMet t).arena = s.arena := rfl
@[simp] theorem State.setMet_slots : (s.setMet t).slots = s.slots := rfl
@[simp] theorem State.setMet_result : (s.setMet t).result = s.result := rfl
@[simp] theorem State.setMet_err : (s.setMet t).err = s.err := rfl
@[simp] theorem State.setMet_inStep : (s.setMet t).inStep = s.inStep := rfl
@[simp] theorem State.setMet_met : (s.setMet t).met = t := rfl
@[simp] theorem State.setMet_prog : (s.setMet t).prog = s.prog := rfl
@[simp] theorem State.setMet_rgbaOut : (s.setMet t).rgbaOut = s.rgbaOut := rfl
@[simp] theorem State.setMet_cart : (s.setMet t).cart = s.cart := rfl
@[simp] theorem State.setMet_commands : (s.setMet t).commands = s.commands := rfl
@[simp] theorem State.setMet_index : (s.setMet t).index = s.index := rfl
end

section
variable (s : State) (out : List Byte)
@[simp] theorem State.setRgba_cfg : (s.setRgba out).cfg = s.cfg := rfl
@[simp] theorem State.setRgba_arena : (s.setRgba out).arena = s.arena := rfl
@[simp] theorem State.setRgba_slots : (s.setRgba out).slots = s.slots := rfl
@[simp] theorem State.setRgba_result : (s.setRgba out).result = s.result := rfl
@[simp] theorem State.setRgba_err : (s.setRgba out).err = s.err := rfl
@[simp] theorem State.setRgba_inStep : (s.setRgba out).inStep = s.inStep := rfl
@[simp] theorem State.setRgba_met : (s.setRgba out).met = s.met := rfl
@[simp] theorem State.setRgba_prog : (s.setRgba out).prog = s.prog := rfl
@[simp] theorem State.setRgba_rgbaOut : (s.setRgba out).rgbaOut = out := rfl
@[simp] theorem State.setRgba_cart : (s.setRgba out).cart = s.cart := rfl
@[simp] theorem State.setRgba_commands : (s.setRgba out).commands = s.commands := rfl
@[simp] theorem State.setRgba_index : (s.setRgba out).index = s.index := rfl
end

section
variable (s : State) (b : Bool)
@[simp] theorem State.setInStep_cfg : (s.setInStep b).cfg = s.cfg := rfl
@[simp] theorem State.setInStep_arena : (s.setInStep b).arena = s.arena := rfl
@[simp] theorem State.setInStep_slots : (s.setInStep b).slots = s.slots := rfl
@[simp] theorem State.setInStep_result : (s.setInStep b).result = s.result := rfl
@[simp] theorem State.setInStep_err : (s.setInStep b).err = s.err := rfl
@[simp] theorem State.setInStep_inStep : (s.setInStep b).inStep = b := rfl
@[simp] theorem State.setInStep_met : (s.setInStep b).met = s.met := rfl
@[simp] theorem State.setInStep_prog : (s.setInStep b).prog = s.prog := rfl
@[simp] theorem State.setInStep_rgbaOut : (s.setInStep b).rgbaOut = s.rgbaOut := rfl
@[simp] theorem State.setInStep_cart : (s.setInStep b).cart = s.cart := rfl
@[simp] theorem State.setInStep_commands : (s.setInStep b).commands = s.commands := rfl
@[simp] theorem State.setInStep_index : (s.setInStep b).index = s.index := rfl
end

section
variable (s : State)
@[simp] theorem State.clearErr_cfg : s.clearErr.cfg = s.cfg := rfl
@[simp] theorem State.clearErr_arena : s.clearErr.arena = s.arena := rfl
@[simp] theorem State.clearErr_slots : s.clearErr.slots = s.slots := rfl
@[simp] theorem State.clearErr_result : s.clearErr.result = s.result := rfl
@[simp] theorem State.clearErr_err : s.clearErr.err = 0 := rfl
@[simp] theorem State.clearErr_inStep : s.clearErr.inStep = s.inStep := rfl
@[simp] theorem State.clearErr_met : s.clearErr.met = s.met := rfl
@[simp] theorem State.clearErr_prog : s.clearErr.prog = s.prog := rfl
@[simp] theorem State.clearErr_rgbaOut : s.clearErr.rgbaOut = s.rgbaOut := rfl
@[simp] theorem State.clearErr_cart : s.clearErr.cart = s.cart := rfl
@[simp] theorem State.clearErr_commands : s.clearErr.commands = s.commands := rfl
@[simp] theorem State.clearErr_index : s.clearErr.index = s.index := rfl
end

section
variable (s : State) (e : ErrorName)
@[simp] theorem State.raise_cfg : (s.raise e).cfg = s.cfg := rfl
@[simp] theorem State.raise_arena : (s.raise e).arena = s.arena := rfl
@[simp] theorem State.raise_slots : (s.raise e).slots = s.slots := rfl
@[simp] theorem State.raise_result : (s.raise e).result = s.result := rfl
@[simp] theorem State.raise_err : (s.raise e).err = if s.err = 0 then errorCode e else s.err := rfl
@[simp] theorem State.raise_inStep : (s.raise e).inStep = s.inStep := rfl
@[simp] theorem State.raise_met : (s.raise e).met = s.met := rfl
@[simp] theorem State.raise_prog : (s.raise e).prog = s.prog := rfl
@[simp] theorem State.raise_rgbaOut : (s.raise e).rgbaOut = s.rgbaOut := rfl
@[simp] theorem State.raise_cart : (s.raise e).cart = s.cart := rfl
@[simp] theorem State.raise_commands : (s.raise e).commands = s.commands := rfl
@[simp] theorem State.raise_index : (s.raise e).index = s.index := rfl
end

section
variable (s : State)
@[simp] theorem State.advance_cfg : s.advance.cfg = s.cfg := rfl
@[simp] theorem State.advance_arena : s.advance.arena = s.arena := rfl
@[simp] theorem State.advance_slots : s.advance.slots = s.slots := rfl
@[simp] theorem State.advance_result : s.advance.result = s.result := rfl
@[simp] theorem State.advance_err : s.advance.err = s.err := rfl
@[simp] theorem State.advance_inStep : s.advance.inStep = s.inStep := rfl
@[simp] theorem State.advance_met : s.advance.met = s.met := rfl
@[simp] theorem State.advance_prog : s.advance.prog = s.prog := rfl
@[simp] theorem State.advance_rgbaOut : s.advance.rgbaOut = s.rgbaOut := rfl
@[simp] theorem State.advance_cart : s.advance.cart = s.cart := rfl
@[simp] theorem State.advance_commands : s.advance.commands = s.commands := rfl
@[simp] theorem State.advance_index : s.advance.index = s.index + 1 := rfl
end

section
variable (s : State) (img : Image)
@[simp] theorem State.install_cfg : (s.install img).cfg = s.cfg := rfl
@[simp] theorem State.install_arena : (s.install img).arena = img.mem := rfl
@[simp] theorem State.install_slots : (s.install img).slots = s.slots := rfl
@[simp] theorem State.install_result : (s.install img).result = s.result := rfl
@[simp] theorem State.install_err : (s.install img).err = s.err := rfl
@[simp] theorem State.install_inStep : (s.install img).inStep = s.inStep := rfl
@[simp] theorem State.install_met : (s.install img).met = img.met := rfl
@[simp] theorem State.install_prog : (s.install img).prog = img.prog := rfl
@[simp] theorem State.install_rgbaOut : (s.install img).rgbaOut = s.rgbaOut := rfl
@[simp] theorem State.install_cart : (s.install img).cart = s.cart := rfl
@[simp] theorem State.install_commands : (s.install img).commands = s.commands := rfl
@[simp] theorem State.install_index : (s.install img).index = s.index := rfl
end

section
variable (s : State) (bytes : List Byte)
@[simp] theorem State.issue_cfg : (s.issue bytes).cfg = s.cfg := rfl
@[simp] theorem State.issue_arena : (s.issue bytes).arena = s.arena := rfl
@[simp] theorem State.issue_slots : (s.issue bytes).slots = s.slots := rfl
@[simp] theorem State.issue_result : (s.issue bytes).result = s.result := rfl
@[simp] theorem State.issue_err : (s.issue bytes).err = s.err := rfl
@[simp] theorem State.issue_inStep : (s.issue bytes).inStep = s.inStep := rfl
@[simp] theorem State.issue_met : (s.issue bytes).met = s.met := rfl
@[simp] theorem State.issue_prog : (s.issue bytes).prog = s.prog := rfl
@[simp] theorem State.issue_rgbaOut : (s.issue bytes).rgbaOut = s.rgbaOut := rfl
@[simp] theorem State.issue_cart : (s.issue bytes).cart = s.cart := rfl
@[simp] theorem State.issue_commands : (s.issue bytes).commands = s.commands ++ bytes := rfl
@[simp] theorem State.issue_index : (s.issue bytes).index = s.index := rfl
end

section
variable (s : State) (bytes : List Byte)
@[simp] theorem State.fillCart_cfg : (s.fillCart bytes).cfg = s.cfg := rfl
@[simp] theorem State.fillCart_arena : (s.fillCart bytes).arena = s.arena := rfl
@[simp] theorem State.fillCart_slots : (s.fillCart bytes).slots = s.slots := rfl
@[simp] theorem State.fillCart_result : (s.fillCart bytes).result = s.result := rfl
@[simp] theorem State.fillCart_err : (s.fillCart bytes).err = s.err := rfl
@[simp] theorem State.fillCart_inStep : (s.fillCart bytes).inStep = s.inStep := rfl
@[simp] theorem State.fillCart_met : (s.fillCart bytes).met = s.met := rfl
@[simp] theorem State.fillCart_prog : (s.fillCart bytes).prog = s.prog := rfl
@[simp] theorem State.fillCart_rgbaOut : (s.fillCart bytes).rgbaOut = s.rgbaOut := rfl
@[simp] theorem State.fillCart_cart : (s.fillCart bytes).cart = cartCells 0 (bytes.take s.cfg.cartSize) := rfl
@[simp] theorem State.fillCart_commands : (s.fillCart bytes).commands = s.commands := rfl
@[simp] theorem State.fillCart_index : (s.fillCart bytes).index = s.index := rfl
end

section
variable (s : State) (nbits w : Nat)
@[simp] theorem State.withFetchWord_cfg : (s.withFetchWord nbits w).cfg = s.cfg := rfl
@[simp] theorem State.withFetchWord_arena : (s.withFetchWord nbits w).arena = s.arena := rfl
@[simp] theorem State.withFetchWord_slots : (s.withFetchWord nbits w).slots = s.slots := rfl
@[simp] theorem State.withFetchWord_result : (s.withFetchWord nbits w).result = s.result := rfl
@[simp] theorem State.withFetchWord_err : (s.withFetchWord nbits w).err = s.err := rfl
@[simp] theorem State.withFetchWord_inStep : (s.withFetchWord nbits w).inStep = s.inStep := rfl
@[simp] theorem State.withFetchWord_met : (s.withFetchWord nbits w).met = s.met := rfl
@[simp] theorem State.withFetchWord_prog : (s.withFetchWord nbits w).prog = s.prog := rfl
@[simp] theorem State.withFetchWord_rgbaOut : (s.withFetchWord nbits w).rgbaOut = s.rgbaOut := rfl
@[simp] theorem State.withFetchWord_cart : (s.withFetchWord nbits w).cart = s.cart := rfl
@[simp] theorem State.withFetchWord_commands : (s.withFetchWord nbits w).commands =
    placeCommand s.commands s.index (bytesOfCommand (BitVec.ofNat 128 (w % 2 ^ nbits))) := rfl
@[simp] theorem State.withFetchWord_index : (s.withFetchWord nbits w).index = s.index := rfl
end

/-- A slot reads as the surface last stored in it, and storing it leaves the other slots alone. -/
@[simp] theorem Slots.get_set (t : Slots) (k j : SlotId) (S : Surface) :
    (t.set k S).get j = if j = k then S else t.get j := by
  cases k <;> cases j <;> rfl

@[simp] theorem State.slot_setSlot (s : State) (k j : SlotId) (S : Surface) :
    (s.setSlot k S).slot j = if j = k then S else s.slot j := Slots.get_set s.slots k j S

@[simp] theorem State.slot_setArena (s : State) (k : SlotId) (m : Memory) : (s.setArena m).slot k = s.slot k := rfl

@[simp] theorem State.slot_setResult (s : State) (k : SlotId) (v : Word32) : (s.setResult v).slot k = s.slot k := rfl

@[simp] theorem State.slot_setByte (s : State) (k : SlotId) (a : Nat) (v : Byte) :
    (s.setByte a v).slot k = s.slot k := rfl

/-- What STATUS shows after reset and after each update follows from ERR and IN_STEP alone (R27). -/
theorem State.status_eq (s t : State) (he : s.err = t.err) (hi : s.inStep = t.inStep) : s.status = t.status := by
  simp only [State.status, he, hi]

end Sys2Proof.Machine
end

