-- ==== Sys2Proof/Laws/Memory.lean ====
section
/-! SUPPORT. What the memory operations do: a read after each of them, and the canonical form each of them keeps. -/

namespace Sys2Proof.Machine

/-- An entry added at `a` is the only thing a read of `a` sees of it. -/
theorem Memory.read_entry (u : Nat → Byte) (a b : Nat) (v : Byte) (m : Memory) (h : ∀ c ∈ m, c.1 ≠ a) :
    Memory.read u (Memory.entry u a v ++ m) b = if b = a then v else Memory.read u m b := by
  have hm : Memory.read u m a = u a := by
    induction m with
    | nil => rfl
    | cons c rest ih =>
      obtain ⟨k, w⟩ := c
      have hk : k ≠ a := h (k, w) (by simp)
      simp only [Memory.read, if_neg hk]
      exact ih fun c hc => h c (by simp [hc])
  unfold Memory.entry
  by_cases hv : v = u a <;> by_cases hb : b = a
  · subst hb; simp [hv, hm]
  · simp [hv, hb]
  · subst hb; simp [hv, Memory.read]
  · simp [hv, Memory.read, hb, Ne.symm hb]

/-- Dropping the entries of one address leaves the reads of every other. -/
theorem Memory.read_filter_ne (u : Nat → Byte) (m : Memory) (a b : Nat) (h : b ≠ a) :
    Memory.read u (m.filter fun c => c.1 ≠ a) b = Memory.read u m b := by
  induction m with
  | nil => rfl
  | cons c rest ih =>
    obtain ⟨k, w⟩ := c
    by_cases hk : k = a
    · subst hk
      have : k ≠ b := fun e => h e.symm
      simpa [Memory.read, this] using ih
    · simp [Memory.read, hk] at ih ⊢
      rw [ih]

/-- All that a write does: its address reads as the value written, every other as before. No premise on the form. -/
theorem Memory.read_write (u : Nat → Byte) (m : Memory) (a b : Nat) (v : Byte) :
    Memory.read u (Memory.write u m a v) b = if b = a then v else Memory.read u m b := by
  induction m with
  | nil => simpa [Memory.write] using Memory.read_entry u a b v [] (by simp)
  | cons c rest ih =>
    obtain ⟨k, w⟩ := c
    unfold Memory.write
    by_cases hk : k < a
    · rw [if_pos hk]
      simp only [Memory.read, ih]
      by_cases hb : b = a
      · subst hb; simp [Nat.ne_of_lt hk]
      · simp [hb]
    · rw [if_neg hk, Memory.read_entry _ _ _ _ _ (by simp)]
      by_cases hb : b = a
      · simp [hb]
      · simp only [if_neg hb]
        exact Memory.read_filter_ne u ((k, w) :: rest) a b hb

/-- A restored address reads as it does unlisted, every other as before. -/
theorem Memory.read_restore (u : Nat → Byte) (m : Memory) (lo hi a : Nat) :
    Memory.read u (Memory.restore m lo hi) a = if lo ≤ a ∧ a < hi then u a else Memory.read u m a := by
  unfold Memory.restore
  induction m with
  | nil => simp [Memory.read]
  | cons c rest ih =>
    obtain ⟨k, w⟩ := c
    by_cases hk : lo ≤ k ∧ k < hi
    · rw [List.filter_cons_of_neg (by simpa using hk), ih]
      by_cases ha : lo ≤ a ∧ a < hi
      · simp [ha]
      · have : k ≠ a := fun e => ha (e ▸ hk)
        simp [Memory.read, this, ha]
    · rw [List.filter_cons_of_pos (by simp; omega)]
      simp only [Memory.read, ih]
      by_cases e : k = a
      · subst e; simp [hk]
      · simp [e]

/-- The entries after a write: the written one, if it is listed, and old ones. -/
theorem Memory.mem_write {u : Nat → Byte} {m : Memory} {a : Nat} {v : Byte} {c : Host.Cell}
    (h : c ∈ Memory.write u m a v) : (c = (a, v) ∧ v ≠ u a) ∨ c ∈ m := by
  induction m with
  | nil =>
    by_cases hv : v = u a <;> simp [Memory.write, Memory.entry, hv] at h
    exact .inl ⟨h, hv⟩
  | cons d rest ih =>
    obtain ⟨k, w⟩ := d
    by_cases hk : k < a
    · simp only [Memory.write, if_pos hk, List.mem_cons] at h
      rcases h with h | h
      · exact .inr (by simp [h])
      · exact (ih h).imp_right fun h => List.mem_cons_of_mem _ h
    · simp only [Memory.write, if_neg hk, List.mem_append] at h
      rcases h with h | h
      · by_cases hv : v = u a <;> simp [Memory.entry, hv] at h
        exact .inl ⟨h, hv⟩
      · exact .inr (List.mem_of_mem_filter h)

/-- A write keeps the canonical form. -/
theorem Memory.wf_write {u : Nat → Byte} {m : Memory} (h : Memory.wf u m) (a : Nat) (v : Byte) :
    Memory.wf u (Memory.write u m a v) := by
  refine ⟨?_, fun c hc => ?_⟩
  · obtain ⟨hs, -⟩ := h
    induction m with
    | nil => by_cases hv : v = u a <;> simp [Memory.write, Memory.entry, hv]
    | cons d rest ih =>
      obtain ⟨k, w⟩ := d
      rw [List.pairwise_cons] at hs
      by_cases hk : k < a
      · simp only [Memory.write, if_pos hk, List.pairwise_cons]
        refine ⟨fun c hc => ?_, ih hs.2⟩
        rcases Memory.mem_write hc with ⟨rfl, -⟩ | hc
        · exact hk
        · exact hs.1 c hc
      · simp only [Memory.write, if_neg hk]
        have hf : List.Pairwise (fun x y : Host.Cell => x.1 < y.1) (((k, w) :: rest).filter fun c => c.1 ≠ a) :=
          (List.pairwise_cons.2 hs).filter _
        by_cases hv : v = u a
        · simpa [Memory.entry, hv] using hf
        · simp only [Memory.entry, if_neg hv, List.singleton_append, List.pairwise_cons]
          refine ⟨fun c hc => ?_, hf⟩
          simp only [List.mem_filter, List.mem_cons, ne_eq, decide_eq_true_eq] at hc
          obtain ⟨rfl | hc, hne⟩ := hc
          · have h1 : k ≠ a := hne
            show a < k
            omega
          · have h1 : k < c.1 := hs.1 c hc
            show a < c.1
            omega
  · rcases Memory.mem_write hc with ⟨rfl, hv⟩ | hc
    · exact hv
    · exact h.2 c hc

/-- A write below `n` lists addresses below `n` only. -/
theorem Memory.below_write {u : Nat → Byte} {m : Memory} {n : Nat} (h : Memory.below n m) {a : Nat} (ha : a < n)
    (v : Byte) : Memory.below n (Memory.write u m a v) := by
  intro c hc
  rcases Memory.mem_write hc with ⟨rfl, -⟩ | hc
  · exact ha
  · exact h c hc

theorem Memory.wf_restore {u : Nat → Byte} {m : Memory} (h : Memory.wf u m) (lo hi : Nat) :
    Memory.wf u (Memory.restore m lo hi) :=
  ⟨h.1.filter _, fun c hc => h.2 c (List.mem_of_mem_filter hc)⟩

theorem Memory.below_restore {m : Memory} {n : Nat} (h : Memory.below n m) (lo hi : Nat) :
    Memory.below n (Memory.restore m lo hi) := fun c hc => h c (List.mem_of_mem_filter hc)

/-- The memory of the reset state has the canonical form. -/
theorem Memory.wf_nil (u : Nat → Byte) : Memory.wf u [] :=
  ⟨List.Pairwise.nil, fun _ h => absurd h List.not_mem_nil⟩

/-- The arena and the cartridge of the reset state have the canonical form. -/
theorem State.reset_memory_wf :
    Memory.wf (arenaUnlisted State.reset.cfg) State.reset.arena ∧ Memory.wf cartUnlisted State.reset.cart :=
  ⟨Memory.wf_nil _, Memory.wf_nil _⟩

/-- `A[a] <- v` (R66). -/
@[simp] theorem arenaGet_arenaSet (p : Params) (m : Memory) (a b : Nat) (v : Byte) :
    arenaGet p (arenaSet p m a v) b = if b = a then v else arenaGet p m b :=
  Memory.read_write _ m a b v

theorem arenaSet_wf {p : Params} {m : Memory} (h : Memory.wf (arenaUnlisted p) m) (a : Nat) (v : Byte) :
    Memory.wf (arenaUnlisted p) (arenaSet p m a v) := Memory.wf_write h a v

theorem arenaSet_below {p : Params} {m : Memory} {n : Nat} (h : Memory.below n m) {a : Nat} (ha : a < n) (v : Byte) :
    Memory.below n (arenaSet p m a v) := Memory.below_write h ha v

@[simp] theorem State.byte_setByte (s : State) (a b : Nat) (v : Byte) :
    (s.setByte a v).byte b = if b = a then v else s.byte b := arenaGet_arenaSet s.cfg s.arena a b v

@[simp] theorem State.byte_setSlot (s : State) (a : Nat) (k : SlotId) (S : Surface) :
    (s.setSlot k S).byte a = s.byte a := rfl

@[simp] theorem State.byte_setResult (s : State) (a : Nat) (v : Word32) : (s.setResult v).byte a = s.byte a := rfl

@[simp] theorem State.byte_setArena (s : State) (a : Nat) (m : Memory) :
    (s.setArena m).byte a = arenaGet s.cfg m a := rfl

/-- All that `MemWrite(a, n, v)` does (R67). -/
theorem arenaGet_memWrite (p : Params) (v : List Byte) (m : Memory) (a b : Nat) :
    arenaGet p (memWrite p m a v) b = if h : a ≤ b ∧ b - a < v.length then v[b - a]'h.2 else arenaGet p m b := by
  induction v generalizing m a with
  | nil => simp [memWrite]
  | cons x rest ih =>
    rw [memWrite, ih]
    by_cases h1 : a + 1 ≤ b ∧ b - (a + 1) < rest.length
    · have h2 : a ≤ b ∧ b - a < (x :: rest).length := by simp only [List.length_cons]; omega
      rw [dif_pos h1, dif_pos h2]
      obtain ⟨j, hj⟩ : ∃ j, b - a = j + 1 := ⟨b - a - 1, by omega⟩
      have h3 : b - (a + 1) = j := by omega
      simp [hj, h3]
    · rw [dif_neg h1, arenaGet_arenaSet]
      by_cases hb : b = a
      · subst hb; simp
      · have : ¬(a ≤ b ∧ b - a < (x :: rest).length) := by simp only [List.length_cons]; omega
        rw [dif_neg this, if_neg hb]

theorem memWrite_wf {p : Params} (v : List Byte) {m : Memory} (h : Memory.wf (arenaUnlisted p) m) (a : Nat) :
    Memory.wf (arenaUnlisted p) (memWrite p m a v) := by
  induction v generalizing m a with
  | nil => exact h
  | cons x rest ih => exact ih (arenaSet_wf h a x) (a + 1)

theorem memWrite_below {p : Params} {n : Nat} (v : List Byte) {m : Memory} (h : Memory.below n m) {a : Nat}
    (ha : a + v.length ≤ n) : Memory.below n (memWrite p m a v) := by
  induction v generalizing m a with
  | nil => exact h
  | cons x rest ih =>
    simp only [List.length_cons] at ha
    exact ih (arenaSet_below h (by omega) x) (by omega)

/-- A byte of a filled cartridge: the byte filled in, else what an unfilled byte reads as (R33). -/
theorem read_cartCells (bytes : List Byte) (a b : Nat) :
    Memory.read cartUnlisted (cartCells a bytes) b =
      if h : a ≤ b ∧ b - a < bytes.length then bytes[b - a]'h.2 else cartUnlisted b := by
  have key : ∀ (bytes : List Byte) (a : Nat), ∀ c ∈ cartCells a bytes, a ≤ c.1 := by
    intro bytes
    induction bytes with
    | nil => intro a c hc; simp [cartCells] at hc
    | cons x rest ih =>
      intro a c hc
      simp only [cartCells, List.mem_append] at hc
      rcases hc with hc | hc
      · by_cases hv : x = cartUnlisted a <;> simp [Memory.entry, hv] at hc
        simp [hc]
      · have := ih (a + 1) c hc; omega
  induction bytes generalizing a with
  | nil => simp [cartCells, Memory.read]
  | cons x rest ih =>
    rw [cartCells, Memory.read_entry _ _ _ _ _ (fun c hc => by have := key rest (a + 1) c hc; omega), ih]
    by_cases hb : b = a
    · subst hb; simp
    · rw [if_neg hb]
      by_cases h1 : a + 1 ≤ b ∧ b - (a + 1) < rest.length
      · have h2 : a ≤ b ∧ b - a < (x :: rest).length := by simp only [List.length_cons]; omega
        rw [dif_pos h1, dif_pos h2]
        obtain ⟨j, hj⟩ : ∃ j, b - a = j + 1 := ⟨b - a - 1, by omega⟩
        have h3 : b - (a + 1) = j := by omega
        simp [hj, h3]
      · have h2 : ¬(a ≤ b ∧ b - a < (x :: rest).length) := by simp only [List.length_cons]; omega
        rw [dif_neg h1, dif_neg h2]

/-- A filled cartridge is in canonical form and lists no address before its first. -/
theorem cartCells_wf (bytes : List Byte) (a : Nat) :
    Memory.wf cartUnlisted (cartCells a bytes) ∧ (∀ c ∈ cartCells a bytes, a ≤ c.1 ∧ c.1 < a + bytes.length) := by
  induction bytes generalizing a with
  | nil => exact ⟨Memory.wf_nil _, by simp [cartCells]⟩
  | cons x rest ih =>
    obtain ⟨⟨hs, hu⟩, hb⟩ := ih (a + 1)
    by_cases hv : x = cartUnlisted a
    · have : cartCells a (x :: rest) = cartCells (a + 1) rest := by simp [cartCells, Memory.entry, hv]
      rw [this]
      exact ⟨⟨hs, hu⟩, fun c hc => by have := hb c hc; simp only [List.length_cons]; omega⟩
    · have : cartCells a (x :: rest) = (a, x) :: cartCells (a + 1) rest := by simp [cartCells, Memory.entry, hv]
      rw [this]
      refine ⟨⟨List.pairwise_cons.2 ⟨fun c hc => by have := hb c hc; simp only; omega, hs⟩, ?_⟩, ?_⟩
      · intro c hc
        rcases List.mem_cons.1 hc with rfl | hc
        · exact hv
        · exact hu c hc
      · intro c hc
        rcases List.mem_cons.1 hc with rfl | hc
        · simp
        · have := hb c hc; simp only [List.length_cons]; omega

end Sys2Proof.Machine
end

