-- ==== Sys2Proof/Laws/Cartridge.lean ====
section
/-! SUPPORT. What the decoder's, the builder's and LOAD's parts can do (40_cartridge.md R131 to R147). -/

namespace Sys2Proof.Machine

/-- LOAD always answers a next state: it is turned away, it fails, or it installs the image (R146). -/
theorem execLoad_cases (len : Nat) (s : State) :
    (len > s.cfg.cartSize ∧ execLoad len s = .next (s.raise .addrRange)) ∨
    (len ≤ s.cfg.cartSize ∧ ∃ e, loadImage s.cfg (cartBytes s.cart len) = .error e ∧
      execLoad len s = .next (s.raise e)) ∨
    (len ≤ s.cfg.cartSize ∧ ∃ img, loadImage s.cfg (cartBytes s.cart len) = .ok img ∧
      execLoad len s = .next (s.install img)) := by
  unfold execLoad
  by_cases h : len > s.cfg.cartSize
  · exact .inl ⟨h, if_pos h⟩
  · rw [if_neg h]
    cases hi : loadImage s.cfg (cartBytes s.cart len) with
    | ok img => exact .inr (.inr ⟨by omega, img, rfl, rfl⟩)
    | error e => exact .inr (.inl ⟨by omega, e, rfl, rfl⟩)

/-- Every copy destination and its capacity lie in the arena, outside the font region (R137, R145). -/
theorem chunkDest_range {kind : ChunkKind} {base cap : Nat} (h : chunkDest kind = some (base, cap)) :
    base + cap ≤ arenaSize ∧ (base + cap ≤ fontBase ∨ fontBase + fontSize ≤ base) := by
  cases kind <;> simp only [chunkDest, Option.some.injEq, Prod.mk.injEq, reduceCtorEq] at h <;>
    obtain ⟨rfl, rfl⟩ := h <;> decide

/-- The builder's dispatch is the destination table of R137, for every code. -/
theorem chunkDest_chunkKind (code : BitVec 5) :
    chunkDest (chunkKind code) = (destinationTable.find? fun row => row.1 = code.toNat).map fun row => row.2 := by
  revert code
  decide

/-- Code 5, and no other, is a Code chunk (R100). -/
theorem chunkKind_eq_code (code : BitVec 5) : chunkKind code = .code ↔ code.toNat = 5 := by
  revert code
  decide

/-- The codes that are copied, Code, Default or Screen are those that R143 does not list. -/
theorem mem_unsupportedCodes (code : BitVec 5) :
    code.toNat ∈ unsupportedCodes ↔
      chunkDest (chunkKind code) = none ∧ chunkKind code ≠ .code ∧ chunkKind code ≠ .defaultChunk ∧
        chunkKind code ≠ .screen := by
  revert code
  decide

/-- A round of the builder's loop fails exactly on a chunk in error, with that error (R141, R143). -/
theorem buildChunk_eq_error {p : Params} {ch : Chunk} {m : Memory} {prog : List Byte} {e : ErrorName} :
    buildChunk p ch m prog = .error e ↔ chunkError ch = some e := by
  have hu := mem_unsupportedCodes ch.code
  have hc := chunkKind_eq_code ch.code
  unfold buildChunk chunkError
  cases hd : chunkDest (chunkKind ch.code) with
  | some d => cases hk : chunkKind ch.code <;> simp_all [chunkDest]
  | none => cases hk : chunkKind ch.code <;> cases hv : validUtf8 ch.payload <;> simp_all

/-- All that a successful round of the builder's loop can do (R138). -/
theorem buildChunk_cases {p : Params} {ch : Chunk} {m m' : Memory} {prog prog' : List Byte}
    (h : buildChunk p ch m prog = .ok (m', prog')) :
    (∃ base cap, chunkDest (chunkKind ch.code) = some (base, cap) ∧
      m' = memWrite p m base (ch.payload.take (min ch.size.toNat cap)) ∧ prog' = prog) ∨
    (chunkKind ch.code = .code ∧ validUtf8 ch.payload = true ∧ m' = m ∧ prog' = ch.payload) ∨
    ((chunkKind ch.code = .defaultChunk ∨ chunkKind ch.code = .screen) ∧ m' = m ∧ prog' = prog) := by
  unfold buildChunk at h
  split at h
  · rename_i base cap hd
    simp only [Except.ok.injEq, Prod.mk.injEq] at h
    exact .inl ⟨base, cap, hd, h.1.symm, h.2.symm⟩
  · split at h
    · rename_i hk
      split at h
      · rename_i hv
        simp only [Except.ok.injEq, Prod.mk.injEq] at h
        exact .inr (.inl ⟨hk, hv, h.1.symm, h.2.symm⟩)
      · cases h
    · rename_i hk
      simp only [Except.ok.injEq, Prod.mk.injEq] at h
      exact .inr (.inr ⟨.inl hk, h.1.symm, h.2.symm⟩)
    · rename_i hk
      simp only [Except.ok.injEq, Prod.mk.injEq] at h
      exact .inr (.inr ⟨.inr hk, h.1.symm, h.2.symm⟩)
    · cases h

/-- What every copy keeps of the image, and every valid text has, a successful build has: the induction over the
builder's loop, once. -/
theorem buildChunks_keeps {p : Params} {P : Memory → Prop} {Q : List Byte → Prop}
    (copy : ∀ kind base cap v m, chunkDest kind = some (base, cap) → v.length ≤ cap → P m → P (memWrite p m base v))
    (text : ∀ v, validUtf8 v = true → Q v) {chunks : List Chunk} {m m' : Memory} {prog prog' : List Byte}
    (hm : P m) (hp : Q prog) (h : buildChunks p chunks m prog = .ok (m', prog')) : P m' ∧ Q prog' := by
  induction chunks generalizing m prog with
  | nil =>
    simp only [buildChunks, Except.ok.injEq, Prod.mk.injEq] at h
    exact ⟨h.1 ▸ hm, h.2 ▸ hp⟩
  | cons ch rest ih =>
    unfold buildChunks at h
    split at h
    · rename_i m1 prog1 h1
      rcases buildChunk_cases h1 with ⟨base, cap, hd, rfl, rfl⟩ | ⟨-, hv, rfl, rfl⟩ | ⟨-, rfl, rfl⟩
      · exact ih (copy _ base cap _ m hd (by rw [List.length_take]; omega) hm) hp h
      · exact ih hm (text _ hv) h
      · exact ih hm hp h
    · cases h

/-- A byte of the seeded image: DEFAULT_FONT in the font region, the byte copied there elsewhere (R138, R145). -/
theorem arenaGet_seedFont (p : Params) (m : Memory) (a : Nat) :
    arenaGet p (seedFont m) a =
      if fontBase ≤ a ∧ a < fontBase + fontSize then arenaUnlisted p a else arenaGet p m a :=
  Memory.read_restore _ m _ _ a

/-- The parts of a successful build (R138). -/
theorem buildImage_eq_ok {p : Params} {chunks : List Chunk} {img : Image} (h : buildImage p chunks = .ok img) :
    ∃ m prog, buildChunks p chunks [] [] = .ok (m, prog) ∧ img.mem = seedFont m ∧ img.prog = prog ∧
      img.met = metrics p (seedFont m) := by
  unfold buildImage at h
  split at h
  · rename_i m prog hb
    simp only [Except.ok.injEq] at h
    exact ⟨m, prog, hb, by rw [← h], by rw [← h], by rw [← h]⟩
  · cases h

/-- The parts of a successful decode and build (R146). -/
theorem loadImage_eq_ok {p : Params} {bytes : List Byte} {img : Image} (h : loadImage p bytes = .ok img) :
    ∃ chunks, decodeCart bytes = .ok chunks ∧ buildImage p chunks = .ok img := by
  unfold loadImage at h
  split at h
  · rename_i chunks hd
    exact ⟨chunks, hd, h⟩
  · cases h

/-- A built image is in canonical form, lists arena addresses only, and its program text is valid UTF-8. -/
theorem buildImage_wf {p : Params} {chunks : List Chunk} {img : Image} (h : buildImage p chunks = .ok img) :
    Memory.wf (arenaUnlisted p) img.mem ∧ Memory.below arenaSize img.mem ∧ validUtf8 img.prog = true := by
  obtain ⟨m, prog, hb, h1, h2, -⟩ := buildImage_eq_ok h
  have hk := buildChunks_keeps (p := p)
    (P := fun m => Memory.wf (arenaUnlisted p) m ∧ Memory.below arenaSize m) (Q := fun v => validUtf8 v = true)
    (fun kind base cap v m hd hl hm =>
      ⟨memWrite_wf v hm.1 base, memWrite_below v hm.2 (by have := (chunkDest_range hd).1; omega)⟩)
    (fun v hv => hv) ⟨Memory.wf_nil _, fun _ hc => absurd hc List.not_mem_nil⟩ rfl hb
  rw [h1, h2]
  exact ⟨Memory.wf_restore hk.1.1 _ _, Memory.below_restore hk.1.2 _ _, hk.2⟩

/-- The fields of a record header are read back from its bytes (R98, R99, R135). -/
theorem chunk_header (ch : Chunk) :
    (ch.bank ++ ch.code).extractLsb' 0 5 = ch.code ∧ (ch.bank ++ ch.code).extractLsb' 5 3 = ch.bank ∧
      chunkSize (ch.size.extractLsb' 0 8) (ch.size.extractLsb' 8 8) = ch.size := by
  refine ⟨?_, ?_, ?_⟩ <;> apply BitVec.eq_of_getLsbD_eq <;> intro i hi
  · rw [BitVec.getLsbD_extractLsb', BitVec.getLsbD_append]
    simp [hi]
  · rw [BitVec.getLsbD_extractLsb', BitVec.getLsbD_append]
    simp [hi]
  · unfold chunkSize
    interval_cases i <;> simp

end Sys2Proof.Machine
end

