-- ==== Sys2Proof/Laws/Codec.lean ====
section
/-! SUPPORT. The small lemmas of the decoder and the encoder: one per operand kind. -/

namespace Sys2Proof

@[simp] theorem slotOf_code (a : SlotId) : slotOf a.code = a := by cases a <;> decide

@[simp] theorem variantOf_code (v : Variant) : variantOf v.code = v := by cases v <;> decide

@[simp] theorem Variant.code_shift (v : Variant) : v.code >>> 1 = 0 := by cases v <;> decide

@[simp] theorem flagOf_bitOf (b : Bool) : flagOf (bitOf b) = b := by cases b <;> decide

/-- The opcode of each number is the opcode with that number (R93). -/
@[simp] theorem opcodeOf_code (o : Opcode) : opcodeOf o.code = some o := by cases o <;> decide

/-- X and Y hold every s16 (R92). -/
theorem toInt_ofInt16 {v : Int} (h : FitsS16 v) : (BitVec.ofInt 16 v).toInt = v := by
  rw [BitVec.toInt_ofInt]
  unfold Int.bmod
  dsimp only
  split <;> omega

/-- IMM holds every u32. -/
theorem toNat_ofNat32 {v : Nat} (h : FitsU32 v) : (BitVec.ofNat 32 v).toNat = v := by
  simp only [BitVec.toNat_ofNat]
  omega

/-- WD and HT hold every u16. -/
theorem toNat_ofNat16 {v : Nat} (h : FitsU16 v) : (BitVec.ofNat 16 v).toNat = v := by
  simp only [BitVec.toNat_ofNat]
  omega

/-- C holds every u4. -/
theorem toNat_ofNat4 {v : Nat} (h : FitsU4 v) : (BitVec.ofNat 4 v).toNat = v := by
  simp only [BitVec.toNat_ofNat]
  omega

/-- A scale in IMM[7:0] leaves IMM[31:8] zero and reads back. -/
theorem scale_field {v : Nat} (h : FitsU8 v) :
    BitVec.ofNat 32 v >>> 8 = 0 ∧ ((BitVec.ofNat 32 v).extractLsb' 0 8).toNat = v := by
  constructor
  · apply BitVec.eq_of_toNat_eq
    simp only [BitVec.toNat_ushiftRight, BitVec.toNat_ofNat, Nat.shiftRight_eq_div_pow]
    show v % 2 ^ 32 / 2 ^ 8 = 0
    omega
  · simp only [BitVec.extractLsb'_toNat, BitVec.toNat_ofNat, Nat.shiftRight_eq_div_pow]
    omega

/-- A byte in IMM[7:0] leaves IMM[31:8] zero and reads back. -/
theorem byte_field (b : Byte) : (b.setWidth 32) >>> 8 = 0 ∧ (b.setWidth 32).extractLsb' 0 8 = b := by
  constructor <;> apply BitVec.eq_of_getLsbD_eq <;> intro i hi
  · simp
  · simp only [BitVec.getLsbD_extractLsb', BitVec.getLsbD_setWidth]
    have h0 : i < 32 := by omega
    simp [hi, h0]

/-- A byte in WD[7:0] leaves WD[15:8] zero and reads back. -/
theorem data_field (b : Byte) : (b.setWidth 16) >>> 8 = 0 ∧ (b.setWidth 16).extractLsb' 0 8 = b := by
  constructor <;> apply BitVec.eq_of_getLsbD_eq <;> intro i hi
  · simp
  · simp only [BitVec.getLsbD_extractLsb', BitVec.getLsbD_setWidth]
    have h0 : i < 16 := by omega
    simp [hi, h0]

/-- A button index in IMM[4:0] leaves IMM[31:5] zero and reads back. -/
theorem button_field (b : BitVec 5) : (b.setWidth 32) >>> 5 = 0 ∧ (b.setWidth 32).extractLsb' 0 5 = b := by
  constructor <;> apply BitVec.eq_of_getLsbD_eq <;> intro i hi
  · simp
  · simp only [BitVec.getLsbD_extractLsb', BitVec.getLsbD_setWidth]
    have h0 : i < 32 := by omega
    simp [hi, h0]

/-- The mouse operands in IMM[18:0] leave IMM[31:19] zero and read back. -/
theorem mouse_field (mx my : Byte) (mb : BitVec 3) :
    ((mb ++ my ++ mx).setWidth 32) >>> 19 = 0 ∧ ((mb ++ my ++ mx).setWidth 32).extractLsb' 0 8 = mx ∧
      ((mb ++ my ++ mx).setWidth 32).extractLsb' 8 8 = my ∧ ((mb ++ my ++ mx).setWidth 32).extractLsb' 16 3 = mb := by
  refine ⟨?_, ?_, ?_, ?_⟩ <;> apply BitVec.eq_of_getLsbD_eq <;> intro i hi
  · simp
  · simp only [BitVec.getLsbD_extractLsb', BitVec.getLsbD_setWidth, BitVec.getLsbD_append]
    have h0 : i < 32 := by omega
    simp [hi, h0]
  · simp only [BitVec.getLsbD_extractLsb', BitVec.getLsbD_setWidth, BitVec.getLsbD_append]
    have h0 : 8 + i < 32 := by omega
    have h1 : ¬ 8 + i < 8 := by omega
    have h2 : 8 + i - 8 = i := by omega
    simp [hi, h0]
  · simp only [BitVec.getLsbD_extractLsb', BitVec.getLsbD_setWidth, BitVec.getLsbD_append]
    have h0 : 16 + i < 32 := by omega
    have h1 : ¬ 16 + i < 8 := by omega
    have h2 : ¬ 16 + i - 8 < 8 := by omega
    have h3 : 16 + i - 8 - 8 = i := by omega
    simp [hi, h0, h1, h2, h3]

/-- The field layout of R91 is read back from the command it packs. -/
@[simp] theorem unpackFields_packFields (f : Fields) : unpackFields (packFields f) = f := by
  obtain ⟨op, sa, sb, c, k, key, hf, vf, rsv, x, y, wd, ht, imm⟩ := f
  simp only [unpackFields, packFields, Fields.mk.injEq]
  refine ⟨?_, ?_, ?_, ?_, ?_, ?_, ?_, ?_, ?_, ?_, ?_, ?_, ?_, ?_⟩ <;> apply BitVec.eq_of_getLsbD_eq <;>
    intro i hi <;> rw [BitVec.getLsbD_extractLsb'] <;> simp only [hi, decide_true, Bool.true_and] <;>
    simp only [BitVec.getLsbD_append] <;> simp (disch := omega) only [if_neg, if_pos] <;> congr 1 <;> omega

/-- The fields of R91 are all the bits of a command. -/
@[simp] theorem packFields_unpackFields (cmd : Command) : packFields (unpackFields cmd) = cmd := by
  apply BitVec.eq_of_getLsbD_eq
  intro i hi
  simp only [unpackFields, packFields, BitVec.getLsbD_append, BitVec.getLsbD_extractLsb']
  interval_cases i <;> simp

/-- The port order of R90 is read back from the bytes of a command. -/
@[simp] theorem commandOfBytes_bytesOfCommand (cmd : Command) : commandOfBytes (bytesOfCommand cmd) = some cmd := by
  simp only [commandOfBytes, bytesOfCommand, wordOfBytes, List.range, List.range.loop, List.map, Option.some.injEq]
  apply BitVec.eq_of_getLsbD_eq
  intro i hi
  simp only [BitVec.getLsbD_append, BitVec.getLsbD_extractLsb']
  interval_cases i <;> simp

end Sys2Proof
end

