-- ==== Sys2Proof/Laws/Metrics.lean ====
section
/-! SUPPORT. What the metrics computation gives, entry by entry (42_atlas.md R225, R226). -/

namespace Sys2Proof.Machine

/-- An entry of the computed table is the metrics of its glyph (R226). -/
@[simp] theorem metricAt_metrics (p : Params) (m : Memory) (v : Variant) (c : Fin 128) :
    metricAt (metrics p m) v c = glyphMetrics p m v c := by
  cases v <;> simp [metricAt, metrics]

/-- Two tables with the same entries are the same. -/
theorem MetricTable.ext_metricAt {t u : MetricTable} (h : ∀ v c, metricAt t v c = metricAt u v c) : t = u := by
  obtain ⟨tn, ta⟩ := t
  obtain ⟨un, ua⟩ := u
  have h1 : tn = un := Vector.ext fun i hi => h .normal ⟨i, hi⟩
  have h2 : ta = ua := Vector.ext fun i hi => h .alternate ⟨i, hi⟩
  rw [h1, h2]

/-- The space's entry is the fixed width, whatever the font holds (R225, R226). -/
theorem glyphMetrics_space (p : Params) (m : Memory) (v : Variant) :
    glyphMetrics p m v 32 = { adv := BitVec.ofNat 4 (spaceWidth p v), lpad := 0 } := by
  simp [glyphMetrics]

/-- The least set bit: it is set, and no lower one is. -/
theorem lowestBit_eq_some {col : Byte} {k : Nat} :
    lowestBit col = some k ↔ k < 8 ∧ col.getLsbD k = true ∧ ∀ j < k, col.getLsbD j = false := by
  unfold lowestBit
  rw [List.find?_range_eq_some]
  simp only [List.mem_range]
  constructor
  · rintro ⟨h1, h2, h3⟩
    exact ⟨h2, h1, fun j hj => by simpa using h3 j hj⟩
  · rintro ⟨h1, h2, h3⟩
    exact ⟨h2, h1, fun j hj => by simp [h3 j hj]⟩

/-- Pads and advance width of every byte of columns are 0 to 8. -/
theorem glyphPads_le (col : Byte) : (glyphPads col).1 ≤ 8 ∧ (glyphPads col).2 ≤ 8 := by
  revert col
  decide +kernel

/-- Every entry computed is 0 to 8 (R225). -/
theorem glyphMetrics_le (p : Params) (m : Memory) (v : Variant) (c : Nat) :
    (glyphMetrics p m v c).adv ≤ 8 ∧ (glyphMetrics p m v c).lpad ≤ 8 := by
  unfold glyphMetrics
  split
  · have h : spaceWidth p v < 9 := by cases v <;> exact Fin.isLt _
    refine ⟨?_, by simp⟩
    rw [BitVec.le_def, BitVec.toNat_ofNat, show (8 : Nibble).toNat = 8 from rfl]
    omega
  · have h := glyphPads_le (glyphColumns p m v c)
    constructor <;>
    · rw [BitVec.le_def, BitVec.toNat_ofNat, show (8 : Nibble).toNat = 8 from rfl]
      omega

end Sys2Proof.Machine
end

