-- ==== Sys2Proof/Laws/Surface.lean ====
section
/-! SUPPORT. What the pixel primitives do, bit by bit (41_pixel.md R171 to R173). -/

namespace Sys2Proof.Machine

/-- A bit of the depth's mask (R171). -/
@[simp] theorem Depth.getLsbD_mask (d : Depth) (k : Nat) : d.mask.getLsbD k = decide (k < d.bits) := by
  cases d
  · rcases k with _ | k
    · rfl
    · simp [Depth.mask, Depth.bits, BitVec.getLsbD_one]
  · by_cases hk : k < 8
    · interval_cases k <;> rfl
    · have h2 : ¬k < 4 := by omega
      simp [Depth.bits, h2, BitVec.getLsbD_of_ge _ _ (by omega : 8 ≤ k)]

theorem Depth.bits_le (d : Depth) : d.bits ≤ 4 := by cases d <;> decide

theorem Depth.bits_pos (d : Depth) : 0 < d.bits := by cases d <;> decide

/-- All that replacing a lane of a byte does: the lane's bits are those of the value, every other bit is kept. -/
theorem getLsbD_laneSet (b : Byte) (d : Depth) (sh : Nat) (v : Nibble) (k : Nat) (hk : k < 8) :
    (laneSet b d.mask sh v).getLsbD k = if sh ≤ k ∧ k < sh + d.bits then v.getLsbD (k - sh) else b.getLsbD k := by
  simp only [laneSet, BitVec.getLsbD_or, BitVec.getLsbD_and, BitVec.getLsbD_not, BitVec.getLsbD_shiftLeft,
    Depth.getLsbD_mask, BitVec.getLsbD_setWidth, hk, decide_true, Bool.true_and]
  by_cases h1 : k < sh
  · have : ¬ sh ≤ k := by omega
    simp [h1, this]
  · have h2 : sh ≤ k := by omega
    by_cases h3 : k < sh + d.bits
    · have h4 : k - sh < d.bits := by omega
      have h5 : k - sh < 8 := by omega
      simp [h1, h2, h3, h4, h5]
    · have h4 : ¬ k - sh < d.bits := by omega
      simp [h1, h2, h3, h4]

/-- A bit of the pixel read by GetPix is the bit of the byte that holds it (R172). -/
theorem getLsbD_getPix (p : Params) (m : Memory) (S : Surface) (x : Fin S.w) (y : Fin S.h) (i : Nat) :
    (getPix p m S x y).getLsbD i =
      (decide (i < S.bpp.bits) && (arenaGet p m (pixByte S x y)).getLsbD (pixShift S x y + i)) := by
  have hb := S.bpp.bits_le
  simp only [getPix, BitVec.getLsbD_setWidth, BitVec.getLsbD_and, BitVec.getLsbD_ushiftRight, Depth.getLsbD_mask]
  by_cases h : i < S.bpp.bits
  · have : i < 4 := by omega
    simp [h, this]
  · simp [h]

/-- A pixel never straddles two bytes (R171). -/
theorem pixShift_le (S : Surface) (x y : Nat) : pixShift S x y + S.bpp.bits ≤ 8 := by
  unfold pixShift bitOffset
  cases S.bpp <;> simp only [Depth.bits] <;> omega

/-- The row-major index of a pixel on the surface is less than the number of pixels (R184). -/
theorem linear_lt {w h x y : Nat} (hx : x < w) (hy : y < h) : x + y * w < w * h := by
  have : (y + 1) * w ≤ h * w := Nat.mul_le_mul_right w hy
  rw [Nat.add_mul, Nat.one_mul, Nat.mul_comm h w] at this
  omega

/-- Two pixels of a surface with one row-major index are one pixel (R184). -/
theorem linear_inj {w x y x' y' : Nat} (hx : x < w) (hx' : x' < w) (h : x + y * w = x' + y' * w) : x = x' ∧ y = y' := by
  have h1 : (x + y * w) % w = (x' + y' * w) % w := by rw [h]
  rw [Nat.add_mul_mod_self_right, Nat.add_mul_mod_self_right, Nat.mod_eq_of_lt hx, Nat.mod_eq_of_lt hx'] at h1
  refine ⟨h1, ?_⟩
  subst h1
  have h2 : y * w = y' * w := by omega
  exact Nat.eq_of_mul_eq_mul_right (by omega) h2

/-- The byte that holds a pixel of the surface lies in its extent (R171). -/
theorem pixByte_lt (S : Surface) {x y : Nat} (hx : x < S.w) (hy : y < S.h) : pixByte S x y < S.base + S.extent := by
  have := linear_lt hx hy
  unfold pixByte bitOffset Surface.extent
  cases S.bpp <;> simp only [Depth.bits] <;> omega

/-- No pixel of a legal surface lies outside the arena (R66, R171). -/
theorem pixByte_lt_arenaSize {S : Surface} (h : S.Legal) {x y : Nat} (hx : x < S.w) (hy : y < S.h) :
    pixByte S x y < arenaSize := Nat.lt_of_lt_of_le (pixByte_lt S hx hy) h

/-- Bit `k` of arena byte `a` is a bit of the pixel with row-major index `n` (R184). -/
def Surface.LinearBit (S : Surface) (n a k : Nat) : Prop :=
  S.base ≤ a ∧ (8 * (a - S.base) + k) / S.bpp.bits = n

/-- The bits of a pixel are the lane of its byte (R171, R184). -/
theorem Surface.linearBit_iff (S : Surface) (x y a k : Nat) (hk : k < 8) :
    S.LinearBit (x + y * S.w) a k ↔
      a = pixByte S x y ∧ pixShift S x y ≤ k ∧ k < pixShift S x y + S.bpp.bits := by
  unfold Surface.LinearBit pixByte pixShift bitOffset
  cases S.bpp <;> simp only [Depth.bits] <;> omega

theorem setPix_of_contains {p : Params} {S : Surface} {x y : Int} {v : Nibble} {m : Memory} (h : S.Contains x y) :
    setPix p S x y v m =
      arenaSet p m (pixByte S x.toNat y.toNat)
        (laneSet (arenaGet p m (pixByte S x.toNat y.toNat)) S.bpp.mask (pixShift S x.toNat y.toNat) v) := by
  unfold setPix
  rw [if_pos h]

/-- Off the surface SetPix is a no-op (R173). -/
theorem setPix_of_not_contains {p : Params} {S : Surface} {x y : Int} {v : Nibble} {m : Memory}
    (h : ¬S.Contains x y) : setPix p S x y v m = m := by
  unfold setPix
  rw [if_neg h]

/-- All that SetPix does, bit by bit: on the surface the pixel's bits take the value's, and nothing else changes; off
the surface nothing changes (R173). -/
theorem getLsbD_setPix (p : Params) (S : Surface) (x y : Int) (v : Nibble) (m : Memory) (a k : Nat) (hk : k < 8)
    [Decidable (S.Contains x y ∧ S.LinearBit (x.toNat + y.toNat * S.w) a k)] :
    (arenaGet p (setPix p S x y v m) a).getLsbD k =
      if S.Contains x y ∧ S.LinearBit (x.toNat + y.toNat * S.w) a k then
        v.getLsbD (k - pixShift S x.toNat y.toNat)
      else (arenaGet p m a).getLsbD k := by
  by_cases hc : S.Contains x y
  · rw [setPix_of_contains hc, arenaGet_arenaSet]
    have hbit := S.linearBit_iff x.toNat y.toNat a k hk
    by_cases ha : a = pixByte S x.toNat y.toNat
    · subst ha
      rw [if_pos rfl, getLsbD_laneSet _ _ _ _ _ hk]
      by_cases hl : pixShift S x.toNat y.toNat ≤ k ∧ k < pixShift S x.toNat y.toNat + S.bpp.bits
      · rw [if_pos hl, if_pos ⟨hc, hbit.2 ⟨rfl, hl⟩⟩]
      · rw [if_neg hl, if_neg fun h => hl (hbit.1 h.2).2]
    · rw [if_neg ha, if_neg fun h => ha (hbit.1 h.2).1]
  · rw [setPix_of_not_contains hc, if_neg fun h => hc h.1]

/-- SetPix leaves every byte but the pixel's (R173). -/
theorem arenaGet_setPix_of_ne (p : Params) (S : Surface) (x y : Int) (v : Nibble) (m : Memory) (a : Nat)
    (h : S.Contains x y → a ≠ pixByte S x.toNat y.toNat) : arenaGet p (setPix p S x y v m) a = arenaGet p m a := by
  by_cases hc : S.Contains x y
  · rw [setPix_of_contains hc, arenaGet_arenaSet, if_neg (h hc)]
  · rw [setPix_of_not_contains hc]

/-- The set/get law of R173: the pixel written reads as the value, masked to the depth, and every other pixel of the
surface as before. -/
theorem getPix_setPix (p : Params) (S : Surface) (x y : Int) (v : Nibble) (m : Memory) (x' : Fin S.w) (y' : Fin S.h) :
    getPix p (setPix p S x y v m) S x' y' =
      if x = x' ∧ y = y' then v &&& S.bpp.mask.setWidth 4 else getPix p m S x' y' := by
  have hb := S.bpp.bits_le
  apply BitVec.eq_of_getLsbD_eq
  intro i hi
  classical
  rw [getLsbD_getPix]
  have hs := pixShift_le S x' y'
  by_cases hib : i < S.bpp.bits
  · rw [getLsbD_setPix _ _ _ _ _ _ _ _ (by omega)]
    have hit : S.LinearBit (↑x' + ↑y' * S.w) (pixByte S x' y') (pixShift S x' y' + i) :=
      (S.linearBit_iff _ _ _ _ (by omega)).2 ⟨rfl, by omega, by omega⟩
    by_cases hxy : x = x' ∧ y = y'
    · obtain ⟨rfl, rfl⟩ := hxy
      have hc : S.Contains (x' : Nat) (y' : Nat) := by
        have := x'.2; have := y'.2; omega
      rw [if_pos ⟨hc, hit⟩, if_pos ⟨rfl, rfl⟩]
      have : i < 8 := by omega
      simp [hib, hi]
    · rw [if_neg hxy, if_neg, getLsbD_getPix]
      rintro ⟨hc, h⟩
      have h2 := h.2.symm.trans hit.2
      have := x'.2
      have hx := linear_inj (by omega) (by omega) h2
      omega
  · by_cases hxy : x = x' ∧ y = y'
    · simp [hib, hxy]
    · rw [if_neg hxy, getLsbD_getPix]; simp [hib]

/-- SetPix on a legal surface keeps the canonical form of the arena, and lists arena addresses only. -/
theorem setPix_wf {p : Params} {S : Surface} {m : Memory} (h : Memory.wf (arenaUnlisted p) m) (x y : Int) (v : Nibble) :
    Memory.wf (arenaUnlisted p) (setPix p S x y v m) := by
  unfold setPix
  split
  · exact arenaSet_wf h _ _
  · exact h

theorem setPix_below {p : Params} {S : Surface} {m : Memory} (hS : S.Legal) (h : Memory.below arenaSize m) (x y : Int)
    (v : Nibble) : Memory.below arenaSize (setPix p S x y v m) := by
  unfold setPix
  split
  · rename_i hc
    exact arenaSet_below h (pixByte_lt_arenaSize hS (by omega) (by omega)) _
  · exact h

/-- What holds of the arena at the start, and of every arena after a pixel is set if it held before, holds after a
loop of SetPix calls: the induction over a drawing loop, once. -/
theorem fold_keeps {n : Nat} {P : Memory → Prop} {f : (i : Nat) → i < n → Memory → Memory} {m : Memory} (h : P m)
    (step : ∀ i hi m, P m → P (f i hi m)) : P (Nat.fold n f m) := by
  induction n with
  | zero => simpa using h
  | succ n ih =>
    rw [Nat.fold_succ]
    exact step _ _ _ (ih fun i hi m => step i (by omega) m)

end Sys2Proof.Machine
end

