-- ==== Sys2Proof/Laws/Operands.lean ====
section
/-! SUPPORT. What the operand forms do: surface operands, map cells, buttons and the packed scroll deltas. -/

namespace Sys2Proof.Machine

/-- On a legal slot a surface command runs on the surface the slot holds. -/
theorem State.onSurface_of_legal {s : State} {a : SlotId} {k : Surface → Result} (h : (s.slot a).Legal) :
    s.onSurface a k = k (s.slot a) := if_pos h

/-- On an illegal slot, which no run reaches, a surface command faults. -/
theorem State.onSurface_of_illegal {s : State} {a : SlotId} {k : Surface → Result} (h : ¬(s.slot a).Legal) :
    s.onSurface a k = .fault .illegalSlot := if_neg h

/-- All that a surface command can do: it answers a next state only on a legal slot, and then its own. -/
theorem State.onSurface_eq_next {s t : State} {a : SlotId} {k : Surface → Result} :
    s.onSurface a k = .next t ↔ (s.slot a).Legal ∧ k (s.slot a) = .next t := by
  unfold State.onSurface
  split <;> simp_all

/-- The address of a map cell, and when there is one (R230, R231). -/
theorem mapAddr_eq_some {x y : Int} {a : Nat} :
    mapAddr x y = some a ↔ (0 ≤ x ∧ x < 240 ∧ 0 ≤ y ∧ y < 136) ∧ a = mapBase + 240 * y.toNat + x.toNat := by
  simp only [mapAddr, mapWidth, mapHeight]
  split <;> rename_i h
  · simp only [Option.some.injEq]
    exact ⟨fun e => ⟨by omega, by omega⟩, fun e => by omega⟩
  · simp only [reduceCtorEq, false_iff]
    omega

theorem mapAddr_eq_none {x y : Int} : mapAddr x y = none ↔ ¬(0 ≤ x ∧ x < 240 ∧ 0 ≤ y ∧ y < 136) := by
  simp only [mapAddr, mapWidth, mapHeight]
  split <;> rename_i h
  · simp only [reduceCtorEq, false_iff]; omega
  · simp only [true_iff]; omega

/-- A map cell is an arena byte (R61). -/
theorem mapAddr_lt {x y : Int} {a : Nat} (h : mapAddr x y = some a) : a < arenaSize := by
  obtain ⟨h, rfl⟩ := mapAddr_eq_some.1 h
  simp only [mapBase, arenaSize]
  omega

/-- A button's latch byte is one of the four gamepad bytes (R260). -/
theorem buttonAddr_eq (i : BitVec 5) : buttonAddr i = gamepadBase + i.toNat / 8 := by
  unfold buttonAddr
  simp only [BitVec.extractLsb'_toNat, Nat.shiftRight_eq_div_pow]
  omega

/-- A button's bit (R261). -/
theorem buttonBit_eq (i : BitVec 5) : buttonBit i = i.toNat % 8 := by
  unfold buttonBit
  simp [BitVec.extractLsb'_toNat]

theorem buttonAddr_lt (i : BitVec 5) : buttonAddr i < arenaSize := by
  rw [buttonAddr_eq]
  simp only [gamepadBase, arenaSize]
  omega

/-- Sign extension by shifting up and arithmetically down (R266). -/
theorem unpack6_toInt (f : BitVec 6) : (unpack6 f).toInt = f.toInt := by
  revert f
  decide +kernel

/-- Every value in range is packed verbatim (R265). -/
theorem pack6_toInt {v : Int} (h : -32 ≤ v ∧ v ≤ 31) : (pack6 v).toInt = v := by
  unfold pack6
  rw [BitVec.toInt_ofInt]
  unfold Int.bmod
  dsimp only
  split <;> omega

/-- The horizontal field read back from the bytes MOUSESET writes (R264). -/
theorem scrollFieldX_mouseBytes (mb : BitVec 3) (fx fy : BitVec 6) :
    scrollFieldX (mouseByte2 mb fx) (mouseByte3 fx fy) = fx := by
  apply BitVec.eq_of_getLsbD_eq
  intro i hi
  interval_cases i <;> simp [scrollFieldX, mouseByte2, mouseByte3]

/-- The vertical field read back from byte 3 (R264). -/
theorem scrollFieldY_mouseByte3 (fx fy : BitVec 6) : scrollFieldY (mouseByte3 fx fy) = fy := by
  revert fx fy
  decide +kernel

/-- The buttons read back from byte 2 (R264). -/
theorem mouseByte2_and (mb : BitVec 3) (fx : BitVec 6) : mouseByte2 mb fx &&& 0x07 = mb.setWidth 8 := by
  revert mb fx
  decide +kernel

theorem clampScroll_range (v : Int) : -32 ≤ clampScroll v ∧ clampScroll v ≤ 31 := by
  unfold clampScroll
  omega

end Sys2Proof.Machine
end

