-- ==== Sys2Proof/Laws/PerInstr.lean ====
section
/-! SUPPORT. The family FieldsRoundTrip, one lemma per constructor: the fields the encoder gives a well-formed command
are decoded to that command. -/

namespace Sys2Proof

/-- The fields of a well-formed command pass both checks of R94 and are read back as the command. -/
def Laws.FieldsRoundTrip.Statement (i : Instr) : Prop := i.WellFormed → i.fields.decode = .instr i

/-- A command's fields decode to it when no unused bit is set and its operands read back. -/
theorem Fields.decode_of {f : Fields} {i : Instr} (o : Opcode) (ho : f.op = o.code) (hu : f.unused o = Fields.zero)
    (hi : f.instr o = i) : f.decode = .instr i := by
  simp [Fields.decode, ho, hu, hi]

theorem Laws.FieldsRoundTrip.nop :
    Laws.FieldsRoundTrip.Statement .nop := by
  intro _
  refine Fields.decode_of .nop rfl ?_ ?_ <;>
    simp [Instr.fields, Fields.unused, Fields.instr, Fields.zero]

theorem Laws.FieldsRoundTrip.setsurf (a : SlotId) (base w ht bpp : Nat) :
    Laws.FieldsRoundTrip.Statement (.setsurf a base w ht bpp) := by
  intro h
  simp only [Instr.WellFormed, Instr.wellFormed, decide_eq_true_eq] at h
  refine Fields.decode_of .setsurf rfl ?_ ?_ <;>
    simp [Instr.fields, Fields.unused, Fields.instr, Fields.zero, toNat_ofNat32 h.1, toNat_ofNat16 h.2.1, toNat_ofNat16 h.2.2.1, toNat_ofNat4 h.2.2.2]

theorem Laws.FieldsRoundTrip.tilesurf (a : SlotId) (id : Nat) :
    Laws.FieldsRoundTrip.Statement (.tilesurf a id) := by
  intro h
  simp only [Instr.WellFormed, Instr.wellFormed, decide_eq_true_eq] at h
  refine Fields.decode_of .tilesurf rfl ?_ ?_ <;>
    simp [Instr.fields, Fields.unused, Fields.instr, Fields.zero, toNat_ofNat32 h]

theorem Laws.FieldsRoundTrip.glyphsurf (a : SlotId) (v : Variant) (code : Nat) :
    Laws.FieldsRoundTrip.Statement (.glyphsurf a v code) := by
  intro h
  simp only [Instr.WellFormed, Instr.wellFormed, decide_eq_true_eq] at h
  refine Fields.decode_of .glyphsurf rfl ?_ ?_ <;>
    simp [Instr.fields, Fields.unused, Fields.instr, Fields.zero, toNat_ofNat32 h]

theorem Laws.FieldsRoundTrip.pixset (a : SlotId) (x y : Int) (c : Nibble) :
    Laws.FieldsRoundTrip.Statement (.pixset a x y c) := by
  intro h
  simp only [Instr.WellFormed, Instr.wellFormed, decide_eq_true_eq] at h
  refine Fields.decode_of .pixset rfl ?_ ?_ <;>
    simp [Instr.fields, Fields.unused, Fields.instr, Fields.zero, toInt_ofInt16 h.1, toInt_ofInt16 h.2]

theorem Laws.FieldsRoundTrip.pixget (a : SlotId) (x y : Int) :
    Laws.FieldsRoundTrip.Statement (.pixget a x y) := by
  intro h
  simp only [Instr.WellFormed, Instr.wellFormed, decide_eq_true_eq] at h
  refine Fields.decode_of .pixget rfl ?_ ?_ <;>
    simp [Instr.fields, Fields.unused, Fields.instr, Fields.zero, toInt_ofInt16 h.1, toInt_ofInt16 h.2]

theorem Laws.FieldsRoundTrip.cls (a : SlotId) (c : Nibble) :
    Laws.FieldsRoundTrip.Statement (.cls a c) := by
  intro _
  refine Fields.decode_of .cls rfl ?_ ?_ <;>
    simp [Instr.fields, Fields.unused, Fields.instr, Fields.zero]

theorem Laws.FieldsRoundTrip.rect (a : SlotId) (x y : Int) (w ht : Nat) (c : Nibble) :
    Laws.FieldsRoundTrip.Statement (.rect a x y w ht c) := by
  intro h
  simp only [Instr.WellFormed, Instr.wellFormed, decide_eq_true_eq] at h
  refine Fields.decode_of .rect rfl ?_ ?_ <;>
    simp [Instr.fields, Fields.unused, Fields.instr, Fields.zero, toInt_ofInt16 h.1, toInt_ofInt16 h.2.1, toNat_ofNat16 h.2.2.1, toNat_ofNat16 h.2.2.2]

theorem Laws.FieldsRoundTrip.rectb (a : SlotId) (x y : Int) (w ht : Nat) (c : Nibble) :
    Laws.FieldsRoundTrip.Statement (.rectb a x y w ht c) := by
  intro h
  simp only [Instr.WellFormed, Instr.wellFormed, decide_eq_true_eq] at h
  refine Fields.decode_of .rectb rfl ?_ ?_ <;>
    simp [Instr.fields, Fields.unused, Fields.instr, Fields.zero, toInt_ofInt16 h.1, toInt_ofInt16 h.2.1, toNat_ofNat16 h.2.2.1, toNat_ofNat16 h.2.2.2]

theorem Laws.FieldsRoundTrip.blit (d s : SlotId) (x y : Int) (scale : Nat) (k : Bool) (key : Nibble) (hf vf : Bool) :
    Laws.FieldsRoundTrip.Statement (.blit d s x y scale k key hf vf) := by
  intro h
  simp only [Instr.WellFormed, Instr.wellFormed, decide_eq_true_eq] at h
  refine Fields.decode_of .blit rfl ?_ ?_ <;>
    simp [Instr.fields, Fields.unused, Fields.instr, Fields.zero, toInt_ofInt16 h.1, toInt_ofInt16 h.2.1, (scale_field h.2.2).1, (scale_field h.2.2).2]

theorem Laws.FieldsRoundTrip.torgba (a : SlotId) :
    Laws.FieldsRoundTrip.Statement (.torgba a) := by
  intro _
  refine Fields.decode_of .torgba rfl ?_ ?_ <;>
    simp [Instr.fields, Fields.unused, Fields.instr, Fields.zero]

theorem Laws.FieldsRoundTrip.mget (x y : Int) :
    Laws.FieldsRoundTrip.Statement (.mget x y) := by
  intro h
  simp only [Instr.WellFormed, Instr.wellFormed, decide_eq_true_eq] at h
  refine Fields.decode_of .mget rfl ?_ ?_ <;>
    simp [Instr.fields, Fields.unused, Fields.instr, Fields.zero, toInt_ofInt16 h.1, toInt_ofInt16 h.2]

theorem Laws.FieldsRoundTrip.mset (x y : Int) (id : Byte) :
    Laws.FieldsRoundTrip.Statement (.mset x y id) := by
  intro h
  simp only [Instr.WellFormed, Instr.wellFormed, decide_eq_true_eq] at h
  refine Fields.decode_of .mset rfl ?_ ?_ <;>
    simp [Instr.fields, Fields.unused, Fields.instr, Fields.zero, toInt_ofInt16 h.1, toInt_ofInt16 h.2, (byte_field id).1, (byte_field id).2]

theorem Laws.FieldsRoundTrip.palget (i : Nibble) :
    Laws.FieldsRoundTrip.Statement (.palget i) := by
  intro _
  refine Fields.decode_of .palget rfl ?_ ?_ <;>
    simp [Instr.fields, Fields.unused, Fields.instr, Fields.zero]

theorem Laws.FieldsRoundTrip.glyphmet (v : Variant) (code : Nat) :
    Laws.FieldsRoundTrip.Statement (.glyphmet v code) := by
  intro h
  simp only [Instr.WellFormed, Instr.wellFormed, decide_eq_true_eq] at h
  refine Fields.decode_of .glyphmet rfl ?_ ?_ <;>
    simp [Instr.fields, Fields.unused, Fields.instr, Fields.zero, toNat_ofNat32 h]

theorem Laws.FieldsRoundTrip.recompute :
    Laws.FieldsRoundTrip.Statement .recompute := by
  intro _
  refine Fields.decode_of .recompute rfl ?_ ?_ <;>
    simp [Instr.fields, Fields.unused, Fields.instr, Fields.zero]

theorem Laws.FieldsRoundTrip.btnset (i : BitVec 5) (pressed : Bool) :
    Laws.FieldsRoundTrip.Statement (.btnset i pressed) := by
  intro _
  refine Fields.decode_of .btnset rfl ?_ ?_ <;>
    simp [Instr.fields, Fields.unused, Fields.instr, Fields.zero, (button_field i).1, (button_field i).2]

theorem Laws.FieldsRoundTrip.btnget (i : BitVec 5) :
    Laws.FieldsRoundTrip.Statement (.btnget i) := by
  intro _
  refine Fields.decode_of .btnget rfl ?_ ?_ <;>
    simp [Instr.fields, Fields.unused, Fields.instr, Fields.zero, (button_field i).1, (button_field i).2]

theorem Laws.FieldsRoundTrip.mouseset (mx my : Byte) (mb : BitVec 3) (sx sy : Int) :
    Laws.FieldsRoundTrip.Statement (.mouseset mx my mb sx sy) := by
  intro h
  simp only [Instr.WellFormed, Instr.wellFormed, decide_eq_true_eq] at h
  refine Fields.decode_of .mouseset rfl ?_ ?_ <;>
    simp [Instr.fields, Fields.unused, Fields.instr, Fields.zero, toInt_ofInt16 h.1, toInt_ofInt16 h.2, (mouse_field mx my mb).1, (mouse_field mx my mb).2.1, (mouse_field mx my mb).2.2.1,
    (mouse_field mx my mb).2.2.2]

theorem Laws.FieldsRoundTrip.mousepos :
    Laws.FieldsRoundTrip.Statement .mousepos := by
  intro _
  refine Fields.decode_of .mousepos rfl ?_ ?_ <;>
    simp [Instr.fields, Fields.unused, Fields.instr, Fields.zero]

theorem Laws.FieldsRoundTrip.mousebtn :
    Laws.FieldsRoundTrip.Statement .mousebtn := by
  intro _
  refine Fields.decode_of .mousebtn rfl ?_ ?_ <;>
    simp [Instr.fields, Fields.unused, Fields.instr, Fields.zero]

theorem Laws.FieldsRoundTrip.scrollx :
    Laws.FieldsRoundTrip.Statement .scrollx := by
  intro _
  refine Fields.decode_of .scrollx rfl ?_ ?_ <;>
    simp [Instr.fields, Fields.unused, Fields.instr, Fields.zero]

theorem Laws.FieldsRoundTrip.scrolly :
    Laws.FieldsRoundTrip.Statement .scrolly := by
  intro _
  refine Fields.decode_of .scrolly rfl ?_ ?_ <;>
    simp [Instr.fields, Fields.unused, Fields.instr, Fields.zero]

theorem Laws.FieldsRoundTrip.memrd (addr : Nat) :
    Laws.FieldsRoundTrip.Statement (.memrd addr) := by
  intro h
  simp only [Instr.WellFormed, Instr.wellFormed, decide_eq_true_eq] at h
  refine Fields.decode_of .memrd rfl ?_ ?_ <;>
    simp [Instr.fields, Fields.unused, Fields.instr, Fields.zero, toNat_ofNat32 h]

theorem Laws.FieldsRoundTrip.memwr (addr : Nat) (data : Byte) :
    Laws.FieldsRoundTrip.Statement (.memwr addr data) := by
  intro h
  simp only [Instr.WellFormed, Instr.wellFormed, decide_eq_true_eq] at h
  refine Fields.decode_of .memwr rfl ?_ ?_ <;>
    simp [Instr.fields, Fields.unused, Fields.instr, Fields.zero, toNat_ofNat32 h, (data_field data).1, (data_field data).2]

theorem Laws.FieldsRoundTrip.load (len : Nat) :
    Laws.FieldsRoundTrip.Statement (.load len) := by
  intro h
  simp only [Instr.WellFormed, Instr.wellFormed, decide_eq_true_eq] at h
  refine Fields.decode_of .load rfl ?_ ?_ <;>
    simp [Instr.fields, Fields.unused, Fields.instr, Fields.zero, toNat_ofNat32 h]

theorem Laws.FieldsRoundTrip.stepbegin :
    Laws.FieldsRoundTrip.Statement .stepbegin := by
  intro _
  refine Fields.decode_of .stepbegin rfl ?_ ?_ <;>
    simp [Instr.fields, Fields.unused, Fields.instr, Fields.zero]

theorem Laws.FieldsRoundTrip.stepend :
    Laws.FieldsRoundTrip.Statement .stepend := by
  intro _
  refine Fields.decode_of .stepend rfl ?_ ?_ <;>
    simp [Instr.fields, Fields.unused, Fields.instr, Fields.zero]

theorem Laws.FieldsRoundTrip.clrstatus :
    Laws.FieldsRoundTrip.Statement .clrstatus := by
  intro _
  refine Fields.decode_of .clrstatus rfl ?_ ?_ <;>
    simp [Instr.fields, Fields.unused, Fields.instr, Fields.zero]

end Sys2Proof
end

