-- ==== Sys2Proof/Laws/Pixel.lean ====
section
/-! SUPPORT. What the drawing loops keep: whatever one SetPix keeps of the arena, each loop keeps (41_pixel.md R177 to
R180). -/

namespace Sys2Proof.Machine

section
variable {p : Params} {P : Memory → Prop}

theorem clearSurface_keeps {S : Surface} (set : ∀ x y v m, P m → P (setPix p S x y v m)) {m : Memory} (h : P m)
    (c : Nibble) : P (clearSurface p S c m) :=
  fold_keeps h fun _ _ _ h => fold_keeps h fun _ _ _ h => set _ _ _ _ h

theorem fillRect_keeps {S : Surface} (set : ∀ x y v m, P m → P (setPix p S x y v m)) {m : Memory} (h : P m)
    (x y : Int) (w ht : Nat) (c : Nibble) : P (fillRect p S x y w ht c m) := by
  unfold fillRect
  split
  · exact h
  · exact fold_keeps h fun _ _ _ h => fold_keeps h fun _ _ _ h => set _ _ _ _ h

theorem outlineRect_keeps {S : Surface} (set : ∀ x y v m, P m → P (setPix p S x y v m)) {m : Memory} (h : P m)
    (x y : Int) (w ht : Nat) (c : Nibble) : P (outlineRect p S x y w ht c m) := by
  unfold outlineRect
  split
  · exact h
  · exact fold_keeps (fold_keeps h fun _ _ _ h => set _ _ _ _ (set _ _ _ _ h))
      fun _ _ _ h => set _ _ _ _ (set _ _ _ _ h)

theorem blitBlock_keeps {D : Surface} (set : ∀ x y v m, P m → P (setPix p D x y v m)) {m : Memory} (h : P m)
    (x y : Int) (scale : Nat) (c : Nibble) : P (blitBlock p D x y scale c m) :=
  fold_keeps h fun _ _ _ h => fold_keeps h fun _ _ _ h => set _ _ _ _ h

theorem blitPixel_keeps {D S : Surface} (set : ∀ x y v m, P m → P (setPix p D x y v m)) {m : Memory} (h : P m)
    (x y : Int) (scale : Nat) (k : Bool) (key : Nibble) (hf vf : Bool) (i : Fin S.w) (j : Fin S.h) :
    P (blitPixel p D S x y scale k key hf vf i j m) := by
  unfold blitPixel
  dsimp only
  split
  · exact h
  · exact blitBlock_keeps set h _ _ _ _

/-- BLIT writes through SetPix on its destination only, whatever its source (R180, R181). -/
theorem blitSurface_keeps {D S : Surface} (set : ∀ x y v m, P m → P (setPix p D x y v m)) {m : Memory} (h : P m)
    (x y : Int) (scale : Nat) (k : Bool) (key : Nibble) (hf vf : Bool) :
    P (blitSurface p D S x y scale k key hf vf m) := by
  unfold blitSurface
  split
  · exact h
  · exact fold_keeps h fun _ _ _ h => fold_keeps h fun _ _ _ h => blitPixel_keeps set h _ _ _ _ _ _ _ _ _

end

/-- The length of RGBA_OUT after a TORGBA: four bytes for each pixel (R31, R183). -/
theorem length_rgbaSurface (p : Params) (m : Memory) (S : Surface) :
    (rgbaSurface p m S).length = 4 * S.w * S.h := by
  simp [rgbaSurface, rgbaPixel, List.length_flatMap]
  ring

/-- A flipped coordinate is mirrored, an unflipped one is itself (R180). -/
theorem flipIndex_val {n : Nat} (flip : Bool) (i : Fin n) :
    (flipIndex flip i : Nat) = if flip then n - 1 - i else i := by
  cases flip
  · rfl
  · simp only [flipIndex, if_true, Fin.val_rev]
    omega

end Sys2Proof.Machine
end

