-- ==== Sys2Proof/Laws/Step.lean ====
section
/-! SUPPORT. What finishing a command, raising an error and one step can do. -/

namespace Sys2Proof.Machine

/-- All that finishing a command can do: the same end, with the index advanced in a next state (R22). -/
theorem finishCommand_eq_next {r : Result} {t : State} :
    finishCommand r = .next t ↔ ∃ u, r = .next u ∧ t = u.advance := by
  cases r with
  | next u => simp [finishCommand, eq_comm]
  | fault f => simp [finishCommand]
  | refused f => simp [finishCommand]

/-- The error kept is the first (R331). -/
theorem State.raise_err_of_ne {s : State} (e : ErrorName) (h : s.err ≠ 0) : s.raise e = s := by
  cases s
  simp only [State.raise] at h ⊢
  rw [if_neg h]

theorem State.raise_err_of_eq {s : State} (e : ErrorName) (h : s.err = 0) : (s.raise e).err = errorCode e := by
  simp [h]

/-- Every error has a code of its own, from 1 to 7 (R332). -/
theorem errorCode_range (e : ErrorName) : 1 ≤ errorCode e ∧ errorCode e ≤ 7 := by cases e <;> decide

theorem errorCode_inj {e f : ErrorName} (h : errorCode e = errorCode f) : e = f := by
  cases e <;> cases f <;> simp_all [errorCode]

/-- The bytes of a command are 16. -/
@[simp] theorem length_bytesOfCommand (cmd : Command) : (bytesOfCommand cmd).length = 16 := by simp [bytesOfCommand]

/-- Bytes are a command when they are 16 (R97). -/
theorem commandOfBytes_eq_none {bytes : List Byte} : commandOfBytes bytes = none ↔ bytes.length ≠ 16 := by
  unfold commandOfBytes
  split
  · simp
  · rename_i h
    simp only [true_iff]
    intro hl
    match bytes, hl with
    | [b0, b1, b2, b3, b4, b5, b6, b7, b8, b9, b10, b11, b12, b13, b14, b15], _ =>
      exact h _ _ _ _ _ _ _ _ _ _ _ _ _ _ _ _ rfl

/-- All that one step can do when it answers a next state. -/
theorem step_cases {s t : State} (h : step s = .next t) :
    (∃ i u, decode s.fetchBytes = .instr i ∧ exec i s = .next u ∧ t = u.advance) ∨
    (decode s.fetchBytes = .illegalOpcode ∧ t = (s.raise .illegalOpcode).advance) ∨
    (decode s.fetchBytes = .reservedField ∧ t = (s.raise .reservedField).advance) ∨
    (decode s.fetchBytes = .incomplete ∧ t = s) := by
  unfold step at h
  split at h <;> rename_i hd
  · obtain ⟨u, hu, rfl⟩ := finishCommand_eq_next.1 h
    exact .inl ⟨_, u, hd, hu, rfl⟩
  · simp only [rejectCommand, finishCommand, Host.Outcome.next.injEq] at h
    exact .inr (.inl ⟨hd, h.symm⟩)
  · simp only [rejectCommand, finishCommand, Host.Outcome.next.injEq] at h
    exact .inr (.inr (.inl ⟨hd, h.symm⟩))
  · simp only [idle, Host.Outcome.next.injEq] at h
    exact .inr (.inr (.inr ⟨hd, h.symm⟩))

/-- The command stored by `placeCommand` is the one at its index. -/
theorem drop_placeCommand (commands : List Byte) (index : Nat) (bytes : List Byte) (h : bytes.length = 16) :
    ((placeCommand commands index bytes).drop (16 * index)).take 16 = bytes := by
  have hl : (commands.take (16 * index) ++ List.replicate (16 * index - commands.length) (0 : Byte)).length =
      16 * index := by
    simp only [List.length_append, List.length_take, List.length_replicate]
    omega
  unfold placeCommand
  rw [List.append_assoc, List.drop_left' hl, List.take_left' h]

/-- The next step fetches exactly the command that `withFetchWord` places. -/
theorem State.fetchBytes_withFetchWord (s : State) (nbits w : Nat) :
    (s.withFetchWord nbits w).fetchBytes = bytesOfCommand (BitVec.ofNat 128 (w % 2 ^ nbits)) :=
  drop_placeCommand s.commands s.index _ (length_bytesOfCommand _)

end Sys2Proof.Machine
end

