-- ==== Sys2Proof/Tests/Slice0.lean ====
section
/-! SUPPORT. Tests. Expected values come from spec/95_test_vectors.md, part and vector named in each docstring, or are
written out by hand from the rule named. Vectors take DEFAULT_FONT = 2048 zero bytes and SPACE_W = (3, 2), as that file
does. The last part shows, for each statement with hypotheses, a state and operands that meet them. -/

open Sys2Proof Sys2Proof.Machine

namespace Sys2Proof.Tests

set_option Elab.async false

/-! ### Helpers -/

def params : Params := ⟨16777216, Vector.replicate 2048 0, 3, 2⟩

/-- The state after reset, with a table of small metrics in place of the 256 computed ones. -/
def start : State :=
  { State.resetWith params [] with
    met := ⟨Vector.replicate 128 ⟨0, 8⟩, Vector.replicate 128 ⟨0, 8⟩⟩ }

/-- `start` with some arena bytes written. -/
def poked (cells : List (Nat × Byte)) : State := cells.foldl (fun s c => s.setByte c.1 c.2) start

/-- `start` with a cartridge. -/
def withCart (bytes : List Byte) : State := (poked [(0, 0x99)]).fillCart bytes

/-- Observe a next state. -/
def seen {α : Type} (r : Result) (f : State → α) : Option α :=
  match r with
  | .next t => some (f t)
  | .fault _ => none
  | .refused _ => none

/-- The arena bytes at the given addresses. -/
def bytesAt (as : List Nat) (s : State) : List Byte := as.map s.byte

def fourBit (base w h : Nat) : Surface := ⟨base, w, h, .bpp4⟩
def oneBit (base w h : Nat) : Surface := ⟨base, w, h, .bpp1⟩

/-! ### WellFormed: an ill-formed term for each check -/

theorem test_wf_s16_low : (Instr.pixset .s0 (-32769) 0 1).wellFormed = false := by decide
theorem test_wf_s16_high : (Instr.mget 0 32768).wellFormed = false := by decide
theorem test_wf_s16_scroll : (Instr.mouseset 0 0 0 32768 0).wellFormed = false := by decide
theorem test_wf_u16_width : (Instr.rect .s0 0 0 65536 1 1).wellFormed = false := by decide
theorem test_wf_u16_height : (Instr.rectb .s0 0 0 1 65536 1).wellFormed = false := by decide
theorem test_wf_u32 : (Instr.memrd 4294967296).wellFormed = false := by decide
theorem test_wf_u4 : (Instr.setsurf .s1 0 2 2 16).wellFormed = false := by decide
theorem test_wf_u8 : (Instr.blit .s0 .s1 0 0 256 false 0 false false).wellFormed = false := by decide
theorem test_wf_limits : (Instr.blit .s0 .s1 (-32768) 32767 255 true 15 true true).wellFormed = true := by decide

/-! ### Decode: a word written out for every constructor (R90 to R93; part 2.1 and the programs of part 3) -/

theorem test_decode_nop : decode (List.replicate 16 0) = .instr .nop := by decide

/-- By hand: SA 1, C 4, WD 2, HT 3, IMM 0x3FC0. -/
theorem test_decode_setsurf :
    decode [0x01, 0x41, 0, 0, 0, 0, 0, 0, 2, 0, 3, 0, 0xC0, 0x3F, 0, 0] = .instr (.setsurf .s1 0x3FC0 2 3 4) := by
  decide

/-- P1, command 2. -/
theorem test_decode_tilesurf :
    decode [0x02, 0x03, 0, 0, 0, 0, 0, 0, 0, 0, 0, 0, 0, 0, 0, 0] = .instr (.tilesurf .s3 0) := by decide

/-- P4, command 11, and the same with C[0] = 1. -/
theorem test_decode_glyphsurf :
    decode [0x03, 0x02, 0, 0, 0, 0, 0, 0, 0, 0, 0, 0, 0x41, 0, 0, 0] = .instr (.glyphsurf .s2 .normal 65) ∧
    decode [0x03, 0x12, 0, 0, 0, 0, 0, 0, 0, 0, 0, 0, 0x41, 0, 0, 0] = .instr (.glyphsurf .s2 .alternate 65) := by
  decide

theorem test_decode_pixset :
    decode [0x04, 0x23, 0, 0, 7, 0, 7, 0, 0, 0, 0, 0, 0, 0, 0, 0] = .instr (.pixset .s3 7 7 2) := by decide

/-- P1, command 7, and with Y = -2 by hand. -/
theorem test_decode_pixget :
    decode [0x05, 0, 0, 0, 0x0F, 0, 0, 0, 0, 0, 0, 0, 0, 0, 0, 0] = .instr (.pixget .s0 15 0) ∧
    decode [0x05, 0, 0, 0, 0x0F, 0, 0xFE, 0xFF, 0, 0, 0, 0, 0, 0, 0, 0] = .instr (.pixget .s0 15 (-2)) := by decide

/-- P4, command 12. -/
theorem test_decode_cls :
    decode [0x06, 0x30, 0, 0, 0, 0, 0, 0, 0, 0, 0, 0, 0, 0, 0, 0] = .instr (.cls .s0 3) := by decide

/-- By hand: SA 2, C 6, X -2, Y 1, WD 0x1234, HT 4. -/
theorem test_decode_rect :
    decode [0x07, 0x62, 0, 0, 0xFE, 0xFF, 1, 0, 0x34, 0x12, 4, 0, 0, 0, 0, 0] =
      .instr (.rect .s2 (-2) 1 0x1234 4 6) := by decide

theorem test_decode_rectb :
    decode [0x08, 0x90, 0, 0, 0x14, 0, 0, 0, 3, 0, 2, 0, 0, 0, 0, 0] = .instr (.rectb .s0 20 0 3 2 9) := by decide

/-- Part 2.1, and by hand with VF and KEY 15 in place of HF and KEY 0. -/
theorem test_decode_blit :
    decode [0x09, 0x0C, 0x21, 0, 0x10, 0, 8, 0, 0, 0, 0, 0, 2, 0, 0, 0] =
      .instr (.blit .s0 .s3 16 8 2 true 0 true false) ∧
    decode [0x09, 0x0C, 0x5F, 0, 0x10, 0, 8, 0, 0, 0, 0, 0, 2, 0, 0, 0] =
      .instr (.blit .s0 .s3 16 8 2 true 15 false true) := by decide

/-- P4, command 16. -/
theorem test_decode_torgba :
    decode [0x0A, 0x02, 0, 0, 0, 0, 0, 0, 0, 0, 0, 0, 0, 0, 0, 0] = .instr (.torgba .s2) := by decide

theorem test_decode_mget :
    decode [0x0B, 0, 0, 0, 0x1D, 0, 0x10, 0, 0, 0, 0, 0, 0, 0, 0, 0] = .instr (.mget 29 16) := by decide

/-- By hand: X 3, Y 2, IMM 0xCD. -/
theorem test_decode_mset :
    decode [0x0C, 0, 0, 0, 3, 0, 2, 0, 0, 0, 0, 0, 0xCD, 0, 0, 0] = .instr (.mset 3 2 0xCD) := by decide

/-- By hand: C 15. -/
theorem test_decode_palget :
    decode [0x0D, 0xF0, 0, 0, 0, 0, 0, 0, 0, 0, 0, 0, 0, 0, 0, 0] = .instr (.palget 15) := by decide

/-- P4, command 8. -/
theorem test_decode_glyphmet :
    decode [0x0E, 0, 0, 0, 0, 0, 0, 0, 0, 0, 0, 0, 0x41, 0, 0, 0] = .instr (.glyphmet .normal 65) := by decide

theorem test_decode_recompute :
    decode [0x0F, 0, 0, 0, 0, 0, 0, 0, 0, 0, 0, 0, 0, 0, 0, 0] = .instr .recompute := by decide

/-- P3, command 4. -/
theorem test_decode_btnset :
    decode [0x10, 0, 1, 0, 0, 0, 0, 0, 0, 0, 0, 0, 9, 0, 0, 0] = .instr (.btnset 9 true) := by decide

/-- P3, command 6. -/
theorem test_decode_btnget :
    decode [0x11, 0, 0, 0, 0, 0, 0, 0, 0, 0, 0, 0, 5, 0, 0, 0] = .instr (.btnget 5) := by decide

/-- P3, command 2. -/
theorem test_decode_mouseset :
    decode [0x12, 0, 0, 0, 0xFF, 0xFF, 0x28, 0, 0, 0, 0, 0, 0x64, 0x32, 5, 0] =
      .instr (.mouseset 100 50 5 (-1) 40) := by decide

/-- P3, commands 7 to 10. -/
theorem test_decode_mouse_reads :
    decode [0x13, 0, 0, 0, 0, 0, 0, 0, 0, 0, 0, 0, 0, 0, 0, 0] = .instr .mousepos ∧
    decode [0x14, 0, 0, 0, 0, 0, 0, 0, 0, 0, 0, 0, 0, 0, 0, 0] = .instr .mousebtn ∧
    decode [0x15, 0, 0, 0, 0, 0, 0, 0, 0, 0, 0, 0, 0, 0, 0, 0] = .instr .scrollx ∧
    decode [0x16, 0, 0, 0, 0, 0, 0, 0, 0, 0, 0, 0, 0, 0, 0, 0] = .instr .scrolly := by decide

theorem test_decode_memrd :
    decode [0x17, 0, 0, 0, 0, 0, 0, 0, 0, 0, 0, 0, 0xC0, 0x49, 1, 0] = .instr (.memrd 0x149C0) := by decide

/-- P4, command 4. -/
theorem test_decode_memwr :
    decode [0x18, 0, 0, 0, 0, 0, 0, 0, 0x7E, 0, 0, 0, 0x2B, 0x82, 0, 0] = .instr (.memwr 0x822B 0x7E) := by decide

theorem test_decode_load :
    decode [0x19, 0, 0, 0, 0, 0, 0, 0, 0, 0, 0, 0, 0xAE, 0x10, 0, 0] = .instr (.load 4270) := by decide

/-- P3, commands 1, 15 and 14. -/
theorem test_decode_step_control :
    decode [0x1A, 0, 0, 0, 0, 0, 0, 0, 0, 0, 0, 0, 0, 0, 0, 0] = .instr .stepbegin ∧
    decode [0x1B, 0, 0, 0, 0, 0, 0, 0, 0, 0, 0, 0, 0, 0, 0, 0] = .instr .stepend ∧
    decode [0x1C, 0, 0, 0, 0, 0, 0, 0, 0, 0, 0, 0, 0, 0, 0, 0] = .instr .clrstatus := by decide

/-- V-D2, V-D3. -/
theorem test_decode_illegal :
    decodeCommand 0x1D = .illegalOpcode ∧ decodeCommand 0xFF = .illegalOpcode ∧
    decodeCommand 0x1C = .instr .clrstatus := by decide

/-- V-D4 to V-D7. -/
theorem test_decode_reserved :
    decodeCommand (0x00000001 <<< 32) = .reservedField ∧ decodeCommand 0x00800000 = .reservedField ∧
    decodeCommand 0x00002003 = .reservedField ∧ decodeCommand 0x00000406 = .reservedField := by decide

/-- V-D8 to V-D11. -/
theorem test_decode_reserved_part :
    decodeCommand 0x00000101000000000000000000000009 = .reservedField ∧
    decodeCommand 0x00000020000000000000000000010010 = .reservedField ∧
    decodeCommand 0x00080000000000000000000000000012 = .reservedField ∧
    decodeCommand 0x00000000000001000000000000000018 = .reservedField := by decide

/-- R97: 15 bytes are no command. -/
theorem test_decode_short : decode (List.replicate 15 0) = .incomplete := by decide

/-- The number of rows, and the opcode number and mask of BLIT, as opcode_table.json has them. -/
theorem test_table_rows :
    opcodeRows.length = 29 ∧ opcodeRows[9]? = some (0x09, 0xFFFFFF00FFFFFFFF00000000FF80F0FF) := by decide

/-- Every bit that a row's mask leaves free may be 1: the command of that opcode with all of them set decodes. -/
theorem test_table_masks :
    opcodeRows.all (fun r => decide (((decodeCommand (~~~r.2 ||| BitVec.ofNat 128 r.1)) matches .instr _) = true)) =
      true := by decide +kernel

/-- `LOAD 4270` as the table's word. -/
theorem test_table_word : decodeTableWord 128 0x000010AE000000000000000000000019 = some (.load 4270) := by decide

/-- R90: the encoder's bytes for the BLIT of part 2.1. -/
theorem test_encode_blit :
    encode (.blit .s0 .s3 16 8 2 true 0 true false) =
      [0x09, 0x0C, 0x21, 0, 0x10, 0, 8, 0, 0, 0, 0, 0, 2, 0, 0, 0] := by decide

/-! ### Assembler and host API (R103 to R111) -/

theorem test_assemble_blit :
    assemble "BLIT S0, S3, 16, 8, 2, key=0, hflip".toList = some (.blit .s0 .s3 16 8 2 true 0 true false) := by
  decide +kernel

theorem test_assemble_hex_and_minus :
    assemble "MEMRD 0x149C0".toList = some (.memrd 0x149C0) ∧
    assemble "MOUSESET 100, 50, 5, -1, 40".toList = some (.mouseset 100 50 5 (-1) 40) := by decide +kernel

/-- R103: a scale of 256 and a slot S4 are rejected. -/
theorem test_assemble_rejects :
    assemble "BLIT S0, S3, 0, 0, 256".toList = none ∧ assemble "CLS S4, 0".toList = none := by decide +kernel

/-- R104, R106, R108. -/
theorem test_host_conversions :
    hostCls 17 = [.cls .s0 1] ∧ hostRect 1 2 (-3) 4 5 = [.rect .s0 1 2 0 4 5] ∧ hostMset 0 0 257 = [.mset 0 0 1] := by
  decide

/-! ### The step -/

/-- V-D2 and V-D12: the error of a malformed word, and the first one kept; the index advances. -/
theorem test_step_malformed :
    seen (step (start.withFetchWord 128 0x1D)) (fun t => (t.err, t.index)) = some (1, 1) ∧
    seen (step ({ start with err := 1 }.withFetchWord 128 (2 ^ 32))) (fun t => (t.err, t.index)) = some (1, 1) := by
  decide +kernel

/-- R22, P3 command 1: the step runs the word at the port, the one of its index. -/
theorem test_step_runs :
    seen (step ((start.issueCommand .nop).issueCommand .stepbegin)) (fun t => (t.inStep, t.index)) =
      some (false, 1) ∧
    seen (step { (start.issueCommand .nop).issueCommand .stepbegin with index := 1 })
      (fun t => (t.inStep, t.index)) = some (true, 2) := by decide +kernel

/-- R340: idle with no command, and with 15 bytes of one. -/
theorem test_step_idle :
    seen (step start) (fun t => t.index) = some 0 ∧
    seen (step (start.issue (List.replicate 15 0))) (fun t => t.index) = some 0 := by decide +kernel

/-! ### One-step tests of the commands -/

theorem test_nop : seen (exec .nop start) (fun t => (t.result, t.err)) = some (0, 0) := by decide +kernel

/-- V-P1, V-P2. -/
theorem test_setsurf :
    seen (exec (.setsurf .s1 0 2 2 2) start) (fun t => (t.err, t.slot .s1)) = some (3, fourBit 0 0 0) ∧
    seen (exec (.setsurf .s1 0x149BF 2 1 4) start) (fun t => (t.err, t.slot .s1)) =
      some (0, fourBit 0x149BF 2 1) := by decide +kernel

/-- V-P3, V-P4. -/
theorem test_setsurf_edge :
    seen (exec (.setsurf .s1 0x149C0 0 0 4) start) (fun t => (t.err, t.slot .s1)) =
      some (0, fourBit 0x149C0 0 0) ∧
    seen (exec (.setsurf .s1 0x149C1 0 0 4) start) (fun t => (t.err, t.slot .s1)) = some (3, fourBit 0 0 0) := by
  decide +kernel

/-- V-A2 and V-A4. -/
theorem test_tilesurf :
    seen (exec (.tilesurf .s3 1) start) (fun t => t.slot .s3) = some (fourBit 0x3FE0 8 8) ∧
    seen (exec (.tilesurf .s3 512) start) (fun t => t.slot .s3) = some (fourBit 0 0 0) := by decide +kernel

/-- V-A6 and V-A8. -/
theorem test_glyphsurf :
    seen (exec (.glyphsurf .s2 .alternate 65) start) (fun t => t.slot .s2) = some (oneBit 0x8628 8 8) ∧
    seen (exec (.glyphsurf .s1 .normal 128) start) (fun t => t.slot .s1) = some (oneBit 0 0 0) := by decide +kernel

/-- E2. -/
theorem test_pixset :
    seen (exec (.pixset .s0 1 0 7) start) (bytesAt [0]) = some [0x70] ∧
    seen (exec (.pixset .s1 0 0 3) (start.setSlot .s1 (oneBit 0x3FC0 8 1))) (bytesAt [0x3FC0]) = some [0x01] := by
  decide +kernel

/-- E3. -/
theorem test_pixset_off :
    seen (exec (.pixset .s1 8 0 1) (start.setSlot .s1 (oneBit 0x3FC0 8 1))) (bytesAt [0x3FC0, 0x3FC1]) =
      some [0, 0] ∧
    seen (exec (.pixset .s1 (-1) 0 1) (start.setSlot .s1 (oneBit 0x3FC0 8 1))) (bytesAt [0x3FC0, 0x3FC1]) =
      some [0, 0] := by decide +kernel

/-- E2 and V-P8. -/
theorem test_pixget :
    seen (exec (.pixget .s0 1 0) (poked [(0, 0x70)])) (fun t => t.result) = some 7 ∧
    seen (exec (.pixget .s0 240 0) { poked [(120, 0x77)] with result := 9 }) (fun t => t.result) = some 0 := by
  decide +kernel

/-- V-P5 and V-P6. -/
theorem test_cls :
    seen (exec (.cls .s1 1) (start.setSlot .s1 (oneBit 0x3FC0 3 3))) (bytesAt [0x3FC0, 0x3FC1, 0x3FC2]) =
      some [0xFF, 0x01, 0x00] ∧
    seen (exec (.cls .s1 7) (start.setSlot .s1 (fourBit 0x3FC0 3 1))) (bytesAt [0x3FC0, 0x3FC1, 0x3FC2]) =
      some [0x77, 0x07, 0x00] := by decide +kernel

/-- V-P24, on the bytes of rows 0 to 2: A[0], A[1], A[120], A[240]. -/
theorem test_rect :
    seen (exec (.rect .s0 (-2) (-2) 4 4 6) start) (bytesAt [0, 1, 120, 240]) = some [0x66, 0, 0x66, 0] := by
  decide +kernel

/-- V-P25. -/
theorem test_rect_clipped :
    seen (exec (.rect .s0 238 134 5 5 6) start) (bytesAt [0x3FBE, 0x3FBF, 0x3FC0]) = some [0, 0x66, 0] := by
  decide +kernel

/-- V-P30. -/
theorem test_rectb :
    seen (exec (.rectb .s0 0 0 3 3 1) start) (bytesAt [0, 1, 120, 121, 240, 241]) =
      some [0x11, 0x01, 0x01, 0x01, 0x11, 0x01] := by decide +kernel

/-- V-P29: A[120] holds fb(0, 1) and fb(1, 1). -/
theorem test_rectb_single :
    seen (exec (.rectb .s0 1 1 1 1 9) start) (bytesAt [0, 120, 121, 240]) = some [0, 0x90, 0, 0] := by decide +kernel

/-- The set-up of V-P20: a surface that is blitted onto itself. -/
def aliased : State := (poked [(0x3FC0, 0x21), (0x3FC1, 0x03)]).setSlot .s1 (fourBit 0x3FC0 3 1)

/-- The set-up of V-P9 to V-P19. -/
def blitStart : State :=
  ((poked ([(0x3FC0, 0x21), (0x3FC1, 0x43)] ++ (List.range 8).map fun k => (0x4000 + k, (0xFF : Byte)))).setSlot .s1
    (fourBit 0x3FC0 2 2)).setSlot .s2 (fourBit 0x4000 4 4)

def blitted (x y : Int) (scale : Nat) (k : Bool) (key : Nibble) (hf vf : Bool) : Option (List Byte) :=
  seen (exec (.blit .s2 .s1 x y scale k key hf vf) blitStart) (bytesAt ((List.range 8).map (0x4000 + ·)))

/-- V-P13, V-P14. -/
theorem test_blit :
    blitted 0 0 1 true 4 true false = some [0x12, 0xFF, 0x3F, 0xFF, 0xFF, 0xFF, 0xFF, 0xFF] ∧
    blitted 0 0 2 false 0 false false = some [0x11, 0x22, 0x11, 0x22, 0x33, 0x44, 0x33, 0x44] := by decide +kernel

/-- V-P10, V-P15, V-P16, and the aliasing of V-P20. -/
theorem test_blit_corners :
    blitted 0 0 1 false 0 false true = some [0x43, 0xFF, 0x21, 0xFF, 0xFF, 0xFF, 0xFF, 0xFF] ∧
    blitted (-1) (-1) 1 false 0 false false = some [0xF4, 0xFF, 0xFF, 0xFF, 0xFF, 0xFF, 0xFF, 0xFF] ∧
    blitted 0 0 0 false 0 false false = some (List.replicate 8 0xFF) ∧
    seen (exec (.blit .s1 .s1 1 0 1 false 0 false false) aliased) (bytesAt [0x3FC0, 0x3FC1]) =
      some [0x11, 0x01] := by decide +kernel

/-- V-P31 and V-P32. -/
theorem test_torgba :
    seen (exec (.torgba .s1)
      ((poked [(0x3FC0, 0x05), (0x7FCF, 0x10), (0x7FD0, 0x20), (0x7FD1, 0x30)]).setSlot .s1 (fourBit 0x3FC0 1 1)))
      (fun t => t.rgbaOut) = some [0x10, 0x20, 0x30, 0xFF] ∧
    seen (exec (.torgba .s1) ({ start with rgbaOut := [1, 2, 3, 4] }.setSlot .s1 (fourBit 0x3FC0 0 5)))
      (fun t => t.rgbaOut) = some [] := by decide +kernel

/-- V-A10 and V-A14. -/
theorem test_mget :
    seen (exec (.mget 239 135) (poked [(0x149B7, 0xAB)])) (fun t => t.result) = some 0xAB ∧
    seen (exec (.mget 0 136) { poked [(0x149B8, 0xAB)] with result := 5 }) (fun t => t.result) = some 0 := by
  decide +kernel

/-- V-A11 and V-A13. -/
theorem test_mset :
    seen (exec (.mset 3 2 0xCD) start) (fun t => t.arena) = some [(0x0CC1B, 0xCD)] ∧
    seen (exec (.mset (-1) 0 0xCD) start) (fun t => t.arena) = some [] := by decide +kernel

/-- V-L3. -/
theorem test_palget :
    seen (exec (.palget 15) (poked [(0x07FED, 0xAA), (0x07FEE, 0xBB), (0x07FEF, 0xCC)])) (fun t => t.result) =
      some 0x00CCBBAA := by decide +kernel

/-- V-G1, V-G5, V-G7 and V-G9 on the metrics themselves. -/
theorem test_glyph_metrics :
    glyphMetrics params (poked [(0x8228, 0x3C)]).arena .normal 65 = ⟨4, 2⟩ ∧
    glyphMetrics params (poked [(0x8228, 0x02), (0x822F, 0x40)]).arena .normal 65 = ⟨6, 1⟩ ∧
    glyphMetrics params (poked [(0x8628, 0x08)]).arena .alternate 65 = ⟨1, 3⟩ ∧
    glyphMetrics params (poked [(0x8120, 0xFF)]).arena .normal 32 = ⟨3, 0⟩ := by decide +kernel

/-- V-G12 (stale) and V-G11. -/
theorem test_glyphmet :
    seen (exec (.glyphmet .normal 65) (poked [(0x8228, 0x3C)])) (fun t => t.result) = some 0x80000800 ∧
    seen (exec (.glyphmet .normal 128) { start with result := 5 }) (fun t => t.result) = some 0 := by decide +kernel

/-- V-G12, V-G6 and V-G10 after RECOMPUTE. -/
theorem test_recompute :
    seen (exec .recompute (poked [(0x8228, 0x3C)])) (fun t =>
      (metricAt t.met .normal 65, metricAt t.met .normal 66, metricAt t.met .alternate 32)) =
      some (⟨4, 2⟩, ⟨0, 8⟩, ⟨2, 0⟩) := by decide +kernel

/-- Part 2.5, gamepad: BTNSET does not toggle, and clears its own bit only. -/
theorem test_btnset :
    seen (exec (.btnset 31 true) (poked [(0x149BB, 0x80)])) (bytesAt [0x149BB]) = some [0x80] ∧
    seen (exec (.btnset 7 false) (poked [(0x149B8, 0x81)])) (bytesAt [0x149B8]) = some [0x01] := by decide +kernel

/-- Part 2.5, gamepad. -/
theorem test_btnget :
    seen (exec (.btnget 31) (poked [(0x149BB, 0x80)])) (fun t => t.result) = some 1 ∧
    seen (exec (.btnget 7) (poked [(0x149B8, 0x01)])) (fun t => t.result) = some 0 := by decide +kernel

/-- V-M2 and, in V-M1, s = -33 and s = -1. -/
theorem test_mouseset :
    seen (exec (.mouseset 100 50 5 (-1) 5) start) (bytesAt [0x149BC, 0x149BD, 0x149BE, 0x149BF]) =
      some [0x64, 0x32, 0xFD, 0x0B] ∧
    seen (exec (.mouseset 0 0 0 (-33) (-33)) start) (bytesAt [0x149BC, 0x149BD, 0x149BE, 0x149BF]) =
      some [0, 0, 0, 0x41] ∧
    seen (exec (.mouseset 0 0 0 (-1) (-1)) start) (bytesAt [0x149BC, 0x149BD, 0x149BE, 0x149BF]) =
      some [0, 0, 0xF8, 0x7F] := by decide +kernel

/-- V-M2. -/
theorem test_mousepos :
    seen (exec .mousepos (poked [(0x149BC, 0x64), (0x149BD, 0x32)])) (fun t => t.result) = some 0x3264 := by
  decide +kernel

/-- V-M2. -/
theorem test_mousebtn : seen (exec .mousebtn (poked [(0x149BE, 0xFD)])) (fun t => t.result) = some 5 := by
  decide +kernel

/-- V-M2, and V-M1 with s = -31. -/
theorem test_scrollx :
    seen (exec .scrollx (poked [(0x149BE, 0xFD), (0x149BF, 0x0B)])) (fun t => t.result) = some 0xFFFFFFFF ∧
    seen (exec .scrollx (poked [(0x149BE, 0x08), (0x149BF, 0x43)])) (fun t => t.result) = some 0xFFFFFFE1 := by
  decide +kernel

/-- V-M1 with s = -31, and V-M4. -/
theorem test_scrolly :
    seen (exec .scrolly (poked [(0x149BE, 0x08), (0x149BF, 0x43)])) (fun t => t.result) = some 0xFFFFFFE1 ∧
    seen (exec .scrolly (poked [(0x149BF, 0x80)])) (fun t => t.result) = some 0 := by decide +kernel

/-- V-C1 and V-C2. -/
theorem test_memrd :
    seen (exec (.memrd 0x149BF) (poked [(0x149BF, 0x5A)])) (fun t => (t.result, t.err)) = some (0x5A, 0) ∧
    seen (exec (.memrd 0x149C0) { start with result := 0x1234 }) (fun t => (t.result, t.err)) =
      some (0x1234, 4) := by decide +kernel

/-- V-C3, and the last byte. -/
theorem test_memwr :
    seen (exec (.memwr 0x149C0 1) start) (fun t => (t.arena, t.err)) = some ([], 4) ∧
    seen (exec (.memwr 0x149BF 1) start) (fun t => (t.arena, t.err)) = some ([(0x149BF, 1)], 0) := by decide +kernel

/-- V-C4. -/
theorem test_stepbegin :
    seen (exec .stepbegin { start with inStep := true }) (fun t => (t.inStep, t.status)) = some (true, 0x100) := by
  decide +kernel

/-- V-C5. -/
theorem test_stepend : seen (exec .stepend start) (fun t => (t.inStep, t.status)) = some (false, 0) := by
  decide +kernel

/-- P3, command 14: IN_STEP stays. -/
theorem test_clrstatus :
    seen (exec .clrstatus { start with err := 4, inStep := true }) (fun t => t.status) = some 0x100 := by
  decide +kernel

/-! ### Cartridge (part 2.2) -/

/-- What a `LOAD` of the whole cartridge leaves: ERR, the given bytes, PROG. -/
def loaded (bytes : List Byte) (as : List Nat) : Option (Byte × List Byte × List Byte) :=
  seen (exec (.load bytes.length) (withCart bytes)) fun t => (t.err, bytesAt as t, t.prog)

/-- V-B1, V-B4, V-B5, V-B6. -/
theorem test_load_errors :
    loaded [] [0] = some (0, [0], []) ∧ loaded [0x0C, 0, 0] [0] = some (5, [0x99], []) ∧
    loaded [0x0C, 3, 0, 0, 1, 2] [0] = some (5, [0x99], []) ∧ loaded [0, 0, 0, 0] [0] = some (6, [0x99], []) := by
  decide +kernel

/-- V-B12 to V-B14: PROG. -/
theorem test_load_code :
    loaded [5, 2, 0, 0, 0x68, 0x69] [0] = some (0, [0], [0x68, 0x69]) ∧
    loaded [5, 1, 0, 0, 0xFF] [0] = some (7, [0x99], []) ∧
    loaded [5, 1, 0, 0, 0x41, 5, 1, 0, 0, 0x42] [0] = some (0, [0], [0x42]) := by decide +kernel

/-- V-B15 with V-B16, and V-B18. -/
theorem test_load_copy :
    loaded [0xEC, 3, 0, 0xAB, 1, 2, 3] [0x7FC0, 0x7FC1, 0x7FC2, 0x7FC3] = some (0, [1, 2, 3, 0], []) ∧
    loaded [1, 2, 0, 0, 0xAA, 0xBB, 2, 1, 0, 0, 0xCC] [0x3FC0, 0x3FC1] = some (0, [0xCC, 0xBB], []) := by
  decide +kernel

/-- V-B17. -/
theorem test_load_eof_first : loaded [0x14, 0, 0, 0, 0x0C, 5, 0, 0, 1] [0] = some (5, [0x99], []) := by
  decide +kernel

/-- V-B19. -/
theorem test_load_regions :
    loaded [6, 1, 0, 0, 0x5A, 4, 2, 0, 0, 1, 2, 0x0A, 1, 0, 0, 0x77, 9, 1, 0, 0, 0x66, 0x0E, 1, 0, 0, 0x44,
      0x0F, 1, 0, 0, 0x33] [0x0C838, 0x0CA38, 0x0CA39, 0x08820, 0x08920, 0x0C6A0, 0x099A0] =
      some (0, [0x5A, 1, 2, 0x77, 0x66, 0x44, 0x33], []) := by decide +kernel

/-- E1. -/
theorem test_encode_cart :
    encodeCart [⟨12, 0, 3, [0x11, 0x22, 0x33]⟩, ⟨1, 3, 0, []⟩] =
      [0x0C, 3, 0, 0, 0x11, 0x22, 0x33, 0x61, 0, 0, 0] := by decide

/-- V-B3, on the copy alone: 96 payload bytes, a capacity of 48. -/
theorem test_palette_capacity :
    (match buildChunk params ⟨12, 0, 96, (List.range 96).map (BitVec.ofNat 8 · + 1)⟩ [] [] with
      | .ok (m, _) => some (arenaGet params m 0x7FEF, arenaGet params m 0x7FF0)
      | .error _ => none) = some (0x30, 0) := by decide +kernel

/-! ### Witnesses: the hypotheses of each statement are met -/

/-- `start` with one NOP at the port, the state the invariant statements are shown on. -/
def ready : State := start.issueCommand .nop

theorem witness_ready_slots : ready.slots.Legal :=
  ⟨fun k => by cases k <;> decide +kernel, fun k => by cases k <;> decide +kernel⟩

/-- The invariant holds of `ready`, whose next step runs a NOP: StepKeepsTheInvariant and BlockNeverStops. -/
theorem witness_inv : ready.Inv where
  arena_wf := by decide
  arena_below := by decide
  slots := witness_ready_slots
  err := by decide
  met := fun v c => by cases v <;> (revert c; decide +kernel)
  prog := by decide
  rgba := by decide
  cart_wf := by decide
  cart_below := by decide
  index := by decide

theorem witness_step_next : step ready = .next ready.advance := rfl

/-- DecodeOfEncodeIsTheCommand and EncodeOfDecodeIsTheBytes, at the ends of the operand ranges. -/
theorem witness_codec :
    (Instr.rect .s3 (-32768) 32767 65535 0 15).WellFormed ∧
    decode [0x07, 0xF3, 0, 0, 0, 0x80, 0xFF, 0x7F, 0xFF, 0xFF, 0, 0, 0, 0, 0, 0] =
      .instr (.rect .s3 (-32768) 32767 65535 0 15) := by decide

/-- OpcodeTableDecidesTheCommand: the last assigned opcode, taken and rejected, and the first illegal one. -/
theorem witness_table :
    (0x1C, (0xFFFFFFFFFFFFFFFFFFFFFFFFFFFFFFFF : Command)) ∈ opcodeRows ∧
    ((0x1C : Command).extractLsb' 0 8).toNat = 0x1C ∧ ((0x11C : Command).extractLsb' 0 8).toNat = 0x1C ∧
    decodeCommand 0x11C = .reservedField ∧ decodeCommand 0x1C = .instr .clrstatus ∧
    decodeCommand 0x1D = .illegalOpcode := by decide

/-- StepRunsTheDecodedCommand. -/
theorem witness_step_runs : decode ready.fetchBytes = .instr .nop := by decide

/-- IssuedCommandsRunInOrder: two commands behind one already finished. -/
theorem witness_issued :
    (∀ i ∈ [Instr.cls .s1 3, Instr.mget (-1) 5], i.WellFormed) ∧
    ({ ready with index := 1 } : State).commands.length = 16 * ({ ready with index := 1 } : State).index := by decide

/-- MalformedCommandOnlyRecordsItsError, both clauses. -/
theorem witness_malformed :
    decode (start.withFetchWord 128 0x1D).fetchBytes = .illegalOpcode ∧
    decode (start.withFetchWord 128 0x100).fetchBytes = .reservedField := by decide +kernel

/-- IdleStepKeepsTheState: 0 bytes and 15 bytes. -/
theorem witness_idle :
    start.fetchBytes.length < 16 ∧ (start.issue (List.replicate 15 0)).fetchBytes.length = 15 := by decide

/-- ResetHasTheInvariant: a cartridge with its last byte filled. -/
theorem witness_cart :
    Memory.wf cartUnlisted [(0, 5), (16777215, 1)] ∧ Memory.below 16777216 [(0, 5), (16777215, 1)] := by
  decide

/-- ErrorsArePrecise: a command that records an error. -/
theorem witness_error :
    exec (.memrd 84416) start = .next { start with err := 4 } ∧ start.err = 0 ∧
    ({ start with err := 4 } : State).err ≠ 0 := ⟨rfl, by decide, by decide⟩

/-- FirstErrorIsKept. -/
theorem witness_first_error :
    exec (.memwr 84416 1) { start with err := 3 } = .next { start with err := 3 } ∧
    Instr.memwr 84416 1 ≠ .clrstatus ∧ ({ start with err := 3 } : State).err ≠ 0 := ⟨rfl, by decide, by decide⟩

/-- OnlyNamedCommandsWriteEachRegister: a command with a next state that none of the lists names. -/
theorem witness_writes_nothing :
    exec .nop start = .next start ∧ writesSlot .nop = false ∧ writesResult .nop = false ∧ writesArena .nop = false ∧
    writesInStep .nop = false ∧ writesMet .nop = false ∧ writesProg .nop = false ∧ writesRgba .nop = false ∧
    writesErr .nop = false := ⟨rfl, rfl, rfl, rfl, rfl, rfl, rfl, rfl, rfl⟩


/-- EqualMemoriesAreEqualData. Its hypotheses make the two lists one, so the witness is one list. -/
theorem witness_memories :
    Memory.wf (arenaUnlisted params) [(3, 1), (84415, 2)] ∧
    ∀ a, Memory.read (arenaUnlisted params) [(3, 1), (84415, 2)] a =
      Memory.read (arenaUnlisted params) [(3, 1), (84415, 2)] a := ⟨by decide +kernel, fun _ => rfl⟩

/-- ObserversReadOnlyBetweenSteps, its three clauses. -/
theorem witness_observers :
    ({ start with inStep := true } : State).observeByte 0 = none ∧ start.observeByte 84415 = some 0 ∧
    start.observeByte 84416 = none ∧ start.observeRgba = some [] := by decide +kernel

/-- NopDoesNothing: a NOP word with another bit set. -/
theorem witness_nop :
    ((0x100 : Command).extractLsb' 0 8) = 0 ∧ (0x100 : Command) ≠ 0 := by decide

/-- MemrdReadsOneByte and MemwrWritesOneByte: the two sides of the last address. -/
theorem witness_last_byte :
    exec (.memwr 84415 7) start = .next (start.setByte 84415 7) ∧
    exec (.memwr 84416 7) start = .next (start.raise .addrRange) ∧
    exec (.memrd 84416) start = .next (start.raise .addrRange) := ⟨rfl, rfl, rfl⟩

/-- SetsurfLoadsALegalSurface, both clauses: an extent of 0 at the end of the arena and one byte past it. -/
theorem witness_setsurf :
    ((4 = 1 ∨ 4 = 4) ∧ 84416 + (0 * 0 * 4 + 7) / 8 ≤ 84416) ∧
    ¬((4 = 1 ∨ 4 = 4) ∧ 84417 + (0 * 0 * 4 + 7) / 8 ≤ 84416) := by decide

/-- The drawing statements: the framebuffer, an empty view, and a surface ending with the arena are legal. -/
theorem witness_legal :
    (start.slot .s0).Legal ∧ (start.slot .s1).Legal ∧
    ((start.setSlot .s1 (fourBit 0x149BF 2 1)).slot .s1).Legal := by decide +kernel

/-- PixgetReadsOnePixel: the last pixel of the framebuffer, and the one after it. -/
theorem witness_contains :
    (start.slot .s0).Contains 239 135 ∧ ¬(start.slot .s0).Contains 240 135 ∧ ¬(start.slot .s0).Contains 0 (-1) := by
  decide +kernel

/-- BlitCopiesBetweenDisjointSurfaces: the set-up of V-P9. -/
theorem witness_blit :
    (blitStart.slot .s2).Legal ∧ (blitStart.slot .s1).Legal ∧ (blitStart.slot .s1).Disjoint (blitStart.slot .s2) ∧
    1 ≤ 1 := ⟨by decide +kernel, by decide +kernel, .inl (by decide +kernel), by decide⟩

/-- RepeatingACommandChangesNothing: a command that is no BLIT, and a BLIT between surfaces that do not alias. -/
theorem witness_repeat :
    start.NonAliasing (.mset 3 2 0xCD) ∧ exec (.mset 3 2 0xCD) start = .next (start.setByte 0x0CC1B 0xCD) ∧
    blitStart.NonAliasing (.blit .s2 .s1 0 0 1 false 0 true false) ∧
    (exec (.blit .s2 .s1 0 0 1 false 0 true false) blitStart matches .next _) :=
  ⟨trivial, rfl, witness_blit.2.2.1, rfl⟩

/-- BlitRunsItsPixelSequence: the self-overlapping surface of V-P20, whose pixel sequence gives [1, 1, 1]. -/
theorem witness_blit_sequence :
    (aliased.slot .s1).Legal ∧ ¬(aliased.slot .s1).Disjoint (aliased.slot .s1) ∧
    seen (blitByPixels .s1 .s1 1 0 1 false 0 false false (sourcePixels (aliased.slot .s1)) aliased)
      (bytesAt [0x3FC0, 0x3FC1]) = some [0x11, 0x01] :=
  ⟨by decide +kernel, by unfold Surface.Disjoint; decide +kernel, by decide +kernel⟩

/-- BlitRunsItsPixelSequence, its last clause: legal slots that overlap, and a bit outside every block. -/
theorem witness_blit_frame :
    (start.slot .s0).Legal ∧ ∀ px py : Nat, ¬(px < (start.slot .s1).w ∧ py < (start.slot .s1).h) :=
  ⟨by decide +kernel, fun px _ h => absurd h.1 (Nat.not_lt_zero px)⟩

/-- IllegalSlotFaults: a slot one byte past the arena. -/
theorem witness_illegal_slot :
    ¬((start.setSlot .s1 (fourBit 84416 1 1)).slot .s1).Legal ∧
    exec (.pixget .s1 0 0) (start.setSlot .s1 (fourBit 84416 1 1)) = .fault .illegalSlot :=
  ⟨by decide +kernel, rfl⟩

/-- GlyphMetricsMeasureTheColumns: columns 2 and 5 of glyph 65 are set with nothing outside them (E8), and glyph 66 is
blank. -/
theorem witness_columns :
    columnSet params (poked [(0x8228, 0x3C)]).arena .normal 65 2 ∧
    columnSet params (poked [(0x8228, 0x3C)]).arena .normal 65 5 ∧
    (∀ k < 8, columnSet params (poked [(0x8228, 0x3C)]).arena .normal 65 k → 2 ≤ k ∧ k ≤ 5) ∧
    ∀ k < 8, ¬columnSet params (poked [(0x8228, 0x3C)]).arena .normal 66 k := by
  unfold columnSet
  decide +kernel

/-- MetricsReadOnlyTheFont: arenas that differ outside the font. -/
theorem witness_font (a : Nat) (h : fontBase ≤ a) (_ : a < fontBase + fontSize) :
    arenaGet params [(0, 1)] a = arenaGet params [] a := by
  simp only [arenaGet, Memory.read]
  rw [if_neg (by simp only [fontBase] at h; omega)]

/-- GlyphmetReadsTheCache: the last glyph and the first code point without one. -/
theorem witness_glyphmet :
    exec (.glyphmet .normal 127) start = .next (start.setResult 0x80000800) ∧
    exec (.glyphmet .normal 128) start = .next (start.setResult 0) := ⟨by rfl, by rfl⟩

/-- MetricsStayStale: a font write after the computation at reset. -/
theorem witness_stale :
    (∀ i ∈ [Instr.memwr 0x8228 0x3C], writesMet i = false) ∧ (State.resetWith params []).met = metrics params [] ∧
    runCommands [Instr.memwr 0x8228 0x3C] (State.resetWith params []) =
      .next ((State.resetWith params []).setByte 0x8228 0x3C).advance := ⟨by decide, rfl, rfl⟩

/-- MgetReadsTheCell and MsetWritesTheCell: the last cell, and the cells beside it. -/
theorem witness_cells :
    mapAddr 239 135 = some 0x149B7 ∧ mapAddr 240 135 = none ∧ mapAddr 239 136 = none ∧ mapAddr (-1) 0 = none := by
  decide

/-- MouseRegisterRoundTrips: a MOUSESET completes. -/
theorem witness_mouse :
    exec (.mouseset 255 0 7 (-33) 32) start = .next (mouseWrite 255 0 7 (-33) 32 start) := rfl

/-- ScrollPackingRoundTrips: the ends of the range. -/
theorem witness_scroll : (unpack6 (pack6 (-32))).toInt = -32 ∧ (unpack6 (pack6 31)).toInt = 31 := by decide

/-- CartridgeRoundTrips: the list of E1, and a stream with a reserved byte that is not 0 (V-B16). -/
theorem witness_chunks :
    (∀ ch ∈ [(⟨12, 0, 3, [0x11, 0x22, 0x33]⟩ : Chunk), ⟨1, 3, 0, []⟩], ch.Sized) ∧
    decodeCart [0x0C, 3, 0, 0xAB, 1, 2, 3] = .ok [⟨12, 0, 3, [1, 2, 3]⟩] := ⟨by decide, rfl⟩

/-- DecoderFailsOnTruncationOnly: a short header, a short payload, and a stream that fails. -/
theorem witness_truncation :
    decodeCart [0x0C, 0, 0] = .error .decodeEof ∧ ([1, 2] : List Byte).length < (chunkSize 3 0).toNat ∧
    decodeCart [0x0C, 3, 0, 0, 1, 2] = .error .decodeEof := ⟨rfl, by decide, rfl⟩

/-- LastChunkWinsEachByte: a build of two chunks over one byte succeeds, and the last one's byte is named. -/
theorem witness_build :
    (buildImage params [⟨1, 0, 2, [0xAA, 0xBB]⟩, ⟨2, 0, 1, [0xCC]⟩] matches .ok _) ∧
    lastCopied [⟨1, 0, 2, [0xAA, 0xBB]⟩, ⟨2, 0, 1, [0xCC]⟩] 0x3FC0 = some 0xCC := ⟨by rfl, by decide⟩

/-- BuilderFailsAtTheFirstBadChunk: a bad Code chunk before an unsupported one. -/
theorem witness_build_error :
    buildImage params [⟨5, 0, 1, [0xFF]⟩, ⟨0, 0, 0, []⟩] = .error .buildBadText ∧
    [(⟨5, 0, 1, [0xFF]⟩ : Chunk), ⟨0, 0, 0, []⟩].findSome? chunkError = some .buildBadText := ⟨rfl, by decide⟩

/-- ValidTextIsUtf8: a two-byte sequence is valid; its first byte alone, an overlong form and a surrogate are not. -/
theorem witness_utf8 :
    validUtf8 [0xC3, 0xA9] = true ∧ validUtf8 [0xC3] = false ∧ validUtf8 [0xC0, 0x80] = false ∧
    validUtf8 [0xED, 0xA0, 0x80] = false := by decide

/-- LoadReplacesTheImage and FailedLoadKeepsTheImage: a length past CART_SIZE (V-B21), a cartridge that does not decode,
one that decodes but does not build, and one that builds. -/
theorem witness_failed_load :
    ({ start with cfg := { params with cartSize := 4 } } : State).cfg.cartSize < 5 ∧
    decodeCart (cartBytes (withCart [0x0C, 0, 0]).cart 3) = .error .decodeEof ∧
    decodeCart (cartBytes (withCart [0x13, 0, 0, 0]).cart 4) = .ok [⟨19, 0, 0, []⟩] ∧
    buildImage params [⟨19, 0, 0, []⟩] = .error .unsupportedChunk ∧
    buildImage params [] = .ok ⟨[], [], metrics params []⟩ := ⟨by decide, rfl, rfl, rfl, rfl⟩

/-- LoadClearsInputAndReservedBytes: a load that succeeds. -/
theorem witness_load :
    0 ≤ start.cfg.cartSize ∧
    loadImage start.cfg (cartBytes start.cart 0) = .ok ⟨[], [], metrics params []⟩ := ⟨by decide, rfl⟩

/-- SprExpandsToTileAndBlit. -/
theorem witness_spr : (start.slot .s0).Legal := by decide +kernel

/-- BtnsetSetsOneButton, at the last button: its byte is the last of the latch and its bit the highest. -/
theorem witness_button : buttonAddr 31 = 0x149BB ∧ buttonBit 31 = 7 := by decide

end Sys2Proof.Tests
end

section
/-! The arena address map of R61 is packed (D4): each region begins where the one before it ends. R62 follows from that
alone. -/

namespace Sys2Proof.Machine

/-- The regions of the list fill the addresses from `lo` up to but not including `hi`, in order, each beginning where
the one before it ends. -/
def Region.Packed : Nat → List Region → Nat → Prop
  | lo, [], hi => lo = hi
  | lo, r :: rs, hi => r.base = lo ∧ Region.Packed (r.base + r.size) rs hi

@[simp] theorem Region.packed_nil {lo hi : Nat} : Region.Packed lo [] hi ↔ lo = hi := Iff.rfl

@[simp] theorem Region.packed_cons {lo hi : Nat} {r : Region} {rs : List Region} :
    Region.Packed lo (r :: rs) hi ↔ r.base = lo ∧ Region.Packed (r.base + r.size) rs hi := Iff.rfl

theorem Region.Packed.le {lo hi : Nat} {rs : List Region} (h : Region.Packed lo rs hi) : lo ≤ hi := by
  induction rs generalizing lo with
  | nil => exact Nat.le_of_eq h
  | cons r rs ih =>
    obtain ⟨hbase, hrest⟩ := h
    have hend := ih hrest
    omega

theorem Region.Packed.within {lo hi : Nat} {rs : List Region} (h : Region.Packed lo rs hi) :
    ∀ r ∈ rs, lo ≤ r.base ∧ r.base + r.size ≤ hi := by
  induction rs generalizing lo with
  | nil => simp
  | cons r rs ih =>
    obtain ⟨hbase, hrest⟩ := h
    refine List.forall_mem_cons.2 ⟨⟨hbase.ge, hrest.le⟩, fun q hq => ?_⟩
    obtain ⟨hlo, hhi⟩ := ih hrest q hq
    exact ⟨by omega, hhi⟩

theorem Region.Packed.pairwise {lo hi : Nat} {rs : List Region} (h : Region.Packed lo rs hi) :
    rs.Pairwise fun r q => r.base + r.size ≤ q.base := by
  induction rs generalizing lo with
  | nil => exact .nil
  | cons r rs ih =>
    obtain ⟨-, hrest⟩ := h
    exact .cons (fun q hq => (hrest.within q hq).1) (ih hrest)

/-- An address of the range lies in the first region, or at or past its end and so, by induction, in a later one. -/
theorem Region.Packed.exists_mem {lo hi : Nat} {rs : List Region} (h : Region.Packed lo rs hi) {a : Nat}
    (hlo : lo ≤ a) (hhi : a < hi) : ∃ r ∈ rs, r.base ≤ a ∧ a < r.base + r.size := by
  induction rs generalizing lo with
  | nil => exact absurd (Region.packed_nil.1 h) (by omega)
  | cons r rs ih =>
    obtain ⟨hbase, hrest⟩ := h
    rcases Nat.lt_or_ge a (r.base + r.size) with hin | hpast
    · exact ⟨r, List.mem_cons_self, by omega, hin⟩
    · obtain ⟨q, hq, hcover⟩ := ih hrest hpast
      exact ⟨q, List.mem_cons_of_mem r hq, hcover⟩

theorem regions_packed : Region.Packed fbBase regions arenaSize := by
  simp [regions, waveBase, fontBase, fontSize]

/-- Settles O17: R62's no overlap, no gap and bound are those of any packed list, and the map of R61 is packed from
`FB_BASE` = 0 to `ARENA_SIZE` = 84416. -/
theorem regionsCoverTheArena : Obligations.RegionsCoverTheArena :=
  ⟨regions_packed.pairwise,
    fun a ha => regions_packed.exists_mem (Nat.zero_le a) ha,
    fun r hr => (regions_packed.within r hr).2,
    rfl⟩

end Sys2Proof.Machine
end

section
/-! The chunk framer and its encoder undo each other up to the reserved bytes (40_cartridge.md R130 to R136). -/

namespace Sys2Proof.Machine

/-- The bytes of one record with `r` as its reserved byte (R98). -/
def chunkRecord (ch : Chunk) (r : Byte) : List Byte :=
  [ch.bank ++ ch.code, ch.size.extractLsb' 0 8, ch.size.extractLsb' 8 8, r] ++ ch.payload

@[simp] theorem encodeWith_nil (reserved : List Byte) : encodeWith [] reserved = [] := rfl

@[simp] theorem encodeWith_cons (ch : Chunk) (chunks : List Chunk) (r : Byte) (rs : List Byte) :
    encodeWith (ch :: chunks) (r :: rs) = chunkRecord ch r ++ encodeWith chunks rs := rfl

theorem chunkRecord_inj {ch : Chunk} {r r' : Byte} {bytes bytes' : List Byte} :
    chunkRecord ch r ++ bytes = chunkRecord ch r' ++ bytes' ↔ r = r' ∧ bytes = bytes' := by
  simp [chunkRecord]

@[simp] theorem decodeChunks_nil (fuel : Nat) : decodeChunks fuel [] = .ok [] := by
  cases fuel <;> rfl

/-- A complete record in front decodes to its chunk, whatever its reserved byte (R131, R132). -/
theorem decodeChunks_chunkRecord {ch : Chunk} (hsized : ch.Sized) (fuel : Nat) (r : Byte) (bytes : List Byte) :
    decodeChunks (fuel + 1) (chunkRecord ch r ++ bytes) = (decodeChunks fuel bytes).map (ch :: ·) := by
  obtain ⟨hcode, hbank, hsize⟩ := chunk_header ch
  have hlen : ¬(ch.payload ++ bytes).length < ch.size.toNat := by
    rw [List.length_append, hsized]
    omega
  simp only [chunkRecord, List.cons_append, List.nil_append, decodeChunks, hcode, hbank, hsize, if_neg hlen,
    List.take_left' hsized, List.drop_left' hsized]
  cases decodeChunks fuel bytes <;> rfl

/-- The header bytes are written back from the fields read out of them (R98, R99). -/
theorem chunk_header_bytes (b lo hi : Byte) :
    b.extractLsb' 5 3 ++ b.extractLsb' 0 5 = b ∧ (chunkSize lo hi).extractLsb' 0 8 = lo ∧
      (chunkSize lo hi).extractLsb' 8 8 = hi := by
  refine ⟨?_, ?_, ?_⟩
  · exact (BitVec.extractLsb'_append_extractLsb'_eq_extractLsb' (start₂ := 5) (start₁ := 0) rfl).trans
      BitVec.extractLsb'_eq_self
  all_goals
    unfold chunkSize
    apply BitVec.eq_of_getLsbD_eq
    intro i hlt
    interval_cases i <;> simp

/-- All that a successful decode can have read: nothing, or a complete record and then the rest (R131). -/
theorem decodeChunks_eq_ok {fuel : Nat} {bytes : List Byte} {chunks : List Chunk}
    (h : decodeChunks fuel bytes = .ok chunks) :
    (bytes = [] ∧ chunks = []) ∨
    ∃ fuel' ch r rest chunks', ch.Sized ∧ bytes = chunkRecord ch r ++ rest ∧
      decodeChunks fuel' rest = .ok chunks' ∧ chunks = ch :: chunks' := by
  unfold decodeChunks at h
  split at h
  · exact .inl ⟨rfl, by cases h; rfl⟩
  · rename_i fuel' b lo hi r rest
    split at h
    · cases h
    · rename_i hlen
      split at h
      · rename_i chunks' hrest
        obtain ⟨hb, hlo, hhi⟩ := chunk_header_bytes b lo hi
        cases h
        refine .inr ⟨fuel', _, r, _, chunks', List.length_take_of_le (Nat.le_of_not_lt hlen), ?_, hrest, rfl⟩
        simp [chunkRecord, hb, hlo, hhi]
      · cases h
  · cases h

/-- The records of a list decode to the list, with fuel for each of them (R131, R136). -/
theorem decodeChunks_encodeWith {fuel : Nat} {chunks : List Chunk} {reserved : List Byte}
    (hsized : ∀ ch ∈ chunks, ch.Sized) (hlen : reserved.length = chunks.length) (hfuel : chunks.length ≤ fuel) :
    decodeChunks fuel (encodeWith chunks reserved) = .ok chunks := by
  induction chunks generalizing fuel reserved with
  | nil => simp
  | cons ch chunks ih =>
    obtain ⟨hch, hchunks⟩ := List.forall_mem_cons.1 hsized
    obtain ⟨r, rs, rfl⟩ := List.exists_cons_of_length_eq_add_one hlen
    cases fuel with
    | zero => exact absurd hfuel (Nat.not_succ_le_zero _)
    | succ fuel =>
      have hrest := ih hchunks (Nat.succ.inj hlen) (Nat.le_of_succ_le_succ hfuel)
      rw [encodeWith_cons, decodeChunks_chunkRecord hch, hrest]
      rfl

/-- A stream that decodes is the records of its chunks (R131, R136). -/
theorem eq_encodeWith_of_decodeChunks {fuel : Nat} {bytes : List Byte} {chunks : List Chunk}
    (h : decodeChunks fuel bytes = .ok chunks) :
    (∀ ch ∈ chunks, ch.Sized) ∧
      ∃ reserved : List Byte, reserved.length = chunks.length ∧ bytes = encodeWith chunks reserved := by
  induction chunks generalizing fuel bytes with
  | nil =>
    rcases decodeChunks_eq_ok h with ⟨rfl, -⟩ | ⟨_, _, _, _, _, -, -, -, hcons⟩
    · exact ⟨by simp, [], rfl, rfl⟩
    · cases hcons
  | cons ch chunks ih =>
    rcases decodeChunks_eq_ok h with ⟨-, hnil⟩ | ⟨fuel', _, r, rest, _, hch, rfl, hrest, hcons⟩
    · cases hnil
    · cases hcons
      obtain ⟨hchunks, rs, hlen, rfl⟩ := ih hrest
      exact ⟨List.forall_mem_cons.2 ⟨hch, hchunks⟩, r :: rs, by simp [hlen], rfl⟩

/-- The encoder writes every reserved byte as 0 (R135). -/
theorem encodeCart_eq_encodeWith (chunks : List Chunk) :
    encodeCart chunks = encodeWith chunks (List.replicate chunks.length 0) := by
  induction chunks with
  | nil => rfl
  | cons ch chunks ih =>
    rw [List.length_cons, List.replicate_succ, encodeWith_cons, ← ih]
    rfl

/-- The records of a list fix their reserved bytes. -/
theorem encodeWith_inj {chunks : List Chunk} {rs rs' : List Byte} (hlen : rs.length = chunks.length)
    (hlen' : rs'.length = chunks.length) : encodeWith chunks rs = encodeWith chunks rs' ↔ rs = rs' := by
  induction chunks generalizing rs rs' with
  | nil => simp [List.length_eq_zero_iff.1 hlen, List.length_eq_zero_iff.1 hlen']
  | cons ch chunks ih =>
    obtain ⟨r, rs, rfl⟩ := List.exists_cons_of_length_eq_add_one hlen
    obtain ⟨r', rs', rfl⟩ := List.exists_cons_of_length_eq_add_one hlen'
    rw [encodeWith_cons, encodeWith_cons, chunkRecord_inj, ih (Nat.succ.inj hlen) (Nat.succ.inj hlen'),
      List.cons.injEq]

/-- Each chunk takes a record of one byte at least, so a stream's length is fuel enough for its chunks. -/
theorem length_le_length_encodeWith {chunks : List Chunk} {reserved : List Byte}
    (hlen : reserved.length = chunks.length) : chunks.length ≤ (encodeWith chunks reserved).length := by
  induction chunks generalizing reserved with
  | nil => simp
  | cons ch chunks ih =>
    obtain ⟨r, rs, rfl⟩ := List.exists_cons_of_length_eq_add_one hlen
    have hrest := ih (Nat.succ.inj hlen)
    simp only [encodeWith_cons, chunkRecord, List.length_append, List.length_cons]
    omega

/-- Settles O51, by induction over the chunk list in both directions; the reserved bytes are compared by
`encodeWith_inj`. -/
theorem cartridgeRoundTrips : Obligations.CartridgeRoundTrips := by
  refine ⟨fun chunks hsized => ?_, fun bytes chunks h => ?_⟩
  · have hlen : (List.replicate chunks.length (0 : Byte)).length = chunks.length := List.length_replicate
    rw [encodeCart_eq_encodeWith]
    exact decodeChunks_encodeWith hsized hlen (length_le_length_encodeWith hlen)
  · obtain ⟨hsized, reserved, hlen, rfl⟩ := eq_encodeWith_of_decodeChunks h
    refine ⟨hsized, reserved, hlen, rfl, encodeCart_eq_encodeWith chunks, ?_⟩
    rw [encodeCart_eq_encodeWith, encodeWith_inj List.length_replicate hlen, eq_comm, List.eq_replicate_iff]
    simp [hlen]

/-- Settles O57: R147, from the cases of LOAD. Where it raises an error it does nothing else; where it installs the
image, neither premise holds. -/
theorem failedLoadKeepsTheImage : Obligations.FailedLoadKeepsTheImage := by
  intro len s hfails
  rcases execLoad_cases len s with ⟨-, hexec⟩ | ⟨-, e, -, hexec⟩ | ⟨hle, img, hok, -⟩
  · exact ⟨_, hexec, rfl, rfl, rfl⟩
  · exact ⟨_, hexec, rfl, rfl, rfl⟩
  · rcases hfails with hlt | ⟨e, herr⟩
    · omega
    · cases hok.symm.trans herr

end Sys2Proof.Machine
end

section
/-! MET is written by RECOMPUTE and LOAD alone, so it goes stale when the font is written (42_atlas.md R226 to R229). -/

namespace Sys2Proof.Machine

/-- A command other than RECOMPUTE and LOAD keeps MET (R29, R229): a surface command answers a next state only through
its surfaces, a checked command on either side of its check, and the rest run one state operation. None sets MET. -/
theorem exec_met {i : Instr} {s t : State} (hw : writesMet i = false) (h : exec i s = .next t) : t.met = s.met := by
  cases i with
  | recompute | load => cases hw
  | pixset | pixget | cls | rect | rectb | torgba =>
    simp only [exec, execPixset, execPixget, execCls, execRect, execRectb, execTorgba, State.onSurface_eq_next] at h
    obtain ⟨-, hnext⟩ := h
    cases hnext
    rfl
  | blit =>
    simp only [exec, execBlit, State.onSurface_eq_next] at h
    obtain ⟨-, -, hnext⟩ := h
    cases hnext
    rfl
  | mget | mset | memrd | memwr =>
    simp only [exec, execMget, execMset, execMemrd, execMemwr] at h
    split at h
    · cases h; rfl
    · cases h; rfl
  | setsurf =>
    simp only [exec, execSetsurf] at h
    split at h
    · cases h; rfl
    · split at h
      · cases h; rfl
      · cases h; rfl
  | _ => cases h; rfl

/-- A list of commands runs its first command, advances the index, and runs the rest (R22, R73). -/
theorem runCommands_cons_eq_next {i : Instr} {is : List Instr} {s t : State} :
    runCommands (i :: is) s = .next t ↔ ∃ u, exec i s = .next u ∧ runCommands is u.advance = .next t := by
  cases h : exec i s <;> simp [runCommands, finishCommand, h]

/-- No sequence without RECOMPUTE and LOAD changes MET (R229). -/
theorem runCommands_met {is : List Instr} {s t : State} (hw : ∀ i ∈ is, writesMet i = false)
    (h : runCommands is s = .next t) : t.met = s.met := by
  induction is generalizing s with
  | nil => cases h; rfl
  | cons i is ih =>
    obtain ⟨hi, his⟩ := List.forall_mem_cons.1 hw
    obtain ⟨u, hexec, hrun⟩ := runCommands_cons_eq_next.1 h
    calc t.met = u.advance.met := ih his hrun
      _ = u.met := u.advance_met
      _ = s.met := exec_met hi hexec

/-- GLYPHMET's word for a glyph of a table computed from an image (R226, R228). -/
theorem glyphWord_metrics (p : Params) (m : Memory) (v : Variant) {c : Nat} (hc : c < 128) :
    glyphWord (metrics p m) v c = metricWord (glyphMetrics p m v c) := by
  rw [glyphWord, dif_pos hc, metricAt_metrics]

/-- Settles O41: GLYPHMET reads MET, and the commands before it have left MET as it was computed. -/
theorem metricsStayStale : Obligations.MetricsStayStale := by
  intro is s t hw hrun
  have hmet : t.met = s.met := runCommands_met hw hrun
  refine ⟨hmet, fun p m hs v c hc => ?_⟩
  calc exec (.glyphmet v c) t = .next (t.setResult (glyphWord t.met v c)) := rfl
    _ = .next (t.setResult (metricWord (glyphMetrics p m v c))) := by rw [hmet, hs, glyphWord_metrics p m v hc]

end Sys2Proof.Machine
end


section
/-! The packed scroll deltas of the mouse record: Pack6 and Unpack6 (43_peripheral.md R265, R266). -/

namespace Sys2Proof.Machine

/-- Pack6 reduces modulo 64, negative values included (R265). -/
theorem pack6_toNat (v : Int) : ((pack6 v).toNat : Int) = v % 64 := by
  have hnonneg : 0 ≤ v % 64 := Int.emod_nonneg v (by decide)
  calc ((pack6 v).toNat : Int) = ((v % 64).toNat : Int) := by rw [pack6, BitVec.toNat_ofInt]; rfl
    _ = v % 64 := Int.toNat_of_nonneg hnonneg

/-- Settles O49: Unpack6 keeps its field's signed value, so what it undoes is the signed value Pack6 keeps in range. -/
theorem scrollPackingRoundTrips : Obligations.ScrollPackingRoundTrips := by
  refine ⟨fun f => ⟨rfl, unpack6_toInt f⟩, pack6_toNat, fun v hlo hhi => ?_⟩
  calc (unpack6 (pack6 v)).toInt = (pack6 v).toInt := unpack6_toInt _
    _ = v := pack6_toInt ⟨hlo, hhi⟩

end Sys2Proof.Machine
end


section
/-! The words of opcode 0 (R300): NOP uses no field but its opcode, so only the all-zero word decodes to it. -/

namespace Sys2Proof.Machine

@[simp] theorem packFields_zero : packFields Fields.zero = 0 := by decide

theorem unpackFields_eq_zero_iff (cmd : Command) : unpackFields cmd = Fields.zero ↔ cmd = 0 := by
  constructor
  · intro h
    calc cmd = packFields (unpackFields cmd) := (packFields_unpackFields cmd).symm
      _ = 0 := by rw [h, packFields_zero]
  · rintro rfl
    rw [← packFields_zero, unpackFields_packFields]

/-- NOP clears its opcode only, which is 0 already: every bit of the word counts as unused. -/
theorem Fields.unused_nop {f : Fields} (hop : f.op = 0) : f.unused .nop = f := by
  rw [Fields.unused, ← hop]

/-- The two outcomes of R94 at opcode 0. -/
theorem decodeCommand_of_op_zero {cmd : Command} (hop : cmd.extractLsb' 0 8 = 0) :
    decodeCommand cmd = if cmd = 0 then .instr .nop else .reservedField := by
  have hfield : (unpackFields cmd).op = 0 := hop
  have hcode : opcodeOf 0 = some .nop := opcodeOf_code .nop
  simp only [decodeCommand, Fields.decode, hfield, hcode, Fields.unused_nop hfield, unpackFields_eq_zero_iff,
    Fields.instr]

/-- Settles O20: both clauses on words are the two outcomes at opcode 0, and NOP's meaning is the state itself. -/
theorem nopDoesNothing : Obligations.NopDoesNothing := by
  refine ⟨?_, fun cmd hop hne => ?_, fun _ => rfl⟩
  · calc decode (List.replicate 16 0) = decodeCommand 0 := rfl
      _ = .instr .nop := by rw [decodeCommand_of_op_zero (by decide), if_pos rfl]
  · rw [decodeCommand_of_op_zero hop, if_neg hne]

end Sys2Proof.Machine
end

section
/-! The decoder and the encoder undo each other (30_encoding.md R90 to R95): the encoder's fields are those the decoder
read, since every bit that is no operand has to be 0. -/

namespace Sys2Proof

/-- The round trip of the fields for every command, from the one for each constructor. -/
theorem fieldsRoundTrip : ∀ i : Instr, Laws.FieldsRoundTrip.Statement i
  | .nop => Laws.FieldsRoundTrip.nop
  | .setsurf a base w ht bpp => Laws.FieldsRoundTrip.setsurf a base w ht bpp
  | .tilesurf a id => Laws.FieldsRoundTrip.tilesurf a id
  | .glyphsurf a v code => Laws.FieldsRoundTrip.glyphsurf a v code
  | .pixset a x y c => Laws.FieldsRoundTrip.pixset a x y c
  | .pixget a x y => Laws.FieldsRoundTrip.pixget a x y
  | .cls a c => Laws.FieldsRoundTrip.cls a c
  | .rect a x y w ht c => Laws.FieldsRoundTrip.rect a x y w ht c
  | .rectb a x y w ht c => Laws.FieldsRoundTrip.rectb a x y w ht c
  | .blit d s x y scale k key hf vf => Laws.FieldsRoundTrip.blit d s x y scale k key hf vf
  | .torgba a => Laws.FieldsRoundTrip.torgba a
  | .mget x y => Laws.FieldsRoundTrip.mget x y
  | .mset x y id => Laws.FieldsRoundTrip.mset x y id
  | .palget i => Laws.FieldsRoundTrip.palget i
  | .glyphmet v code => Laws.FieldsRoundTrip.glyphmet v code
  | .recompute => Laws.FieldsRoundTrip.recompute
  | .btnset i pressed => Laws.FieldsRoundTrip.btnset i pressed
  | .btnget i => Laws.FieldsRoundTrip.btnget i
  | .mouseset mx my mb sx sy => Laws.FieldsRoundTrip.mouseset mx my mb sx sy
  | .mousepos => Laws.FieldsRoundTrip.mousepos
  | .mousebtn => Laws.FieldsRoundTrip.mousebtn
  | .scrollx => Laws.FieldsRoundTrip.scrollx
  | .scrolly => Laws.FieldsRoundTrip.scrolly
  | .memrd addr => Laws.FieldsRoundTrip.memrd addr
  | .memwr addr data => Laws.FieldsRoundTrip.memwr addr data
  | .load len => Laws.FieldsRoundTrip.load len
  | .stepbegin => Laws.FieldsRoundTrip.stepbegin
  | .stepend => Laws.FieldsRoundTrip.stepend
  | .clrstatus => Laws.FieldsRoundTrip.clrstatus

/-- The decoder on the bytes of a command value (R90). -/
@[simp] theorem decode_bytesOfCommand (cmd : Command) : decode (bytesOfCommand cmd) = decodeCommand cmd := by
  simp [decode]

theorem decode_encode {i : Instr} (hwf : i.WellFormed) : decode (encode i) = .instr i :=
  calc decode (encode i) = decodeCommand (packFields i.fields) := decode_bytesOfCommand _
    _ = i.fields.decode := by rw [decodeCommand, unpackFields_packFields]
    _ = .instr i := fieldsRoundTrip i hwf

/-- Settles O1: the bytes give back the command value, the value its fields, and the fields the command. -/
theorem decodeOfEncodeIsTheCommand : Obligations.DecodeOfEncodeIsTheCommand := fun _ hwf => decode_encode hwf

/-! What the decoder reads from a field, the encoder writes back. -/

@[simp] theorem code_slotOf (v : BitVec 2) : (slotOf v).code = v := by revert v; decide

@[simp] theorem bitOf_flagOf (b : BitVec 1) : bitOf (flagOf b) = b := by revert b; decide

theorem code_variantOf {c : BitVec 4} (h : c >>> 1 = 0) : (variantOf c).code = c := by
  revert c
  decide

/-- A field used in its low bits only is those bits. -/
theorem setWidth_extractLsb'_of_shift_eq_zero {w k : Nat} {v : BitVec w} (h : v >>> k = 0) :
    (v.extractLsb' 0 k).setWidth w = v := by
  apply BitVec.eq_of_getLsbD_eq
  intro i hi
  simp only [BitVec.getLsbD_setWidth, BitVec.getLsbD_extractLsb', hi, decide_true, Bool.true_and, Nat.zero_add]
  by_cases hik : i < k
  · simp [hik]
  · have hbit : (v >>> k).getLsbD (i - k) = false := by simp [h]
    rw [BitVec.getLsbD_ushiftRight, Nat.add_sub_cancel' (Nat.le_of_not_lt hik)] at hbit
    simp [hik, hbit]

theorem ofNat_extractLsb'_of_shift_eq_zero {w k : Nat} {v : BitVec w} (h : v >>> k = 0) :
    BitVec.ofNat w (v.extractLsb' 0 k).toNat = v := by
  rw [BitVec.ofNat_toNat, setWidth_extractLsb'_of_shift_eq_zero h]

/-- The mouse operands joined again are the low 19 bits of IMM. -/
theorem append_mouse_fields (v : BitVec 32) :
    v.extractLsb' 16 3 ++ v.extractLsb' 8 8 ++ v.extractLsb' 0 8 = v.extractLsb' 0 19 := by
  rw [BitVec.extractLsb'_append_extractLsb'_eq_extractLsb' (by rfl),
    BitVec.extractLsb'_append_extractLsb'_eq_extractLsb' (by rfl)]

theorem fitsS16_toInt (v : BitVec 16) : FitsS16 v.toInt := by
  have hlo := BitVec.le_toInt v
  have hhi := BitVec.toInt_lt (x := v)
  norm_num at hlo hhi
  omega

theorem fitsU32_toNat (v : BitVec 32) : FitsU32 v.toNat := v.isLt
theorem fitsU16_toNat (v : BitVec 16) : FitsU16 v.toNat := v.isLt
theorem fitsU4_toNat (v : BitVec 4) : FitsU4 v.toNat := v.isLt

/-- Every operand the decoder reads fits its field (R92). -/
theorem Fields.instr_wellFormed (f : Fields) (o : Opcode) : (f.instr o).WellFormed := by
  cases o with
  | setsurf | tilesurf | glyphsurf | glyphmet | memrd | memwr | load =>
    simp [Fields.instr, Instr.WellFormed, Instr.wellFormed, fitsU32_toNat, fitsU16_toNat, fitsU4_toNat]
  | pixset | pixget | rect | rectb | blit | mget | mset | mouseset =>
    simp [Fields.instr, Instr.WellFormed, Instr.wellFormed, fitsS16_toInt, fitsU16_toNat,
      Nat.mod_lt]
  | _ => rfl

/-- A word whose unused bits are 0 has the fields of the command it decodes to (R94): the fields of no operand are 0 on
both sides, and those of an operand are written back as they were read. -/
theorem Fields.fields_instr {f : Fields} {o : Opcode} (hop : f.op = o.code) (hunused : f.unused o = Fields.zero) :
    (f.instr o).fields = f := by
  obtain ⟨op, sa, sb, c, k, key, hf, vf, rsv, x, y, wd, ht, imm⟩ := f
  cases o with
  | glyphsurf | glyphmet =>
    simp_all [Fields.unused, Fields.zero, Fields.instr, Instr.fields, code_variantOf]
  | blit | mset | btnset | btnget | memwr =>
    simp_all [Fields.unused, Fields.zero, Fields.instr, Instr.fields, setWidth_extractLsb'_of_shift_eq_zero,
      -BitVec.extractLsb'_toNat]
  | mouseset =>
    simp_all [Fields.unused, Fields.zero, Fields.instr, Instr.fields, append_mouse_fields,
      setWidth_extractLsb'_of_shift_eq_zero]
  | _ => simp_all [Fields.unused, Fields.zero, Fields.instr, Instr.fields]

/-- Only the number of an opcode names it (R93, R95). -/
theorem eq_code_of_opcodeOf {v : BitVec 8} {o : Opcode} (h : opcodeOf v = some o) : v = o.code := by
  have hall : ∀ v : BitVec 8, (opcodeOf v).all (fun o => v = o.code) := by decide +kernel
  simpa [h] using hall v

theorem opcodeOf_eq_none {v : BitVec 8} : opcodeOf v = none ↔ 0x1D ≤ v.toNat := by
  revert v
  decide +kernel

/-- All that the fields of a command can decode to (R94). -/
theorem Fields.decode_cases (f : Fields) :
    (opcodeOf f.op = none ∧ f.decode = .illegalOpcode) ∨
    ∃ o, f.op = o.code ∧
      ((f.unused o = Fields.zero ∧ f.decode = .instr (f.instr o)) ∨
        (f.unused o ≠ Fields.zero ∧ f.decode = .reservedField)) := by
  unfold Fields.decode
  cases hop : opcodeOf f.op with
  | none => exact .inl ⟨rfl, rfl⟩
  | some o =>
    refine .inr ⟨o, eq_code_of_opcodeOf hop, ?_⟩
    by_cases hunused : f.unused o = Fields.zero
    · exact .inl ⟨hunused, if_pos hunused⟩
    · exact .inr ⟨hunused, if_neg hunused⟩

/-- A command decoded from fields is well formed, and has those fields. -/
theorem Fields.eq_fields_of_decode {f : Fields} {i : Instr} (h : f.decode = .instr i) :
    i.WellFormed ∧ i.fields = f := by
  rcases f.decode_cases with ⟨-, hill⟩ | ⟨o, hop, ⟨hunused, hinstr⟩ | ⟨-, hres⟩⟩
  · cases hill.symm.trans h
  · cases hinstr.symm.trans h
    exact ⟨f.instr_wellFormed o, Fields.fields_instr hop hunused⟩
  · cases hres.symm.trans h

/-- Only 16 bytes are a command value, and they are its bytes (R90). -/
theorem eq_bytesOfCommand_of_commandOfBytes {bytes : List Byte} {cmd : Command} (h : commandOfBytes bytes = some cmd) :
    bytes = bytesOfCommand cmd := by
  have hlen : bytes.length = 16 := by
    by_contra hne
    cases (Machine.commandOfBytes_eq_none.2 hne).symm.trans h
  match bytes, hlen with
  | [b0, b1, b2, b3, b4, b5, b6, b7, b8, b9, b10, b11, b12, b13, b14, b15], _ =>
    simp only [commandOfBytes, Option.some.injEq] at h
    subst h
    simp only [bytesOfCommand, List.range, List.range.loop, List.map, List.cons.injEq, and_true, wordOfBytes]
    refine ⟨?_, ?_, ?_, ?_, ?_, ?_, ?_, ?_, ?_, ?_, ?_, ?_, ?_, ?_, ?_, ?_⟩
    all_goals
      apply BitVec.eq_of_getLsbD_eq
      intro i hi
      simp only [BitVec.getLsbD_extractLsb', BitVec.getLsbD_append]
      interval_cases i <;> simp

/-- What bytes that decode to a command are: its encoding (R94: "every 128-bit value is either one command"). -/
theorem eq_encode_of_decode {bytes : List Byte} {i : Instr} (h : decode bytes = .instr i) :
    i.WellFormed ∧ encode i = bytes := by
  unfold decode at h
  split at h
  · rename_i cmd hcmd
    obtain ⟨hwf, hfields⟩ := Fields.eq_fields_of_decode h
    refine ⟨hwf, ?_⟩
    calc encode i = bytesOfCommand (packFields (unpackFields cmd)) := by rw [encode, encodeCommand, hfields]
      _ = bytesOfCommand cmd := by rw [packFields_unpackFields]
      _ = bytes := (eq_bytesOfCommand_of_commandOfBytes hcmd).symm
  · cases h

/-- Settles O2: the fields read are the fields of the command they decode to, so packing them gives the bytes back. -/
theorem encodeOfDecodeIsTheBytes : Obligations.EncodeOfDecodeIsTheBytes := fun _ _ h => eq_encode_of_decode h

/-- Settles O4, by evaluation of the four words of 95_test_vectors.md. -/
theorem specWordsDecode : Obligations.SpecWordsDecode := by
  unfold Obligations.SpecWordsDecode
  decide

end Sys2Proof
end

section
/-! The opcode table (30_encoding.md R93, R94): a mask covers the opcode and every bit its opcode does not use, so
`(CMD & mask) = match` says that the unused bits are 0. -/

namespace Sys2Proof

open Machine

/-- The bits two commands share, field by field. -/
def Fields.and (f g : Fields) : Fields :=
  { op := f.op &&& g.op, sa := f.sa &&& g.sa, sb := f.sb &&& g.sb, c := f.c &&& g.c, k := f.k &&& g.k,
    key := f.key &&& g.key, hf := f.hf &&& g.hf, vf := f.vf &&& g.vf, rsv := f.rsv &&& g.rsv, x := f.x &&& g.x,
    y := f.y &&& g.y, wd := f.wd &&& g.wd, ht := f.ht &&& g.ht, imm := f.imm &&& g.imm }

theorem unpackFields_and (a b : Command) : unpackFields (a &&& b) = (unpackFields a).and (unpackFields b) := by
  simp [unpackFields, Fields.and, BitVec.extractLsb'_and]

theorem unpackFields_inj {a b : Command} : unpackFields a = unpackFields b ↔ a = b := by
  refine ⟨fun h => ?_, congrArg _⟩
  rw [← packFields_unpackFields a, h, packFields_unpackFields]

/-- A masked command compared with a value, field by field. -/
theorem and_eq_iff_fields (cmd mask value : Command) :
    cmd &&& mask = value ↔ (unpackFields cmd).and (unpackFields mask) = unpackFields value := by
  rw [← unpackFields_and, unpackFields_inj]

/-- A mask of the bits from `k` up sees what a shift by `k` leaves. -/
theorem and_allOnes_shiftLeft_eq_zero {w : Nat} (v : BitVec w) (k : Nat) :
    v &&& BitVec.allOnes w <<< k = 0 ↔ v >>> k = 0 := by
  constructor <;> intro h <;> apply BitVec.eq_of_getLsbD_eq <;> intro i hi
  · by_cases hk : k + i < w
    · have hbit : (v &&& BitVec.allOnes w <<< k).getLsbD (k + i) = false := by simp [h]
      simpa [hk] using hbit
    · simp [BitVec.getLsbD_of_ge v (k + i) (by omega)]
  · by_cases hk : i < k
    · simp [hk]
    · have hbit : (v >>> k).getLsbD (i - k) = false := by simp [h]
      rw [BitVec.getLsbD_ushiftRight, Nat.add_sub_cancel' (Nat.le_of_not_lt hk)] at hbit
      simp [hbit]

/-! The masks of R93 in their fields: a whole field, or all but its used low bits. -/

theorem and_eq_self_of_eq_allOnes {w : Nat} {v mask : BitVec w} (h : mask = BitVec.allOnes w) : v &&& mask = v := by
  rw [h, BitVec.and_allOnes]

theorem and_variant_mask (c : BitVec 4) : c &&& 0xE#4 = 0#4 ↔ c >>> 1 = 0#4 := and_allOnes_shiftLeft_eq_zero c 1

theorem and_data_mask (wd : BitVec 16) : wd &&& 0xFF00#16 = 0#16 ↔ wd >>> 8 = 0#16 :=
  and_allOnes_shiftLeft_eq_zero wd 8

theorem and_button_mask (imm : BitVec 32) : imm &&& 0xFFFFFFE0#32 = 0#32 ↔ imm >>> 5 = 0#32 :=
  and_allOnes_shiftLeft_eq_zero imm 5

theorem and_byte_mask (imm : BitVec 32) : imm &&& 0xFFFFFF00#32 = 0#32 ↔ imm >>> 8 = 0#32 :=
  and_allOnes_shiftLeft_eq_zero imm 8

theorem and_mouse_mask (imm : BitVec 32) : imm &&& 0xFFF80000#32 = 0#32 ↔ imm >>> 19 = 0#32 :=
  and_allOnes_shiftLeft_eq_zero imm 19

/-- The mask of an opcode's row leaves the bits that `Fields.unused` leaves (R93, R94 step 2). -/
theorem Fields.unused_eq_zero_iff {f : Fields} {o : Opcode} {mask : Command}
    (hrow : (o.code.toNat, mask) ∈ opcodeRows) (hop : f.op = o.code) :
    f.unused o = Fields.zero ↔ f.and (unpackFields mask) = unpackFields (BitVec.ofNat 128 o.code.toNat) := by
  cases o
  all_goals
    simp [opcodeRows, Opcode.code] at hrow
    subst hrow
    simp (disch := decide) [Fields.unused, Fields.zero, Fields.and, unpackFields, hop, Opcode.code,
      and_eq_self_of_eq_allOnes, and_variant_mask, and_data_mask, and_button_mask, and_byte_mask, and_mouse_mask]

/-- What a command of an assigned opcode decodes to, by its row of the table (R94). -/
theorem decodeCommand_of_row {cmd : Command} {o : Opcode} {mask : Command} (hrow : (o.code.toNat, mask) ∈ opcodeRows)
    (hop : cmd.extractLsb' 0 8 = o.code) :
    (cmd &&& mask = BitVec.ofNat 128 o.code.toNat ∧ decodeCommand cmd = .instr ((unpackFields cmd).instr o)) ∨
    (cmd &&& mask ≠ BitVec.ofNat 128 o.code.toNat ∧ decodeCommand cmd = .reservedField) := by
  have hop' : (unpackFields cmd).op = o.code := hop
  rw [ne_eq, and_eq_iff_fields, ← Fields.unused_eq_zero_iff hrow hop', decodeCommand, Fields.decode, hop',
    opcodeOf_code]
  by_cases hunused : (unpackFields cmd).unused o = Fields.zero
  · exact .inl ⟨hunused, if_pos hunused⟩
  · exact .inr ⟨hunused, if_neg hunused⟩

theorem decodeCommand_eq_illegalOpcode {cmd : Command} :
    decodeCommand cmd = .illegalOpcode ↔ 0x1D ≤ (cmd.extractLsb' 0 8).toNat := by
  rw [← opcodeOf_eq_none]
  rcases (unpackFields cmd).decode_cases with ⟨hnone, hill⟩ | ⟨o, hop, hdec⟩
  · exact ⟨fun _ => hnone, fun _ => hill⟩
  · have hsome : opcodeOf (cmd.extractLsb' 0 8) = some o := by
      rw [show cmd.extractLsb' 0 8 = o.code from hop, opcodeOf_code]
    rcases hdec with ⟨-, hdec⟩ | ⟨-, hdec⟩ <;> simp [decodeCommand, hdec, hsome]

/-- Every row of the table is that of an assigned opcode (R93). -/
theorem exists_code_of_mem_opcodeRows {v : BitVec 8} {mask : Command} (h : (v.toNat, mask) ∈ opcodeRows) :
    ∃ o : Opcode, v = o.code := by
  have hlt : ¬0x1D ≤ v.toNat := by
    have hall : ∀ row ∈ opcodeRows, row.1 < 0x1D := by decide
    exact Nat.not_le.2 (hall _ h)
  cases hop : opcodeOf v with
  | none => exact absurd (opcodeOf_eq_none.1 hop) hlt
  | some o => exact ⟨o, eq_code_of_opcodeOf hop⟩

/-- Settles O3: the opcode decides ILLEGAL_OPCODE, and its row's mask decides between the command and RESERVED_FIELD. -/
theorem opcodeTableDecidesTheCommand : Obligations.OpcodeTableDecidesTheCommand := by
  intro cmd
  refine ⟨decodeCommand_eq_illegalOpcode, ?_⟩
  rintro op mask hrow rfl
  obtain ⟨o, hop⟩ := exists_code_of_mem_opcodeRows hrow
  rw [hop] at hrow ⊢
  rcases decodeCommand_of_row hrow hop with ⟨hmatch, hdec⟩ | ⟨hmatch, hdec⟩
  · exact ⟨⟨fun _ => hmatch, fun _ => ⟨_, hdec⟩⟩, fun h => absurd (hdec.symm.trans h) nofun,
      fun h => absurd hmatch h⟩
  · exact ⟨⟨fun ⟨_, hi⟩ => absurd (hdec.symm.trans hi) nofun, fun h => absurd h hmatch⟩, fun _ => hmatch,
      fun _ => hdec⟩

end Sys2Proof
end

section
/-! What one command can do to the state, said once (10_state.md R22 to R31; 60_exceptions.md R330 to R332): each
command ends in one named operation of the state. -/

namespace Sys2Proof.Machine

/-- What stays true of the arena memory whatever a command stores: its canonical form, and that it lists arena addresses
only. -/
structure Memory.Arena (p : Params) (m : Memory) : Prop where
  wf : Memory.wf (arenaUnlisted p) m
  below : Memory.below arenaSize m

theorem Memory.Arena.nil (p : Params) : Memory.Arena p [] := ⟨Memory.wf_nil _, fun _ hc => absurd hc List.not_mem_nil⟩

theorem Memory.Arena.set {p : Params} {m : Memory} (h : Memory.Arena p m) {a : Nat} (ha : a < arenaSize) (v : Byte) :
    Memory.Arena p (arenaSet p m a v) := ⟨arenaSet_wf h.wf a v, arenaSet_below h.below ha v⟩

theorem Memory.Arena.setPix {p : Params} {S : Surface} (hS : S.Legal) (x y : Int) (v : Nibble) (m : Memory)
    (h : Memory.Arena p m) : Memory.Arena p (setPix p S x y v m) :=
  ⟨setPix_wf h.wf x y v, setPix_below hS h.below x y v⟩

/-- What a command makes of the state: one constructor for each operation a command can end in, with the commands that
may use it and what it keeps of the invariant. -/
inductive Effect (i : Instr) (s : State) : State → Prop
  | unchanged : Effect i s s
  /-- R331. -/
  | error (e : ErrorName) (writes : writesErr i = true) : Effect i s (s.raise e)
  /-- R24, R170. -/
  | slot (a : SlotId) (S : Surface) (writes : writesSlot i = true) (legal : S.Legal)
      (widths : i.WellFormed → S.w < 65536 ∧ S.h < 65536) : Effect i s (s.setSlot a S)
  /-- R26. -/
  | result (v : Word32) (writes : writesResult i = true) : Effect i s (s.setResult v)
  /-- R69. -/
  | arena (m : Memory) (writes : writesArena i = true) (keeps : Memory.Arena s.cfg s.arena → Memory.Arena s.cfg m) :
      Effect i s (s.setArena m)
  /-- R227. -/
  | recompute (writes : writesMet i = true) : Effect i s (s.setMet (metrics s.cfg s.arena))
  /-- R31, R183. -/
  | rgba (out : List Byte) (writes : writesRgba i = true) (whole : out.length % 4 = 0) : Effect i s (s.setRgba out)
  /-- R146. -/
  | install (chunks : List Chunk) (img : Image) (built : buildImage s.cfg chunks = .ok img)
      (writes : writesArena i = true ∧ writesMet i = true ∧ writesProg i = true) : Effect i s (s.install img)
  /-- R303, R304. -/
  | inStep (b : Bool) (writes : writesInStep i = true) : Effect i s (s.setInStep b)
  /-- R305. -/
  | clear (clrstatus : i = .clrstatus) : Effect i s s.clearErr

theorem effect_setsurf {a : SlotId} {base w h bpp : Nat} {s t : State}
    (hexec : execSetsurf a base w h bpp s = .next t) : Effect (.setsurf a base w h bpp) s t := by
  unfold execSetsurf at hexec
  split at hexec
  · cases hexec; exact .error .badSurface rfl
  · rename_i d _
    dsimp only at hexec
    split at hexec
    · cases hexec; exact .error .badSurface rfl
    · rename_i hextent
      cases hexec
      refine .slot a ⟨base, w, h, d⟩ rfl (Nat.le_of_not_lt hextent) fun hwf => ?_
      simp only [Instr.WellFormed, Instr.wellFormed, decide_eq_true_eq] at hwf
      exact ⟨hwf.2.1, hwf.2.2.1⟩

theorem tileView_legal {id : Nat} (h : id < spriteCount) : (tileView id).Legal := by
  simp only [Surface.Legal, tileView, Surface.extent, Depth.bits, arenaSize, spriteBase, spriteBytes]
  simp only [spriteCount] at h
  omega

theorem glyphView_legal {v : Variant} {code : Nat} (h : code < glyphCodes) : (glyphView v code).Legal := by
  simp only [glyphCodes] at h
  cases v <;>
  · simp only [Surface.Legal, glyphView, glyphAddr, variantNumber, Surface.extent, Depth.bits, arenaSize, fontBase,
      glyphBytes]
    omega

theorem empty4_legal : empty4.Legal := by decide
theorem empty1_legal : empty1.Legal := by decide

/-- Where the view that TILESURF loads lies, and its size (R220 to R222). -/
theorem tilesurf_view (id : Nat) :
    (if id < spriteCount then tileView id else empty4).Legal ∧
      (if id < spriteCount then tileView id else empty4).w < 65536 ∧
      (if id < spriteCount then tileView id else empty4).h < 65536 := by
  split
  · rename_i h
    exact ⟨tileView_legal h, by simp [tileView], by simp [tileView]⟩
  · exact ⟨empty4_legal, by decide, by decide⟩

/-- Where the view that GLYPHSURF loads lies, and its size (R221, R223, R224). -/
theorem glyphsurf_view (v : Variant) (code : Nat) :
    (if code < glyphCodes then glyphView v code else empty1).Legal ∧
      (if code < glyphCodes then glyphView v code else empty1).w < 65536 ∧
      (if code < glyphCodes then glyphView v code else empty1).h < 65536 := by
  split
  · rename_i h
    exact ⟨glyphView_legal h, by simp [glyphView], by simp [glyphView]⟩
  · exact ⟨empty1_legal, by decide, by decide⟩

theorem effect_pixset {a : SlotId} {x y : Int} {c : Nibble} {s t : State} (hexec : execPixset a x y c s = .next t) :
    Effect (.pixset a x y c) s t := by
  obtain ⟨hlegal, hnext⟩ := State.onSurface_eq_next.1 hexec
  cases hnext
  exact .arena _ rfl (Memory.Arena.setPix hlegal x y c _)

theorem effect_pixget {a : SlotId} {x y : Int} {s t : State} (hexec : execPixget a x y s = .next t) :
    Effect (.pixget a x y) s t := by
  obtain ⟨-, hnext⟩ := State.onSurface_eq_next.1 hexec
  cases hnext
  exact .result _ rfl

theorem effect_cls {a : SlotId} {c : Nibble} {s t : State} (hexec : execCls a c s = .next t) :
    Effect (.cls a c) s t := by
  obtain ⟨hlegal, hnext⟩ := State.onSurface_eq_next.1 hexec
  cases hnext
  exact .arena _ rfl fun h => clearSurface_keeps (Memory.Arena.setPix hlegal) h c

theorem effect_rect {a : SlotId} {x y : Int} {w h : Nat} {c : Nibble} {s t : State}
    (hexec : execRect a x y w h c s = .next t) : Effect (.rect a x y w h c) s t := by
  obtain ⟨hlegal, hnext⟩ := State.onSurface_eq_next.1 hexec
  cases hnext
  exact .arena _ rfl fun hm => fillRect_keeps (Memory.Arena.setPix hlegal) hm x y w h c

theorem effect_rectb {a : SlotId} {x y : Int} {w h : Nat} {c : Nibble} {s t : State}
    (hexec : execRectb a x y w h c s = .next t) : Effect (.rectb a x y w h c) s t := by
  obtain ⟨hlegal, hnext⟩ := State.onSurface_eq_next.1 hexec
  cases hnext
  exact .arena _ rfl fun hm => outlineRect_keeps (Memory.Arena.setPix hlegal) hm x y w h c

theorem effect_blit {d src : SlotId} {x y : Int} {scale : Nat} {k : Bool} {key : Nibble} {hf vf : Bool} {s t : State}
    (hexec : execBlit d src x y scale k key hf vf s = .next t) : Effect (.blit d src x y scale k key hf vf) s t := by
  obtain ⟨hlegal, hsource⟩ := State.onSurface_eq_next.1 hexec
  obtain ⟨-, hnext⟩ := State.onSurface_eq_next.1 hsource
  cases hnext
  exact .arena _ rfl fun h => blitSurface_keeps (Memory.Arena.setPix hlegal) h x y scale k key hf vf

theorem effect_torgba {a : SlotId} {s t : State} (hexec : execTorgba a s = .next t) : Effect (.torgba a) s t := by
  obtain ⟨-, hnext⟩ := State.onSurface_eq_next.1 hexec
  cases hnext
  refine .rgba _ rfl ?_
  rw [length_rgbaSurface, Nat.mul_assoc, Nat.mul_mod_right]

theorem effect_mget {x y : Int} {s t : State} (hexec : execMget x y s = .next t) : Effect (.mget x y) s t := by
  unfold execMget at hexec
  split at hexec
  · cases hexec; exact .result _ rfl
  · cases hexec; exact .result 0 rfl

theorem effect_memrd {addr : Nat} {s t : State} (hexec : execMemrd addr s = .next t) : Effect (.memrd addr) s t := by
  unfold execMemrd at hexec
  split at hexec
  · cases hexec; exact .error .addrRange rfl
  · cases hexec; exact .result _ rfl

theorem effect_mset {x y : Int} {id : Byte} {s t : State} (hexec : execMset x y id s = .next t) :
    Effect (.mset x y id) s t := by
  unfold execMset at hexec
  split at hexec
  · rename_i a ha
    cases hexec
    exact .arena _ rfl fun h => h.set (mapAddr_lt ha) id
  · cases hexec; exact .unchanged

theorem effect_memwr {addr : Nat} {data : Byte} {s t : State} (hexec : execMemwr addr data s = .next t) :
    Effect (.memwr addr data) s t := by
  unfold execMemwr at hexec
  split at hexec
  · cases hexec; exact .error .addrRange rfl
  · rename_i haddr
    cases hexec
    exact .arena _ rfl fun h => h.set (Nat.lt_of_not_le haddr) data

theorem mouseWrite_eq (mx my : Byte) (mb : BitVec 3) (sx sy : Int) (s : State) :
    mouseWrite mx my mb sx sy s = s.setArena (mouseWrite mx my mb sx sy s).arena := rfl

theorem effect_mouseset (mx my : Byte) (mb : BitVec 3) (sx sy : Int) (s : State) :
    Effect (.mouseset mx my mb sx sy) s (mouseWrite mx my mb sx sy s) := by
  rw [mouseWrite_eq]
  exact .arena _ rfl fun h =>
    (((h.set (by decide) _).set (by decide) _).set (by decide) _).set (by decide) _

theorem effect_load {len : Nat} {s t : State} (hexec : execLoad len s = .next t) : Effect (.load len) s t := by
  rcases execLoad_cases len s with ⟨-, h⟩ | ⟨-, e, -, h⟩ | ⟨-, img, himg, h⟩
  · cases h.symm.trans hexec; exact .error .addrRange rfl
  · cases h.symm.trans hexec; exact .error e rfl
  · cases h.symm.trans hexec
    obtain ⟨chunks, -, hbuilt⟩ := loadImage_eq_ok himg
    exact .install chunks img hbuilt ⟨rfl, rfl, rfl⟩

/-- All that a command can do when it answers a next state. -/
theorem exec_effect {i : Instr} {s t : State} (hexec : exec i s = .next t) : Effect i s t := by
  cases i with
  | nop => cases hexec; exact .unchanged
  | setsurf => exact effect_setsurf hexec
  | tilesurf a id =>
    cases hexec
    obtain ⟨hlegal, hwidths⟩ := tilesurf_view id
    exact .slot a _ rfl hlegal fun _ => hwidths
  | glyphsurf a v code =>
    cases hexec
    obtain ⟨hlegal, hwidths⟩ := glyphsurf_view v code
    exact .slot a _ rfl hlegal fun _ => hwidths
  | pixset => exact effect_pixset hexec
  | pixget => exact effect_pixget hexec
  | cls => exact effect_cls hexec
  | rect => exact effect_rect hexec
  | rectb => exact effect_rectb hexec
  | blit => exact effect_blit hexec
  | torgba => exact effect_torgba hexec
  | mset => exact effect_mset hexec
  | memwr => exact effect_memwr hexec
  | mget => exact effect_mget hexec
  | memrd => exact effect_memrd hexec
  | palget | glyphmet | btnget | mousepos | mousebtn | scrollx | scrolly => cases hexec; exact .result _ rfl
  | recompute => cases hexec; exact .recompute rfl
  | btnset i pressed => cases hexec; exact .arena _ rfl fun h => h.set (buttonAddr_lt i) _
  | mouseset => cases hexec; exact effect_mouseset ..
  | load => exact effect_load hexec
  | stepbegin | stepend => cases hexec; exact .inStep _ rfl
  | clrstatus => cases hexec; exact .clear rfl

/-! What follows for every command at once. -/

/-- Settles O14: each operation writes its own part of the state, and only the commands named for that part use it. -/
theorem onlyNamedCommandsWriteEachRegister : Obligations.OnlyNamedCommandsWriteEachRegister := by
  intro i s t hexec
  cases exec_effect hexec with
  | unchanged => simp
  | error e writes => simp [writes]
  | slot a S writes => simp [writes]
  | result v writes => simp [writes]
  | arena m writes => simp [writes]
  | recompute writes => simp [writes]
  | rgba out writes => simp [writes]
  | install chunks img built writes => simp [writes]
  | inStep b writes => simp [writes]
  | clear clrstatus => subst clrstatus; simp [writesErr]

/-- Settles O12: recording an error is an operation by itself, and no other sets ERR. -/
theorem errorsArePrecise : Obligations.ErrorsArePrecise := by
  intro i s t hexec hclear hset
  cases exec_effect hexec with
  | error e => rfl
  | clear => exact absurd rfl hset
  | _ => simp_all

/-- Settles O13: an error raised on top of another keeps the first, and only CLRSTATUS clears it. -/
theorem firstErrorIsKept : Obligations.FirstErrorIsKept := by
  intro i s t hne hexec herr
  cases exec_effect hexec with
  | error e => rw [State.raise_err_of_ne e herr]
  | clear clrstatus => exact absurd clrstatus hne
  | _ => simp

end Sys2Proof.Machine
end

section
/-! One step, and the commands of the port one after the other (10_state.md R22; 20_memory.md R72, R73). -/

namespace Sys2Proof.Machine

theorem step_of_instr {s : State} {i : Instr} (h : decode s.fetchBytes = .instr i) :
    step s = finishCommand (exec i s) := by
  rw [step, h]

theorem step_of_illegalOpcode {s : State} (h : decode s.fetchBytes = .illegalOpcode) :
    step s = .next (s.raise .illegalOpcode).advance := by
  rw [step, h]
  rfl

theorem step_of_reservedField {s : State} (h : decode s.fetchBytes = .reservedField) :
    step s = .next (s.raise .reservedField).advance := by
  rw [step, h]
  rfl

theorem step_of_incomplete {s : State} (h : decode s.fetchBytes = .incomplete) : step s = .next s := by
  rw [step, h]
  rfl

/-- Settles O5: the end of the command, with the index advanced where it is a next state. -/
theorem stepRunsTheDecodedCommand : Obligations.StepRunsTheDecodedCommand := by
  intro s i h
  rw [step_of_instr h]
  cases exec i s <;> rfl

/-- Settles O7: codes 1 and 2 are those of the two decoding errors. -/
theorem malformedCommandOnlyRecordsItsError : Obligations.MalformedCommandOnlyRecordsItsError :=
  fun _ => ⟨fun h => step_of_illegalOpcode h, fun h => step_of_reservedField h⟩

/-- Settles O8: fewer than 16 bytes are no command. -/
theorem idleStepKeepsTheState : Obligations.IdleStepKeepsTheState := by
  intro s hlen
  have hnone : commandOfBytes s.fetchBytes = none := commandOfBytes_eq_none.2 (Nat.ne_of_lt hlen)
  exact step_of_incomplete (by rw [decode, hnone])

@[simp] theorem length_encode (i : Instr) : (encode i).length = 16 := length_bytesOfCommand _

/-- A command keeps the port and the index, which the step advances (R22; log 19). -/
theorem exec_port {i : Instr} {s t : State} (hexec : exec i s = .next t) :
    t.commands = s.commands ∧ t.index = s.index := by
  obtain ⟨-, -, hcommands, hindex, -⟩ := onlyNamedCommandsWriteEachRegister i s t hexec
  exact ⟨hcommands, hindex⟩

theorem run_succ_of_next {k : Nat} {s t : State} (h : step s = .next t) :
    Sys2Proof.core.run (k + 1) s = Sys2Proof.core.run k t := by
  have hcore : Sys2Proof.core.step s = .next t := h
  simp only [Host.Core.run, hcore]

theorem run_succ_of_fault {k : Nat} {s : State} {f : Fault} (h : step s = .fault f) :
    Sys2Proof.core.run (k + 1) s = .fault f := by
  have hcore : Sys2Proof.core.step s = .fault f := h
  simp only [Host.Core.run, hcore]

theorem run_succ_of_refused {k : Nat} {s : State} {r : Refusal} (h : step s = .refused r) :
    Sys2Proof.core.run (k + 1) s = .refused r := by
  have hcore : Sys2Proof.core.step s = .refused r := h
  simp only [Host.Core.run, hcore]

/-- The engine runs the commands that wait at the port as `runCommands` does: each step takes the next of them, since
the one before has advanced the index past its own 16 bytes. -/
theorem run_eq_runCommands {is : List Instr} {s : State} {done : List Byte} (hwf : ∀ i ∈ is, i.WellFormed)
    (hcommands : s.commands = done ++ is.flatMap encode) (hdone : done.length = 16 * s.index) :
    Sys2Proof.core.run is.length s = runCommands is s := by
  induction is generalizing s done with
  | nil => rfl
  | cons i is ih =>
    obtain ⟨hi, his⟩ := List.forall_mem_cons.1 hwf
    have hfetch : s.fetchBytes = encode i := by
      rw [State.fetchBytes, hcommands, ← hdone, List.drop_left, List.flatMap_cons]
      exact List.take_left' (length_encode i)
    have hstep : step s = finishCommand (exec i s) := step_of_instr (hfetch ▸ decode_encode hi)
    rw [List.length_cons, runCommands]
    cases hexec : exec i s with
    | next u =>
      obtain ⟨hport, hindex⟩ := exec_port hexec
      rw [hexec] at hstep
      rw [run_succ_of_next hstep]
      refine ih (s := u.advance) (done := done ++ encode i) his ?_ ?_
      · rw [State.advance_commands, hport, hcommands, List.flatMap_cons, List.append_assoc]
      · rw [State.advance_index, hindex, List.length_append, length_encode, hdone]
        omega
    | fault f =>
      rw [hexec] at hstep
      exact run_succ_of_fault hstep
    | refused r =>
      rw [hexec] at hstep
      exact run_succ_of_refused hstep

/-- Settles O6: on an idle port the commands issued stand right behind the finished ones. -/
theorem issuedCommandsRunInOrder : Obligations.IssuedCommandsRunInOrder :=
  fun _ _ hwf hidle => run_eq_runCommands hwf rfl hidle

end Sys2Proof.Machine
end

section
/-! The invariant of the block: it holds after reset, every step keeps it, and under it no step stops. -/

namespace Sys2Proof.Machine

theorem metrics_bounded (p : Params) (m : Memory) : (metrics p m).Bounded := by
  intro v c
  rw [metricAt_metrics]
  exact glyphMetrics_le p m v c

theorem Slots.Legal.set {t : Slots} (h : t.Legal) (a : SlotId) {S : Surface} (hS : S.Legal)
    (hw : S.w < 65536 ∧ S.h < 65536) : (t.set a S).Legal := by
  refine ⟨fun k => ?_, fun k => ?_⟩ <;> rw [Slots.get_set] <;> split
  · exact hS
  · exact h.legal k
  · exact hw
  · exact h.widths k

theorem errorCode_le (e : ErrorName) : errorCode e ≤ 7 := (errorCode_range e).2

theorem State.Inv.raise {s : State} (h : s.Inv) (e : ErrorName) : (s.raise e).Inv := by
  refine { h with err := ?_ }
  show (if s.err = 0 then errorCode e else s.err) ≤ 7
  split
  · exact errorCode_le e
  · exact h.err

/-- The index moves past a command that stands complete at the port (R22, R90). -/
theorem State.Inv.advance {s : State} (h : s.Inv) (hport : s.fetchBytes.length = 16) : s.advance.Inv := by
  refine { h with index := ?_ }
  rw [State.fetchBytes, List.length_take, List.length_drop] at hport
  show 16 * (s.index + 1) ≤ s.commands.length
  omega

theorem State.Inv.setArena {s : State} (h : s.Inv) {m : Memory} (hm : Memory.Arena s.cfg m) : (s.setArena m).Inv :=
  { h with arena_wf := hm.wf, arena_below := hm.below }

theorem State.Inv.setMet {s : State} (h : s.Inv) {t : MetricTable} (ht : t.Bounded) : (s.setMet t).Inv :=
  { h with met := ht }

theorem State.Inv.install {s : State} (h : s.Inv) {chunks : List Chunk} {img : Image}
    (hbuilt : buildImage s.cfg chunks = .ok img) : (s.install img).Inv := by
  obtain ⟨hwf, hbelow, htext⟩ := buildImage_wf hbuilt
  obtain ⟨m, -, -, -, -, hmet⟩ := buildImage_eq_ok hbuilt
  exact { h with arena_wf := hwf, arena_below := hbelow, prog := htext,
                 met := (congrArg MetricTable.Bounded hmet).mpr (metrics_bounded s.cfg _) }

/-- Every command that has an encoding keeps the invariant. -/
theorem Effect.inv {i : Instr} {s t : State} (heffect : Effect i s t) (hwf : i.WellFormed) (h : s.Inv) : t.Inv := by
  cases heffect with
  | unchanged => exact h
  | error e => exact h.raise e
  | slot a S _ legal widths => exact { h with slots := h.slots.set a legal (widths hwf) }
  | result v => exact { h with }
  | arena m _ keeps => exact h.setArena (keeps ⟨h.arena_wf, h.arena_below⟩)
  | recompute => exact h.setMet (metrics_bounded s.cfg s.arena)
  | rgba out _ whole => exact { h with rgba := whole }
  | install chunks img built => exact h.install built
  | inStep b => exact { h with }
  | clear => exact { h with err := Nat.zero_le 7 }

theorem length_eq_of_decode {bytes : List Byte} (h : decode bytes ≠ .incomplete) : bytes.length = 16 := by
  by_contra hlen
  exact h (by rw [decode, commandOfBytes_eq_none.2 hlen])

/-- Settles O9: a decoded command is well formed and keeps the invariant, a rejected word raises its error, and an index
that advances has a whole command before it. -/
theorem stepKeepsTheInvariant : Obligations.StepKeepsTheInvariant := by
  intro s t hinv hstep
  rcases step_cases hstep with ⟨i, u, hdec, hexec, rfl⟩ | ⟨hdec, rfl⟩ | ⟨hdec, rfl⟩ | ⟨-, rfl⟩
  · have hport : s.fetchBytes.length = 16 := length_eq_of_decode (hdec ▸ nofun)
    obtain ⟨hcommands, hindex⟩ := exec_port hexec
    refine State.Inv.advance ((exec_effect hexec).inv (eq_encode_of_decode hdec).1 hinv) ?_
    rw [State.fetchBytes, hcommands, hindex]
    exact hport
  · have hport : s.fetchBytes.length = 16 := length_eq_of_decode (hdec ▸ nofun)
    exact (hinv.raise _).advance hport
  · have hport : s.fetchBytes.length = 16 := length_eq_of_decode (hdec ▸ nofun)
    exact (hinv.raise _).advance hport
  · exact hinv

theorem Slots.reset_legal : Slots.reset.Legal := by
  refine ⟨fun k => ?_, fun k => ?_⟩ <;> cases k <;> decide

theorem State.inv_resetWith {p : Params} {cart : Memory} (hwf : Memory.wf cartUnlisted cart)
    (hbelow : Memory.below p.cartSize cart) : (State.resetWith p cart).Inv where
  arena_wf := Memory.wf_nil _
  arena_below := (Memory.Arena.nil p).below
  slots := Slots.reset_legal
  err := Nat.zero_le 7
  met := metrics_bounded p []
  prog := rfl
  rgba := rfl
  cart_wf := hwf
  cart_below := hbelow
  index := Nat.le_refl 0

/-- Settles O10: `State.reset` is the case of the default configuration and an unfilled cartridge. -/
theorem resetHasTheInvariant : Obligations.ResetHasTheInvariant :=
  ⟨State.inv_resetWith (Memory.wf_nil _) fun _ hc => absurd hc List.not_mem_nil,
    fun _ _ hwf hbelow => State.inv_resetWith hwf hbelow⟩

/-! What each surface command does on a legal slot, R170's only kind. -/

section
variable {s : State} {a : SlotId}

theorem exec_pixset_of_legal (h : (s.slot a).Legal) {x y : Int} {c : Nibble} :
    exec (.pixset a x y c) s = .next (s.setArena (setPix s.cfg (s.slot a) x y c s.arena)) := by
  rw [exec, execPixset, State.onSurface_of_legal h]

theorem exec_pixget_of_legal (h : (s.slot a).Legal) {x y : Int} :
    exec (.pixget a x y) s = .next (s.setResult ((pixelOrZero s.cfg s.arena (s.slot a) x y).setWidth 32)) := by
  rw [exec, execPixget, State.onSurface_of_legal h]

theorem exec_cls_of_legal (h : (s.slot a).Legal) {c : Nibble} :
    exec (.cls a c) s = .next (s.setArena (clearSurface s.cfg (s.slot a) c s.arena)) := by
  rw [exec, execCls, State.onSurface_of_legal h]

theorem exec_rect_of_legal (h : (s.slot a).Legal) {x y : Int} {w ht : Nat} {c : Nibble} :
    exec (.rect a x y w ht c) s = .next (s.setArena (fillRect s.cfg (s.slot a) x y w ht c s.arena)) := by
  rw [exec, execRect, State.onSurface_of_legal h]

theorem exec_rectb_of_legal (h : (s.slot a).Legal) {x y : Int} {w ht : Nat} {c : Nibble} :
    exec (.rectb a x y w ht c) s = .next (s.setArena (outlineRect s.cfg (s.slot a) x y w ht c s.arena)) := by
  rw [exec, execRectb, State.onSurface_of_legal h]

theorem exec_torgba_of_legal (h : (s.slot a).Legal) :
    exec (.torgba a) s = .next (s.setRgba (rgbaSurface s.cfg s.arena (s.slot a))) := by
  rw [exec, execTorgba, State.onSurface_of_legal h]

theorem exec_blit_of_legal {d src : SlotId} (hd : (s.slot d).Legal) (hsrc : (s.slot src).Legal) {x y : Int}
    {scale : Nat} {k : Bool} {key : Nibble} {hf vf : Bool} :
    exec (.blit d src x y scale k key hf vf) s =
      .next (s.setArena (blitSurface s.cfg (s.slot d) (s.slot src) x y scale k key hf vf s.arena)) := by
  rw [exec, execBlit, State.onSurface_of_legal hd, State.onSurface_of_legal hsrc]

end

/-- On legal slots every command answers a next state: only a surface command can fault, and only on an illegal slot. -/
theorem exec_next_of_legal {s : State} (hlegal : ∀ k, (s.slot k).Legal) (i : Instr) : ∃ t, exec i s = .next t := by
  cases i with
  | pixset a => exact ⟨_, exec_pixset_of_legal (hlegal a)⟩
  | pixget a => exact ⟨_, exec_pixget_of_legal (hlegal a)⟩
  | cls a => exact ⟨_, exec_cls_of_legal (hlegal a)⟩
  | rect a => exact ⟨_, exec_rect_of_legal (hlegal a)⟩
  | rectb a => exact ⟨_, exec_rectb_of_legal (hlegal a)⟩
  | torgba a => exact ⟨_, exec_torgba_of_legal (hlegal a)⟩
  | blit d src => exact ⟨_, exec_blit_of_legal (hlegal d) (hlegal src)⟩
  | setsurf a base w h bpp =>
    simp only [exec, execSetsurf]
    split
    · exact ⟨_, rfl⟩
    · split <;> exact ⟨_, rfl⟩
  | mget | mset | memrd | memwr =>
    simp only [exec, execMget, execMset, execMemrd, execMemwr]
    split <;> exact ⟨_, rfl⟩
  | load len =>
    rcases execLoad_cases len s with ⟨-, h⟩ | ⟨-, _, -, h⟩ | ⟨-, _, -, h⟩ <;> exact ⟨_, h⟩
  | _ => exact ⟨_, rfl⟩

/-- Settles O11: the slots are legal by the invariant, and a word that does not decode is a next state too. -/
theorem blockNeverStops : Obligations.BlockNeverStops := by
  intro s hinv
  cases hdec : decode s.fetchBytes with
  | instr i =>
    obtain ⟨t, hexec⟩ := exec_next_of_legal hinv.slots.legal i
    exact ⟨t.advance, by rw [step_of_instr hdec, hexec]; rfl⟩
  | illegalOpcode => exact ⟨_, step_of_illegalOpcode hdec⟩
  | reservedField => exact ⟨_, step_of_reservedField hdec⟩
  | incomplete => exact ⟨_, step_of_incomplete hdec⟩

end Sys2Proof.Machine
end

section
/-! The canonical form of memory (log 18), and what reset leaves (10_state.md R35; 70_reset_and_hazards.md R360). -/

namespace Sys2Proof.Machine

theorem Memory.read_of_unlisted {u : Nat → Byte} {m : Memory} {a : Nat} (h : ∀ c ∈ m, c.1 ≠ a) :
    Memory.read u m a = u a := by
  induction m with
  | nil => rfl
  | cons c rest ih =>
    obtain ⟨hc, hrest⟩ := List.forall_mem_cons.1 h
    rw [Memory.read, if_neg hc, ih hrest]

theorem Memory.wf_cons {u : Nat → Byte} {c : Host.Cell} {m : Memory} :
    Memory.wf u (c :: m) ↔ (∀ d ∈ m, c.1 < d.1) ∧ c.2 ≠ u c.1 ∧ Memory.wf u m := by
  simp only [Memory.wf, List.pairwise_cons, List.forall_mem_cons]
  tauto

/-- A memory in canonical form whose addresses all lie past `a` reads otherwise at `a` than one that begins there. -/
theorem Memory.read_ne_of_lt {u : Nat → Byte} {a : Nat} {v : Byte} {m n : Memory} (hv : v ≠ u a)
    (hpast : ∀ c ∈ n, a < c.1) : Memory.read u ((a, v) :: m) a ≠ Memory.read u n a := by
  rw [Memory.read_of_unlisted fun c hc => (Nat.ne_of_lt (hpast c hc)).symm, Memory.read, if_pos rfl]
  exact hv

/-- Settles O16, by induction over both lists: the first addresses agree, or the lower one reads differently; then so do
their bytes, and past them the rests read alike. -/
theorem equalMemoriesAreEqualData : Obligations.EqualMemoriesAreEqualData := by
  intro u m
  induction m with
  | nil =>
    rintro (_ | ⟨⟨b, w⟩, n⟩) - hn hread
    · rfl
    · obtain ⟨-, hw, -⟩ := Memory.wf_cons.1 hn
      exact absurd (hread b).symm (Memory.read_ne_of_lt hw (by simp))
  | cons c m ih =>
    obtain ⟨a, v⟩ := c
    rintro (_ | ⟨⟨b, w⟩, n⟩) hm hn hread <;> obtain ⟨hpast, hv, hm'⟩ := Memory.wf_cons.1 hm
    · exact absurd (hread a) (Memory.read_ne_of_lt hv (by simp))
    · obtain ⟨hpast', hw, hn'⟩ := Memory.wf_cons.1 hn
      rcases Nat.lt_trichotomy a b with hlt | rfl | hlt
      · refine absurd (hread a) (Memory.read_ne_of_lt hv (List.forall_mem_cons.2 ⟨hlt, fun d hd => ?_⟩))
        exact Nat.lt_trans hlt (hpast' d hd)
      · have hvw : v = w := by simpa [Memory.read] using hread a
        have hrest : ∀ d, Memory.read u m d = Memory.read u n d := by
          intro d
          by_cases hd : a = d
          · subst hd
            rw [Memory.read_of_unlisted fun c hc => (Nat.ne_of_lt (hpast c hc)).symm,
              Memory.read_of_unlisted fun c hc => (Nat.ne_of_lt (hpast' c hc)).symm]
          · simpa [Memory.read, hd] using hread d
        rw [hvw, ih n hm' hn' hrest]
      · refine absurd (hread b).symm (Memory.read_ne_of_lt hw (List.forall_mem_cons.2 ⟨hlt, fun d hd => ?_⟩))
        exact Nat.lt_trans hlt (hpast d hd)

/-- A byte of the font region that memory does not list is DEFAULT_FONT's (R35). -/
theorem arenaUnlisted_font (p : Params) {c : Nat} (h : c < 2048) : arenaUnlisted p (0x08020 + c) = p.font[c] := by
  have hfont : fontBase ≤ 0x08020 + c ∧ 0x08020 + c < fontBase + fontSize := by
    simp only [fontBase, fontSize]
    omega
  rw [arenaUnlisted, dif_pos hfont]
  simp

/-- Any other byte that memory does not list is 0 (R35). -/
theorem arenaUnlisted_of_not_font (p : Params) {a : Nat} (h : ¬(0x08020 ≤ a ∧ a < 0x08020 + 2048)) :
    arenaUnlisted p a = 0 := dif_neg h

/-- Settles O18: the arena after reset lists no byte, so it reads as R35 has it; every other value is a field of
`State.resetWith`. -/
theorem resetLeavesTheStatedValues : Obligations.ResetLeavesTheStatedValues := by
  intro s
  exact ⟨fun c h => arenaUnlisted_font s.cfg h, fun a h => arenaUnlisted_of_not_font s.cfg h, rfl, rfl, rfl, rfl, rfl,
    by simp [State.hardReset, State.resetWith, State.status], rfl, rfl, metricAt_metrics s.cfg [], rfl, rfl, rfl, rfl,
    rfl, rfl⟩

/-- Settles O19: an observer's read asks for IN_STEP = 0 first. -/
theorem observersReadOnlyBetweenSteps : Obligations.ObserversReadOnlyBetweenSteps := by
  intro s a
  refine ⟨fun h => ?_, fun h ha => ?_, fun h => ?_⟩
  · simp [State.observeByte, State.observeRgba, h]
  · exact if_pos ⟨h, ha⟩
  · exact if_pos h

end Sys2Proof.Machine
end

section
/-! The control, memory access and step commands (45_control.md), and SETSURF, TILESURF, GLYPHSURF and the fault of a
surface command (41_pixel.md R170, R174; 42_atlas.md R220 to R224). -/

namespace Sys2Proof.Machine

/-- A field placed at bit `k` above one of less than `k` bits: the word is their sum. -/
theorem toNat_or_shiftLeft {w : Nat} {a b : BitVec w} {k : Nat} (ha : a.toNat < 2 ^ k) (hb : b.toNat * 2 ^ k < 2 ^ w) :
    (a ||| b <<< k).toNat = a.toNat + 2 ^ k * b.toNat := by
  rw [BitVec.toNat_or, BitVec.toNat_shiftLeft, Nat.shiftLeft_eq, Nat.mod_eq_of_lt hb, Nat.or_comm, Nat.mul_comm,
    ← Nat.two_pow_add_eq_or_of_lt ha, Nat.add_comm]

theorem State.status_toNat (s : State) : s.status.toNat = s.err.toNat + 256 * s.inStep.toNat := by
  have herr := s.err.isLt
  have hstep := s.inStep.toNat_lt
  rw [State.status, toNat_or_shiftLeft]
  · simp; omega
  · simp; omega
  · simp; omega

/-- Settles O21: STATUS is the sum of its two fields. -/
theorem stepCommandsSetTheirFlag : Obligations.StepCommandsSetTheirFlag := by
  intro s
  refine ⟨⟨s.setInStep true, rfl, rfl, ?_⟩, ⟨s.setInStep false, rfl, rfl, ?_⟩⟩
  · rw [State.status_toNat]
    simp [Nat.add_comm]
  · rw [State.status_toNat]
    simp

/-- Settles O22: without an error STATUS is its IN_STEP bit. -/
theorem clrstatusClearsTheError : Obligations.ClrstatusClearsTheError := by
  intro s
  refine ⟨s.clearErr, rfl, rfl, BitVec.eq_of_toNat_eq ?_⟩
  rw [State.status_toNat]
  cases hstep : s.inStep <;> simp [hstep]

/-- Settles O23: the two sides of the last address. -/
theorem memrdReadsOneByte : Obligations.MemrdReadsOneByte := by
  intro addr s
  simp only [exec, execMemrd, ge_iff_le, arenaSize]
  by_cases haddr : addr < 84416
  · rw [if_neg (Nat.not_le.2 haddr), if_pos haddr, BitVec.ofNat_toNat]
    rfl
  · rw [if_pos (Nat.le_of_not_lt haddr), if_neg haddr]
    rfl

/-- Settles O24: the two sides of the last address. -/
theorem memwrWritesOneByte : Obligations.MemwrWritesOneByte := by
  intro addr data s
  simp only [exec, execMemwr, ge_iff_le, arenaSize]
  by_cases haddr : addr < 84416
  · rw [if_neg (Nat.not_le.2 haddr)]
    exact ⟨_, rfl, fun _ => ⟨rfl, fun a => s.byte_setByte addr a data⟩, fun h => absurd haddr (Nat.not_lt.2 h)⟩
  · rw [if_pos (Nat.le_of_not_lt haddr)]
    exact ⟨_, rfl, fun h => absurd h haddr, fun _ => rfl⟩

/-- The depths that SETSURF takes are those of 1 and of 4 bits (R174). -/
theorem depthOf_eq_some {bpp : Nat} {d : Depth} : depthOf bpp = some d ↔ d.bits = bpp := by
  unfold depthOf
  cases d <;> simp only [Depth.bits] <;> split_ifs <;> simp <;> omega

theorem depthOf_eq_none {bpp : Nat} : depthOf bpp = none ↔ ¬(bpp = 1 ∨ bpp = 4) := by
  unfold depthOf
  split_ifs <;> simp <;> omega

/-- All that SETSURF does (R174): it loads the surface if its depth and extent are legal, else it raises BAD_SURFACE. -/
theorem execSetsurf_cases (a : SlotId) (base w h bpp : Nat) (s : State) :
    (∃ d : Depth, d.bits = bpp ∧ (⟨base, w, h, d⟩ : Surface).Legal ∧
      execSetsurf a base w h bpp s = .next (s.setSlot a ⟨base, w, h, d⟩)) ∨
    (¬((bpp = 1 ∨ bpp = 4) ∧ base + (w * h * bpp + 7) / 8 ≤ 84416) ∧
      execSetsurf a base w h bpp s = .next (s.raise .badSurface)) := by
  unfold execSetsurf
  cases hd : depthOf bpp with
  | none => exact .inr ⟨fun h => depthOf_eq_none.1 hd h.1, rfl⟩
  | some d =>
    have hbits : d.bits = bpp := depthOf_eq_some.1 hd
    dsimp only
    split
    · rename_i hextent
      refine .inr ⟨fun h => Nat.not_le.2 hextent ?_, rfl⟩
      rw [← hbits] at h
      exact h.2
    · rename_i hextent
      exact .inl ⟨d, hbits, Nat.le_of_not_lt hextent, rfl⟩

/-- Settles O25, from the two cases of SETSURF. -/
theorem setsurfLoadsALegalSurface : Obligations.SetsurfLoadsALegalSurface := by
  intro a base w h bpp s
  rcases execSetsurf_cases a base w h bpp s with ⟨d, hbits, hlegal, hexec⟩ | ⟨hbad, hexec⟩
  · refine ⟨_, hexec, fun _ => ?_, fun hbad => absurd ?_ hbad⟩
    · have hslot : (s.setSlot a ⟨base, w, h, d⟩).slot a = ⟨base, w, h, d⟩ := by simp
      rw [hslot]
      exact ⟨rfl, rfl, rfl, rfl, hbits, hlegal, fun b hb => by rw [State.slot_setSlot, if_neg hb]⟩
    · subst hbits
      exact ⟨by cases d <;> simp [Depth.bits], hlegal⟩
  · exact ⟨_, hexec, fun hgood => absurd hgood hbad, fun _ => rfl⟩

/-- Settles O34: every surface command asks for its slots first. -/
theorem illegalSlotFaults : Obligations.IllegalSlotFaults := by
  intro a b x y w h scale c k hf vf s hillegal
  have hfault : ∀ f : Surface → Result, s.onSurface a f = .fault .illegalSlot :=
    fun f => State.onSurface_of_illegal hillegal
  simp only [exec, execPixset, execPixget, execCls, execRect, execRectb, execTorgba, execBlit, hfault, true_and]
  by_cases hb : (s.slot b).Legal
  · exact State.onSurface_of_legal hb
  · exact State.onSurface_of_illegal hb

/-- Loading a slot is all that happens, and no other slot changes (R24). -/
theorem slot_setSlot_frame (s : State) (a : SlotId) (S : Surface) :
    s.setSlot a S = { s with slots := (s.setSlot a S).slots } ∧ (s.setSlot a S).slot a = S ∧
      ∀ b, b ≠ a → (s.setSlot a S).slot b = s.slot b :=
  ⟨rfl, by simp, fun b hb => by simp [hb]⟩

/-- Settles O35: TILESURF loads one slot with a legal view. -/
theorem tilesurfLoadsTheTileView : Obligations.TilesurfLoadsTheTileView := by
  intro a id s
  obtain ⟨hframe, hslot, hothers⟩ := slot_setSlot_frame s a (if id < spriteCount then tileView id else empty4)
  obtain ⟨hlegal, -⟩ := tilesurf_view id
  exact ⟨_, rfl, hframe, hslot, hslot.symm ▸ hlegal, hothers⟩

/-- A variant's number and the field that names it agree (R93, R223). -/
theorem variantNumber_eq (v : Variant) : variantNumber v = v.code.toNat := by cases v <;> rfl

/-- Settles O36: GLYPHSURF loads one slot with a legal view. -/
theorem glyphsurfLoadsTheGlyphView : Obligations.GlyphsurfLoadsTheGlyphView := by
  intro a v code s
  obtain ⟨hframe, hslot, hothers⟩ := slot_setSlot_frame s a (if code < glyphCodes then glyphView v code else empty1)
  obtain ⟨hlegal, -⟩ := glyphsurf_view v code
  refine ⟨_, rfl, hframe, hslot.trans ?_, hslot.symm ▸ hlegal, hothers⟩
  rw [glyphView, glyphAddr, variantNumber_eq]
  rfl

end Sys2Proof.Machine
end

section
/-! Drawing as a list of pixel writes (41_pixel.md R173, R177 to R179). Each drawing loop is `paint` of its list; what
`paint` does to the pixels, bytes and bits is proved once. -/

namespace Sys2Proof.Machine

/-- One SetPix of a drawing loop: its coordinates and its colour. -/
structure PixelWrite where
  x : Int
  y : Int
  c : Nibble

/-- The arena after a list of SetPix calls, in order. -/
def paint (p : Params) (D : Surface) (ws : List PixelWrite) (m : Memory) : Memory :=
  ws.foldl (fun m w => setPix p D w.x w.y w.c m) m

@[simp] theorem paint_nil (p : Params) (D : Surface) (m : Memory) : paint p D [] m = m := rfl

@[simp] theorem paint_cons (p : Params) (D : Surface) (w : PixelWrite) (ws : List PixelWrite) (m : Memory) :
    paint p D (w :: ws) m = paint p D ws (setPix p D w.x w.y w.c m) := rfl

theorem paint_append (p : Params) (D : Surface) (ws ws' : List PixelWrite) (m : Memory) :
    paint p D (ws ++ ws') m = paint p D ws' (paint p D ws m) := List.foldl_append

/-- A loop whose rounds each paint a list paints the lists one after the other. -/
theorem fold_eq_paint {p : Params} {D : Surface} {n : Nat} {f : (i : Nat) → i < n → Memory → Memory}
    {l : Nat → List PixelWrite} (hf : ∀ i hi m, f i hi m = paint p D (l i) m) (m : Memory) :
    Nat.fold n f m = paint p D ((List.range n).flatMap l) m := by
  induction n with
  | zero => rfl
  | succ n ih =>
    rw [Nat.fold_succ, hf, ih fun i hi m => hf i (by omega) m, List.range_succ, List.flatMap_append,
      List.flatMap_singleton, paint_append]

/-- The writes of a `w × h` box in one colour, row-major. -/
def boxWrites (x y : Int) (w h : Nat) (c : Nibble) : List PixelWrite :=
  (List.range h).flatMap fun (j : Nat) => (List.range w).flatMap fun (i : Nat) => [⟨x + i, y + j, c⟩]

theorem mem_boxWrites {x y : Int} {w h : Nat} {c : Nibble} {v : PixelWrite} :
    v ∈ boxWrites x y w h c ↔ v.c = c ∧ x ≤ v.x ∧ v.x < x + w ∧ y ≤ v.y ∧ v.y < y + h := by
  obtain ⟨vx, vy, vc⟩ := v
  simp only [boxWrites, List.mem_flatMap, List.mem_range, List.mem_singleton, PixelWrite.mk.injEq]
  constructor
  · rintro ⟨j, hj, i, hi, rfl, rfl, rfl⟩
    exact ⟨rfl, by omega⟩
  · rintro ⟨rfl, hx, hx', hy, hy'⟩
    exact ⟨(vy - y).toNat, by omega, (vx - x).toNat, by omega, by omega, by omega, rfl⟩

theorem fold_box_eq_paint (p : Params) (D : Surface) (x y : Int) (w h : Nat) (c : Nibble) (m : Memory) :
    Nat.fold h (fun j _ m => Nat.fold w (fun i _ m => setPix p D (x + i) (y + j) c m) m) m =
      paint p D (boxWrites x y w h c) m :=
  fold_eq_paint (l := fun (j : Nat) => (List.range w).flatMap fun (i : Nat) => [⟨x + i, y + j, c⟩])
    (fun j _ m => fold_eq_paint (l := fun (i : Nat) => [⟨x + i, y + j, c⟩]) (fun _ _ _ => rfl) m) m

theorem clearSurface_eq_paint (p : Params) (S : Surface) (c : Nibble) (m : Memory) :
    clearSurface p S c m = paint p S (boxWrites 0 0 S.w S.h c) m := by
  rw [← fold_box_eq_paint, clearSurface]
  simp only [Int.zero_add]

/-- A box of width or height 0 has no writes, so the test for it in RECT decides nothing (R178). -/
theorem boxWrites_eq_nil {x y : Int} {w h : Nat} {c : Nibble} (hzero : w = 0 ∨ h = 0) : boxWrites x y w h c = [] := by
  rcases hzero with rfl | rfl <;> simp [boxWrites]

theorem fillRect_eq_paint (p : Params) (S : Surface) (x y : Int) (w h : Nat) (c : Nibble) (m : Memory) :
    fillRect p S x y w h c m = paint p S (boxWrites x y w h c) m := by
  unfold fillRect
  split
  · rename_i hzero
    rw [boxWrites_eq_nil hzero, paint_nil]
  · exact fold_box_eq_paint p S x y w h c m

theorem blitBlock_eq_paint (p : Params) (D : Surface) (x y : Int) (scale : Nat) (c : Nibble) (m : Memory) :
    blitBlock p D x y scale c m = paint p D (boxWrites x y scale scale c) m := fold_box_eq_paint p D x y scale scale c m

/-- The writes of RECTB: the top and bottom edge, then the left and right (R179). -/
def borderWrites (x y : Int) (w h : Nat) (c : Nibble) : List PixelWrite :=
  if w = 0 ∨ h = 0 then []
  else
    ((List.range w).flatMap fun (i : Nat) => [⟨x + i, y, c⟩, ⟨x + i, y + h - 1, c⟩]) ++
      (List.range h).flatMap fun (j : Nat) => [⟨x, y + j, c⟩, ⟨x + w - 1, y + j, c⟩]

theorem mem_borderWrites {x y : Int} {w h : Nat} {c : Nibble} {v : PixelWrite} :
    v ∈ borderWrites x y w h c ↔
      v.c = c ∧ (x ≤ v.x ∧ v.x < x + w ∧ y ≤ v.y ∧ v.y < y + h) ∧
        (v.x = x ∨ v.x = x + w - 1 ∨ v.y = y ∨ v.y = y + h - 1) := by
  obtain ⟨vx, vy, vc⟩ := v
  unfold borderWrites
  split
  · simp only [List.not_mem_nil, false_iff]
    omega
  simp only [List.mem_append, List.mem_flatMap, List.mem_range, List.mem_cons, List.not_mem_nil, or_false,
    PixelWrite.mk.injEq]
  constructor
  · rintro (⟨i, hi, ⟨rfl, rfl, rfl⟩ | ⟨rfl, rfl, rfl⟩⟩ | ⟨j, hj, ⟨rfl, rfl, rfl⟩ | ⟨rfl, rfl, rfl⟩⟩) <;>
      exact ⟨rfl, by omega⟩
  · rintro ⟨rfl, hbox, hx | hx | hy | hy⟩
    · exact .inr ⟨(vy - y).toNat, by omega, .inl ⟨hx, by omega, rfl⟩⟩
    · exact .inr ⟨(vy - y).toNat, by omega, .inr ⟨hx, by omega, rfl⟩⟩
    · exact .inl ⟨(vx - x).toNat, by omega, .inl ⟨by omega, hy, rfl⟩⟩
    · exact .inl ⟨(vx - x).toNat, by omega, .inr ⟨by omega, hy, rfl⟩⟩

theorem outlineRect_eq_paint (p : Params) (S : Surface) (x y : Int) (w h : Nat) (c : Nibble) (m : Memory) :
    outlineRect p S x y w h c m = paint p S (borderWrites x y w h c) m := by
  unfold outlineRect borderWrites
  split
  · rfl
  · rw [paint_append]
    have hrows := fold_eq_paint (p := p) (D := S) (n := w)
      (l := fun (i : Nat) => [⟨x + i, y, c⟩, ⟨x + i, y + h - 1, c⟩]) (fun _ _ _ => rfl) m
    have hcolumns := fold_eq_paint (p := p) (D := S) (n := h)
      (l := fun (j : Nat) => [⟨x, y + j, c⟩, ⟨x + w - 1, y + j, c⟩]) (fun _ _ _ => rfl) (outlineRows p S x y w h c m)
    rw [← hrows]
    exact hcolumns

/-! What `paint` does. -/

theorem pixelOrZero_of_contains {p : Params} {m : Memory} {S : Surface} {x y : Int} (h : S.Contains x y) :
    pixelOrZero p m S x y = getPix p m S ⟨x.toNat, by omega⟩ ⟨y.toNat, by omega⟩ := dif_pos h

theorem pixelOrZero_of_not_contains {p : Params} {m : Memory} {S : Surface} {x y : Int} (h : ¬S.Contains x y) :
    pixelOrZero p m S x y = 0 := dif_neg h

/-- The set/get law of R173 at integer coordinates. -/
theorem pixelOrZero_setPix_self {p : Params} {S : Surface} {x y : Int} (h : S.Contains x y) (v : Nibble) (m : Memory) :
    pixelOrZero p (setPix p S x y v m) S x y = S.bpp.stored v := by
  rw [pixelOrZero_of_contains h, getPix_setPix, if_pos ⟨by simp; omega, by simp; omega⟩]
  rfl

theorem pixelOrZero_setPix_of_ne {p : Params} {S : Surface} {x y x' y' : Int} (hne : ¬(x = x' ∧ y = y')) (v : Nibble)
    (m : Memory) : pixelOrZero p (setPix p S x y v m) S x' y' = pixelOrZero p m S x' y' := by
  by_cases h : S.Contains x' y'
  · rw [pixelOrZero_of_contains h, pixelOrZero_of_contains h, getPix_setPix, if_neg]
    simp only
    omega
  · rw [pixelOrZero_of_not_contains h, pixelOrZero_of_not_contains h]

theorem pixelOrZero_paint_of_not_mem {p : Params} {D : Surface} {ws : List PixelWrite} {x y : Int}
    (h : ∀ w ∈ ws, ¬(w.x = x ∧ w.y = y)) (m : Memory) :
    pixelOrZero p (paint p D ws m) D x y = pixelOrZero p m D x y := by
  induction ws generalizing m with
  | nil => rfl
  | cons w ws ih =>
    obtain ⟨hw, hws⟩ := List.forall_mem_cons.1 h
    rw [paint_cons, ih hws, pixelOrZero_setPix_of_ne hw]

/-- A pixel of the surface that the list writes holds the one colour written there, masked to the depth. -/
theorem pixelOrZero_paint_of_mem {p : Params} {D : Surface} {ws : List PixelWrite} {x y : Int} {c : Nibble}
    (hxy : D.Contains x y) (hcolour : ∀ w ∈ ws, w.x = x ∧ w.y = y → w.c = c) (hmem : ∃ w ∈ ws, w.x = x ∧ w.y = y)
    (m : Memory) : pixelOrZero p (paint p D ws m) D x y = D.bpp.stored c := by
  induction ws generalizing m with
  | nil => simp at hmem
  | cons w ws ih =>
    obtain ⟨hw, hws⟩ := List.forall_mem_cons.1 hcolour
    rw [paint_cons]
    by_cases hlater : ∃ w ∈ ws, w.x = x ∧ w.y = y
    · exact ih hws hlater _
    · obtain ⟨w', hw', hxy'⟩ := hmem
      have hhead : w.x = x ∧ w.y = y := by
        rcases List.mem_cons.1 hw' with rfl | hin
        · exact hxy'
        · exact absurd ⟨w', hin, hxy'⟩ hlater
      have hkept : ∀ w ∈ ws, ¬(w.x = x ∧ w.y = y) := fun w hin hat => hlater ⟨w, hin, hat⟩
      rw [pixelOrZero_paint_of_not_mem hkept, ← hw hhead, ← hhead.1, ← hhead.2]
      exact pixelOrZero_setPix_self (by rw [hhead.1, hhead.2]; exact hxy) _ _

theorem arenaGet_paint_of_ne {p : Params} {D : Surface} {ws : List PixelWrite} {a : Nat}
    (h : ∀ w ∈ ws, D.Contains w.x w.y → a ≠ pixByte D w.x.toNat w.y.toNat) (m : Memory) :
    arenaGet p (paint p D ws m) a = arenaGet p m a := by
  induction ws generalizing m with
  | nil => rfl
  | cons w ws ih =>
    obtain ⟨hw, hws⟩ := List.forall_mem_cons.1 h
    rw [paint_cons, ih hws, arenaGet_setPix_of_ne _ _ _ _ _ _ _ hw]

theorem getLsbD_setPix_of_not_holds {p : Params} {D : Surface} {x y : Int} {a k : Nat} (hk : k < 8)
    (h : D.Contains x y → ¬D.HoldsBit x.toNat y.toNat a k) (v : Nibble) (m : Memory) :
    (arenaGet p (setPix p D x y v m) a).getLsbD k = (arenaGet p m a).getLsbD k := by
  classical
  rw [getLsbD_setPix _ _ _ _ _ _ _ _ hk, if_neg]
  rintro ⟨hxy, hbit⟩
  exact h hxy ((D.linearBit_iff _ _ _ _ hk).1 hbit)

theorem getLsbD_paint_of_not_holds {p : Params} {D : Surface} {ws : List PixelWrite} {a k : Nat} (hk : k < 8)
    (h : ∀ w ∈ ws, D.Contains w.x w.y → ¬D.HoldsBit w.x.toNat w.y.toNat a k) (m : Memory) :
    (arenaGet p (paint p D ws m) a).getLsbD k = (arenaGet p m a).getLsbD k := by
  induction ws generalizing m with
  | nil => rfl
  | cons w ws ih =>
    obtain ⟨hw, hws⟩ := List.forall_mem_cons.1 h
    rw [paint_cons, ih hws, getLsbD_setPix_of_not_holds hk hw]

/-- The pixels of a surface, written at integer and at natural coordinates. -/
theorem Surface.contains_natCast {S : Surface} {x y : Nat} : S.Contains x y ↔ x < S.w ∧ y < S.h := by
  simp only [Surface.Contains]
  omega

/-- Painting draws: `new` names, of the pixels on the surface, those the list writes, each with the colour written. -/
theorem draws_paint {s : State} {D : Surface} {ws : List PixelWrite} {new : Nat → Nat → Option Nibble}
    (hnew : ∀ x y c, x < D.w → y < D.h → (new x y = some c ↔ (⟨x, y, c⟩ : PixelWrite) ∈ ws)) :
    s.Draws (s.setArena (paint s.cfg D ws s.arena)) D new := by
  have hwritten : ∀ w ∈ ws, D.Contains w.x w.y →
      w.x.toNat < D.w ∧ w.y.toNat < D.h ∧ new w.x.toNat w.y.toNat = some w.c := by
    rintro ⟨x, y, c⟩ hw ⟨hx, hx', hy, hy'⟩
    simp only at hx hx' hy hy' ⊢
    refine ⟨by omega, by omega, (hnew _ _ _ (by omega) (by omega)).2 ?_⟩
    rw [Int.toNat_of_nonneg hx, Int.toNat_of_nonneg hy]
    exact hw
  refine ⟨rfl, fun x y c hx hy hc => ?_, fun x y hx hy hnone => ?_, fun a ha => ?_, fun a k hk hbit => ?_⟩
  · refine pixelOrZero_paint_of_mem (Surface.contains_natCast.2 ⟨hx, hy⟩) ?_ ⟨_, (hnew x y c hx hy).1 hc, rfl, rfl⟩ _
    rintro ⟨x', y', c'⟩ hw ⟨rfl, rfl⟩
    exact Option.some.inj (((hnew x y c' hx hy).2 hw).symm.trans hc)
  · refine pixelOrZero_paint_of_not_mem ?_ _
    rintro ⟨x', y', c'⟩ hw ⟨rfl, rfl⟩
    cases hnone.symm.trans ((hnew x y c' hx hy).2 hw)
  · refine arenaGet_paint_of_ne (fun w hw hxy => ?_) _
    obtain ⟨hx, hy, hc⟩ := hwritten w hw hxy
    exact ha _ _ hx hy (by rw [hc]; rfl)
  · refine getLsbD_paint_of_not_holds hk (fun w hw hxy => ?_) _
    obtain ⟨hx, hy, hc⟩ := hwritten w hw hxy
    exact hbit _ _ hx hy (by rw [hc]; rfl)

/-- Settles O26: PIXSET is the painting of one write. -/
theorem pixsetDrawsOnePixel : Obligations.PixsetDrawsOnePixel := by
  intro a x y c s hlegal
  refine ⟨_, exec_pixset_of_legal hlegal, draws_paint (ws := [⟨x, y, c⟩]) fun px py c' _ _ => ?_⟩
  simp only [Option.ite_none_right_eq_some, Option.some.injEq, List.mem_singleton, PixelWrite.mk.injEq]
  tauto

/-- Settles O28: CLS paints the box of the whole surface, which has every pixel of it. -/
theorem clsDrawsEveryPixel : Obligations.ClsDrawsEveryPixel := by
  intro a c s hlegal
  refine ⟨_, exec_cls_of_legal hlegal, ?_⟩
  rw [clearSurface_eq_paint]
  refine draws_paint fun px py c' hx hy => ?_
  rw [mem_boxWrites, Option.some.injEq, eq_comm]
  dsimp only
  exact ⟨fun hc => ⟨hc, by omega⟩, fun ⟨hc, _⟩ => hc⟩

/-- Settles O29: RECT paints its box. -/
theorem rectDrawsItsBox : Obligations.RectDrawsItsBox := by
  intro a x y w h c s hlegal
  refine ⟨_, exec_rect_of_legal hlegal, ?_⟩
  rw [fillRect_eq_paint]
  refine draws_paint fun px py c' _ _ => ?_
  rw [mem_boxWrites, Option.ite_none_right_eq_some, Option.some.injEq, and_comm, eq_comm]

/-- Settles O30: RECTB paints the border of its box. -/
theorem rectbDrawsTheBorder : Obligations.RectbDrawsTheBorder := by
  intro a x y w h c s hlegal
  refine ⟨_, exec_rectb_of_legal hlegal, ?_⟩
  rw [outlineRect_eq_paint]
  refine draws_paint fun px py c' _ _ => ?_
  rw [mem_borderWrites, Option.ite_none_right_eq_some, Option.some.injEq, and_comm, eq_comm]

end Sys2Proof.Machine
end

section
/-! BLIT as one painting for each source pixel (41_pixel.md R180 to R182). -/

namespace Sys2Proof.Machine

/-- The value BLIT reads for source pixel (i, j): the mirrored pixel, as the arena stands (R180, R181). -/
def sourceColour (p : Params) (m : Memory) (S : Surface) (hf vf : Bool) (i j : Int) : Nibble :=
  pixelOrZero p m S (if hf then S.w - 1 - i else i) (if vf then S.h - 1 - j else j)

/-- The writes of one source pixel: none if its value is the key, else its block (R180). -/
def pixelWrites (p : Params) (m : Memory) (S : Surface) (x y : Int) (scale : Nat) (k : Bool) (key : Nibble)
    (hf vf : Bool) (ij : Nat × Nat) : List PixelWrite :=
  if k = true ∧ sourceColour p m S hf vf ij.1 ij.2 = key then []
  else boxWrites (x + ij.1 * scale) (y + ij.2 * scale) scale scale (sourceColour p m S hf vf ij.1 ij.2)

section
variable {p : Params} {S D : Surface} {x y : Int} {scale : Nat} {k : Bool} {key : Nibble} {hf vf : Bool}

theorem sourceColour_eq_getPix (m : Memory) (i : Fin S.w) (j : Fin S.h) :
    sourceColour p m S hf vf (i : Nat) (j : Nat) = getPix p m S (flipIndex hf i) (flipIndex vf j) := by
  have hi := flipIndex_val hf i
  have hj := flipIndex_val vf j
  have hx : (if hf then (S.w : Int) - 1 - (i : Nat) else (i : Nat)) = (flipIndex hf i : Nat) := by
    rw [hi]; cases hf <;> simp; omega
  have hy : (if vf then (S.h : Int) - 1 - (j : Nat) else (j : Nat)) = (flipIndex vf j : Nat) := by
    rw [hj]; cases vf <;> simp; omega
  rw [sourceColour, hx, hy, pixelOrZero_of_contains (Surface.contains_natCast.2 ⟨Fin.isLt _, Fin.isLt _⟩)]
  rfl

theorem blitPixel_eq_paint (m : Memory) (i : Fin S.w) (j : Fin S.h) :
    blitPixel p D S x y scale k key hf vf i j m = paint p D (pixelWrites p m S x y scale k key hf vf (i, j)) m := by
  simp only [blitPixel, pixelWrites, ← sourceColour_eq_getPix]
  split
  · rfl
  · exact blitBlock_eq_paint ..

/-- BLIT's loop body over a list of source pixels: each read as the arena then stands, then painted. -/
def blitPixels (p : Params) (D S : Surface) (x y : Int) (scale : Nat) (k : Bool) (key : Nibble) (hf vf : Bool)
    (pixels : List (Nat × Nat)) (m : Memory) : Memory :=
  pixels.foldl (fun m ij => paint p D (pixelWrites p m S x y scale k key hf vf ij) m) m

@[simp] theorem blitPixels_nil (m : Memory) : blitPixels p D S x y scale k key hf vf [] m = m := rfl

@[simp] theorem blitPixels_cons (ij : Nat × Nat) (pixels : List (Nat × Nat)) (m : Memory) :
    blitPixels p D S x y scale k key hf vf (ij :: pixels) m =
      blitPixels p D S x y scale k key hf vf pixels (paint p D (pixelWrites p m S x y scale k key hf vf ij) m) := rfl

/-- A loop over natural numbers is the fold over their range. -/
theorem fold_eq_foldl_range {n : Nat} {f : (i : Nat) → i < n → Memory → Memory} {g : Memory → Nat → Memory}
    (hfg : ∀ i hi m, f i hi m = g m i) (m : Memory) : Nat.fold n f m = (List.range n).foldl g m := by
  induction n with
  | zero => rfl
  | succ n ih =>
    rw [Nat.fold_succ, hfg, ih fun i hi m => hfg i (by omega) m, List.range_succ, List.foldl_append]
    rfl

/-- A scale of 0 has empty blocks, so the test for it in BLIT decides nothing (R180). -/
theorem blitPixels_of_scale_zero (pixels : List (Nat × Nat)) (m : Memory) :
    blitPixels p D S x y 0 k key hf vf pixels m = m := by
  induction pixels generalizing m with
  | nil => rfl
  | cons ij pixels ih =>
    rw [blitPixels_cons, ih, pixelWrites, boxWrites_eq_nil (.inl rfl), ite_self, paint_nil]

theorem blitSurface_eq_blitPixels (m : Memory) :
    blitSurface p D S x y scale k key hf vf m = blitPixels p D S x y scale k key hf vf (sourcePixels S) m := by
  unfold blitSurface
  split
  · rename_i hzero
    rw [hzero, blitPixels_of_scale_zero]
  · rw [blitPixels, sourcePixels, List.foldl_flatMap]
    refine fold_eq_foldl_range (fun j hj m => ?_) m
    rw [List.foldl_map]
    exact fold_eq_foldl_range (fun i hi m => blitPixel_eq_paint m ⟨i, hi⟩ ⟨j, hj⟩) m

theorem mem_sourcePixels {i j : Nat} : (i, j) ∈ sourcePixels S ↔ i < S.w ∧ j < S.h := by
  simp only [sourcePixels, List.mem_flatMap, List.mem_range, List.mem_map, Prod.mk.injEq]
  constructor
  · rintro ⟨j', hj, i', hi, rfl, rfl⟩
    exact ⟨hi, hj⟩
  · rintro ⟨hi, hj⟩
    exact ⟨j, hj, i, hi, rfl, rfl⟩

/-! Surfaces that do not overlap: every source pixel reads as it did at the start. -/

theorem pixelOrZero_congr {m n : Memory} {i j : Int}
    (h : S.Contains i j → arenaGet p m (pixByte S i.toNat j.toNat) = arenaGet p n (pixByte S i.toNat j.toNat)) :
    pixelOrZero p m S i j = pixelOrZero p n S i j := by
  by_cases hij : S.Contains i j
  · rw [pixelOrZero_of_contains hij, pixelOrZero_of_contains hij, getPix, getPix, h hij]
  · rw [pixelOrZero_of_not_contains hij, pixelOrZero_of_not_contains hij]

theorem Surface.le_pixByte (S : Surface) (i j : Nat) : S.base ≤ pixByte S i j := Nat.le_add_right _ _

/-- No byte of a pixel of one surface holds a pixel of a disjoint other. -/
theorem Surface.Disjoint.pixByte_ne (h : S.Disjoint D) {i j i' j' : Nat} (hi : i < S.w) (hj : j < S.h) (hi' : i' < D.w)
    (hj' : j' < D.h) : pixByte S i j ≠ pixByte D i' j' := by
  have hs := pixByte_lt S hi hj
  have hd := pixByte_lt D hi' hj'
  have hs' := S.le_pixByte i j
  have hd' := D.le_pixByte i' j'
  rcases h with h | h <;> omega

theorem sourceColour_paint (h : S.Disjoint D) (ws : List PixelWrite) (m : Memory) (i j : Int) :
    sourceColour p (paint p D ws m) S hf vf i j = sourceColour p m S hf vf i j := by
  refine pixelOrZero_congr fun hij => arenaGet_paint_of_ne (fun w _ hw => ?_) m
  exact h.pixByte_ne (by omega) (by omega) (by omega) (by omega)

theorem blitPixels_eq_paint (h : S.Disjoint D) (pixels : List (Nat × Nat)) (m : Memory) :
    blitPixels p D S x y scale k key hf vf pixels m =
      paint p D (pixels.flatMap (pixelWrites p m S x y scale k key hf vf)) m := by
  suffices ∀ m', (∀ i j : Int, sourceColour p m' S hf vf i j = sourceColour p m S hf vf i j) →
      blitPixels p D S x y scale k key hf vf pixels m' =
        paint p D (pixels.flatMap (pixelWrites p m S x y scale k key hf vf)) m' from this m fun _ _ => rfl
  induction pixels with
  | nil => exact fun _ _ => rfl
  | cons ij pixels ih =>
    intro m' hsame
    have hwrites : pixelWrites p m' S x y scale k key hf vf ij = pixelWrites p m S x y scale k key hf vf ij := by
      simp only [pixelWrites, hsame]
    rw [blitPixels_cons, List.flatMap_cons, paint_append, hwrites]
    exact ih _ fun i j => (sourceColour_paint h _ m' i j).trans (hsame i j)

/-- A coordinate lies in block `i` of a row of blocks when `i` is its distance from the row's start, in blocks. -/
theorem block_index {v x i : Int} {scale : Nat} (hscale : 1 ≤ scale) :
    (v - x) / scale = i ↔ x + i * scale ≤ v ∧ v < x + i * scale + scale := by
  rw [Int.ediv_eq_iff_of_pos (by omega)]
  omega

theorem block_range {v x : Int} {n scale : Nat} (hscale : 1 ≤ scale) :
    (x ≤ v ∧ v < x + n * scale) ↔ 0 ≤ (v - x) / scale ∧ (v - x) / scale < n := by
  rw [Int.le_ediv_iff_mul_le (by omega), Int.ediv_lt_iff_lt_mul (by omega)]
  omega

/-- The colour BLIT between disjoint surfaces gives a destination pixel, if any. -/
theorem mem_flatMap_pixelWrites (hscale : 1 ≤ scale) (m : Memory) (px py : Int) (c : Nibble) :
    (⟨px, py, c⟩ : PixelWrite) ∈ (sourcePixels S).flatMap (pixelWrites p m S x y scale k key hf vf) ↔
      (x ≤ px ∧ px < x + S.w * scale ∧ y ≤ py ∧ py < y + S.h * scale) ∧
        c = sourceColour p m S hf vf ((px - x) / scale) ((py - y) / scale) ∧ ¬(k = true ∧ c = key) := by
  have hbox : (x ≤ px ∧ px < x + S.w * scale ∧ y ≤ py ∧ py < y + S.h * scale) ↔
      (0 ≤ (px - x) / scale ∧ (px - x) / scale < S.w) ∧ (0 ≤ (py - y) / scale ∧ (py - y) / scale < S.h) := by
    rw [← block_range hscale, ← block_range hscale, and_assoc]
  rw [hbox, List.mem_flatMap]
  constructor
  · rintro ⟨⟨i, j⟩, hij, hw⟩
    obtain ⟨hi, hj⟩ := mem_sourcePixels.1 hij
    unfold pixelWrites at hw
    split at hw
    · simp at hw
    · rename_i hkey
      obtain ⟨rfl, hx, hx', hy, hy'⟩ := mem_boxWrites.1 hw
      have hpx : (px - x) / scale = i := (block_index hscale).2 ⟨hx, hx'⟩
      have hpy : (py - y) / scale = j := (block_index hscale).2 ⟨hy, hy'⟩
      rw [hpx, hpy]
      exact ⟨by omega, rfl, hkey⟩
  · rintro ⟨⟨⟨hx, hx'⟩, hy, hy'⟩, rfl, hkey⟩
    obtain ⟨i, hi⟩ := Int.eq_ofNat_of_zero_le hx
    obtain ⟨j, hj⟩ := Int.eq_ofNat_of_zero_le hy
    rw [hi, hj] at hkey ⊢
    refine ⟨(i, j), mem_sourcePixels.2 (by omega), ?_⟩
    rw [pixelWrites, if_neg hkey]
    obtain ⟨hxlo, hxhi⟩ := (block_index hscale).1 hi
    obtain ⟨hylo, hyhi⟩ := (block_index hscale).1 hj
    exact mem_boxWrites.2 ⟨rfl, hxlo, hxhi, hylo, hyhi⟩

end

/-- Settles O31: without overlap BLIT paints, for each source pixel as it stood at the start, its block. -/
theorem blitCopiesBetweenDisjointSurfaces : Obligations.BlitCopiesBetweenDisjointSurfaces := by
  intro d src x y scale k key hf vf s hd hsrc hdisjoint hscale
  refine ⟨_, exec_blit_of_legal hd hsrc, ?_⟩
  rw [blitSurface_eq_blitPixels, blitPixels_eq_paint hdisjoint]
  refine draws_paint fun px py c _ _ => ?_
  rw [mem_flatMap_pixelWrites hscale, Option.ite_none_right_eq_some, Option.ite_none_left_eq_some, Option.some.injEq]
  refine and_congr_right fun _ => ?_
  constructor
  · rintro ⟨hkey, rfl⟩
    exact ⟨rfl, hkey⟩
  · rintro ⟨rfl, hkey⟩
    exact ⟨hkey, rfl⟩

/-! BLIT as single-pixel commands. -/

theorem blockPixsets_eq (d : SlotId) (x y : Int) (scale : Nat) (c : Nibble) :
    blockPixsets d x y scale c = (boxWrites x y scale scale c).map fun w => .pixset d w.x w.y w.c := by
  simp [blockPixsets, boxWrites, List.map_flatMap, List.flatMap_assoc]

/-- PIXSETs on a legal slot run to the end and paint, and keep the slots and the configuration. -/
theorem runCommands_pixsets {d : SlotId} {s : State} (hd : (s.slot d).Legal) (ws : List PixelWrite) :
    ∃ t, runCommands (ws.map fun w => .pixset d w.x w.y w.c) s = .next t ∧
      t.arena = paint s.cfg (s.slot d) ws s.arena ∧ t.slots = s.slots ∧ t.cfg = s.cfg := by
  induction ws generalizing s with
  | nil => exact ⟨s, rfl, rfl, rfl, rfl⟩
  | cons w ws ih =>
    obtain ⟨t, hrun, harena, hslots, hcfg⟩ :=
      ih (s := (s.setArena (setPix s.cfg (s.slot d) w.x w.y w.c s.arena)).advance) hd
    exact ⟨t, runCommands_cons_eq_next.2 ⟨_, exec_pixset_of_legal hd, hrun⟩, harena, hslots, hcfg⟩

/-- BLIT's single-pixel commands run to the end and leave the arena that BLIT's loop body leaves. -/
theorem blitByPixels_eq {d src : SlotId} {x y : Int} {scale : Nat} {k : Bool} {key : Nibble} {hf vf : Bool}
    (pixels : List (Nat × Nat)) {s : State} (hd : (s.slot d).Legal) (hsrc : (s.slot src).Legal) :
    ∃ u, blitByPixels d src x y scale k key hf vf pixels s = .next u ∧
      u.arena = blitPixels s.cfg (s.slot d) (s.slot src) x y scale k key hf vf pixels s.arena := by
  induction pixels generalizing s with
  | nil => exact ⟨s, rfl, rfl⟩
  | cons ij pixels ih =>
    obtain ⟨i, j⟩ := ij
    let c := sourceColour s.cfg s.arena (s.slot src) hf vf i j
    have hpixget : exec (.pixget src (if hf then (s.slot src).w - 1 - i else i)
        (if vf then (s.slot src).h - 1 - j else j)) s = .next (s.setResult (c.setWidth 32)) :=
      exec_pixget_of_legal hsrc
    have hcolour : (c.setWidth 32).setWidth 4 = c := by
      rw [BitVec.setWidth_setWidth_of_le _ (by decide), BitVec.setWidth_eq]
    rw [blitByPixels, blitPixels_cons, pixelWrites]
    simp only [hpixget, State.setResult_result, hcolour]
    split
    · exact ih hd hsrc
    · obtain ⟨t, hrun, harena, hslots, hcfg⟩ := runCommands_pixsets (s := s.setResult (c.setWidth 32)) hd
        (boxWrites (x + i * scale) (y + j * scale) scale scale c)
      have hslot : ∀ a, t.slot a = s.slot a := fun a => congrArg (·.get a) hslots
      rw [← blockPixsets_eq] at hrun
      obtain ⟨u, hu, huarena⟩ := ih (s := t) (by rw [hslot]; exact hd) (by rw [hslot]; exact hsrc)
      refine ⟨u, ?_, ?_⟩
      · rw [hrun]; exact hu
      · rw [huarena, hslot, hslot, hcfg, harena]
        rfl

/-- BLIT writes no bit outside the destination pixels its blocks cover. -/
theorem getLsbD_blitPixels_of_not_holds {p : Params} {D S : Surface} {x y : Int} {scale : Nat} {k : Bool} {key : Nibble}
    {hf vf : Bool} {a b : Nat} (hb : b < 8)
    (houtside : ∀ px py : Nat, px < D.w → py < D.h →
      x ≤ px ∧ px < x + S.w * scale ∧ y ≤ py ∧ py < y + S.h * scale → ¬D.HoldsBit px py a b)
    {pixels : List (Nat × Nat)} (hpixels : ∀ ij ∈ pixels, ij.1 < S.w ∧ ij.2 < S.h) (m : Memory) :
    (arenaGet p (blitPixels p D S x y scale k key hf vf pixels m) a).getLsbD b = (arenaGet p m a).getLsbD b := by
  induction pixels generalizing m with
  | nil => rfl
  | cons ij pixels ih =>
    obtain ⟨⟨hi, hj⟩, hrest⟩ := List.forall_mem_cons.1 hpixels
    rw [blitPixels_cons, ih hrest]
    refine getLsbD_paint_of_not_holds hb (fun w hw hon => ?_) m
    unfold pixelWrites at hw
    split at hw
    · simp at hw
    · obtain ⟨-, hx, hx', hy, hy'⟩ := mem_boxWrites.1 hw
      have hcol : ((ij.1 + 1) * scale : Nat) ≤ S.w * scale := Nat.mul_le_mul_right scale hi
      have hrow : ((ij.2 + 1) * scale : Nat) ≤ S.h * scale := Nat.mul_le_mul_right scale hj
      have hpos : 0 ≤ (ij.1 * scale : Nat) ∧ 0 ≤ (ij.2 * scale : Nat) := ⟨Nat.zero_le _, Nat.zero_le _⟩
      rw [Nat.add_mul] at hcol hrow
      refine houtside _ _ (by omega) (by omega) ?_
      zify at hcol hrow hpos
      omega

/-- Settles O32: BLIT's loops and its single-pixel commands are the same paintings, one for each source pixel, and each
painting stays in its block. -/
theorem blitRunsItsPixelSequence : Obligations.BlitRunsItsPixelSequence := by
  intro d src x y scale k key hf vf s hd hsrc
  obtain ⟨u, hu, huarena⟩ := blitByPixels_eq (sourcePixels (s.slot src)) hd hsrc
  refine ⟨_, u, exec_blit_of_legal hd hsrc, rfl, hu, ?_, ?_, fun a b hb houtside => ?_⟩
  · rw [huarena, State.setArena_arena, blitSurface_eq_blitPixels]
  · rintro rfl
    rw [blitSurface, if_pos rfl]
    rfl
  · rw [State.bit, State.byte_setArena, blitSurface_eq_blitPixels]
    exact getLsbD_blitPixels_of_not_holds hb houtside (fun ij hij => mem_sourcePixels.1 hij) s.arena

end Sys2Proof.Machine
end

section
/-! Reading pixels: PIXGET and TORGBA (41_pixel.md R171, R172, R176, R183). -/

namespace Sys2Proof.Machine

theorem Depth.toNat_mask (d : Depth) : d.mask.toNat = 2 ^ d.bits - 1 := by cases d <;> rfl

/-- A pixel's value is its lane, as a number (R171, R172). -/
theorem getPix_toNat (p : Params) (m : Memory) (S : Surface) (x : Fin S.w) (y : Fin S.h) :
    (getPix p m S x y).toNat = (arenaGet p m (pixByte S x y)).toNat / 2 ^ pixShift S x y % 2 ^ S.bpp.bits := by
  have hlane : (arenaGet p m (pixByte S x y)).toNat / 2 ^ pixShift S x y % 2 ^ S.bpp.bits < 2 ^ 4 :=
    Nat.lt_of_lt_of_le (Nat.mod_lt _ (Nat.two_pow_pos _)) (Nat.pow_le_pow_right (by decide) S.bpp.bits_le)
  rw [getPix, BitVec.toNat_setWidth, BitVec.toNat_and, BitVec.toNat_ushiftRight, Depth.toNat_mask,
    Nat.and_two_pow_sub_one_eq_mod, Nat.shiftRight_eq_div_pow, Nat.mod_eq_of_lt hlane]

/-- Settles O27: on the surface the lane of the pixel, off it 0. -/
theorem pixgetReadsOnePixel : Obligations.PixgetReadsOnePixel := by
  intro a x y s hlegal
  refine ⟨_, exec_pixget_of_legal hlegal, rfl, fun hxy => ?_, fun hxy => ?_⟩
  · rw [State.setResult_result, pixelOrZero_of_contains hxy, BitVec.toNat_setWidth_of_le (by decide), getPix_toNat]
    rfl
  · rw [State.setResult_result, pixelOrZero_of_not_contains hxy]
    rfl

/-- An entry of a list of blocks of one length: entry `r` of block `i`. -/
theorem getElem?_flatMap_of_length {α β : Type} {l : List α} {f : α → List β} {n : Nat}
    (hf : ∀ a ∈ l, (f a).length = n) (i : Nat) {r : Nat} (hr : r < n) :
    (l.flatMap f)[n * i + r]? = l[i]?.bind fun a => (f a)[r]? := by
  induction l generalizing i with
  | nil => rfl
  | cons a l ih =>
    obtain ⟨ha, hl⟩ := List.forall_mem_cons.1 hf
    rw [List.flatMap_cons]
    cases i with
    | zero => rw [Nat.mul_zero, Nat.zero_add, List.getElem?_append_left (by omega)]; rfl
    | succ i =>
      rw [List.getElem?_append_right (by rw [ha, Nat.mul_succ]; omega), ha,
        show n * (i + 1) + r - n = n * i + r by rw [Nat.mul_succ]; omega, ih hl]
      rfl

/-- Byte `r` of pixel (x, y) in what TORGBA leaves, row-major (R183). -/
theorem getElem?_rgbaSurface (p : Params) (m : Memory) {S : Surface} {x y r : Nat} (hx : x < S.w) (hy : y < S.h)
    (hr : r < 4) :
    (rgbaSurface p m S)[4 * (x + y * S.w) + r]? = (rgbaPixel p m (pixelOrZero p m S x y))[r]? := by
  have hpixel : ∀ c : Nibble, (rgbaPixel p m c).length = 4 := fun _ => rfl
  have hrow : ∀ y : Fin S.h,
      ((List.finRange S.w).flatMap fun x => rgbaPixel p m (getPix p m S x y)).length = 4 * S.w := by
    intro y
    simp [List.length_flatMap, hpixel, Nat.mul_comm]
  have hindex : 4 * (x + y * S.w) + r = 4 * S.w * y + (4 * x + r) := by ring
  rw [hindex, rgbaSurface, getElem?_flatMap_of_length (fun y _ => hrow y) y (by omega),
    List.getElem?_eq_getElem (by simpa using hy), Option.bind_some,
    getElem?_flatMap_of_length (fun _ _ => hpixel _) x hr, List.getElem?_eq_getElem (by simpa using hx),
    Option.bind_some, pixelOrZero_of_contains (Surface.contains_natCast.2 ⟨hx, hy⟩)]
  simp

/-- Settles O33: TORGBA's bytes are blocks of four in rows of one length. -/
theorem torgbaResolvesEveryPixel : Obligations.TorgbaResolvesEveryPixel := by
  intro a s hlegal
  refine ⟨_, exec_torgba_of_legal hlegal, rfl, length_rgbaSurface _ _ _, fun x y hx hy => ?_⟩
  have hbyte : ∀ r, r < 4 →
      (rgbaSurface s.cfg s.arena (s.slot a))[4 * (x + y * (s.slot a).w) + r]? =
        (rgbaPixel s.cfg s.arena (s.pixel (s.slot a) x y))[r]? :=
    fun r hr => getElem?_rgbaSurface s.cfg s.arena hx hy hr
  exact ⟨hbyte 0 (by decide), hbyte 1 (by decide), hbyte 2 (by decide), hbyte 3 (by decide)⟩

end Sys2Proof.Machine
end

section
/-! The glyph metrics (42_atlas.md R225 to R228). -/

namespace Sys2Proof.Machine

/-- Settles O37: the table RECOMPUTE stores is the computed one. -/
theorem recomputeRefreshesTheCache : Obligations.RecomputeRefreshesTheCache :=
  fun s => ⟨_, rfl, rfl, fun v c => metricAt_metrics s.cfg s.arena v c⟩

/-- A bit of the union of bytes is a bit of one of them. -/
theorem getLsbD_fold_or {n : Nat} (f : Nat → Byte) (k : Nat) :
    (Nat.fold n (fun r _ col => col ||| f r) 0).getLsbD k = true ↔ ∃ r < n, (f r).getLsbD k = true := by
  induction n with
  | zero => simp
  | succ n ih =>
    rw [Nat.fold_succ, BitVec.getLsbD_or, Bool.or_eq_true, ih]
    constructor
    · rintro (⟨r, hr, hbit⟩ | hbit)
      · exact ⟨r, by omega, hbit⟩
      · exact ⟨n, by omega, hbit⟩
    · rintro ⟨r, hr, hbit⟩
      rcases Nat.lt_succ_iff_lt_or_eq.1 hr with hlt | rfl
      · exact .inl ⟨r, hlt, hbit⟩
      · exact .inr hbit

/-- The columns that R225 calls set are those `columnSet` names. -/
theorem getLsbD_glyphColumns (p : Params) (m : Memory) (v : Variant) (c k : Nat) :
    (glyphColumns p m v c).getLsbD k = true ↔ columnSet p m v c k := by
  rw [glyphColumns, getLsbD_fold_or fun r => arenaGet p m (glyphAddr v c + r)]
  simp only [columnSet, glyphAddr, variantNumber_eq]

/-- The greatest set bit is the one with no set bit above it. -/
theorem highestBit_of_isGreatest {col : Byte} {k : Nat} (hk : k < 8) (hset : col.getLsbD k = true)
    (habove : ∀ j < 8, k < j → col.getLsbD j = false) : highestBit col = some k := by
  revert col k
  decide +kernel

theorem glyphPads_of_bounds {col : Byte} {l h : Nat} (hl : lowestBit col = some l) (hh : highestBit col = some h) :
    glyphPads col = (l, 7 - h) := by
  rw [glyphPads, hl, hh]

theorem glyphPads_zero : glyphPads 0 = (8, 8) := rfl

theorem glyphMetrics_of_ne_space (p : Params) (m : Memory) (v : Variant) {c : Nat} (hc : c ≠ 32) :
    glyphMetrics p m v c =
      { adv := BitVec.ofNat 4 (8 - (glyphPads (glyphColumns p m v c)).1 - (glyphPads (glyphColumns p m v c)).2),
        lpad := BitVec.ofNat 4 (glyphPads (glyphColumns p m v c)).1 } := if_neg hc

/-- Settles O38: the three cases of R225. -/
theorem glyphMetricsMeasureTheColumns : Obligations.GlyphMetricsMeasureTheColumns := by
  intro p m v c
  refine ⟨?_, fun hc hblank => ?_, fun l h hc hl hh hsetl hseth hbounds => ?_⟩
  · rintro rfl
    rw [glyphMetrics_space]
    refine ⟨?_, rfl⟩
    have hn := p.spaceNormal.isLt
    have ha := p.spaceAlternate.isLt
    cases v <;> simp [spaceWidth] <;> omega
  · have hzero : glyphColumns p m v c = 0 := by
      apply BitVec.eq_of_getLsbD_eq
      intro k hk
      simpa using mt (getLsbD_glyphColumns p m v c k).1 (hblank k hk)
    rw [glyphMetrics_of_ne_space p m v hc, hzero, glyphPads_zero]
    exact ⟨rfl, rfl⟩
  · have hbit : ∀ k < 8, ¬(l ≤ k ∧ k ≤ h) → (glyphColumns p m v c).getLsbD k = false := by
      intro k hk hout
      simpa using mt (getLsbD_glyphColumns p m v c k).1 (fun hset => hout (hbounds k hk hset))
    have hlow : lowestBit (glyphColumns p m v c) = some l :=
      lowestBit_eq_some.2 ⟨hl, (getLsbD_glyphColumns ..).2 hsetl, fun j hj => hbit j (by omega) (by omega)⟩
    have hhigh : highestBit (glyphColumns p m v c) = some h :=
      highestBit_of_isGreatest hh ((getLsbD_glyphColumns ..).2 hseth) fun j hj hhj => hbit j hj (by omega)
    have hlh : l ≤ h := (hbounds h hh hseth).1
    rw [glyphMetrics_of_ne_space p m v hc, glyphPads_of_bounds hlow hhigh]
    simp only [BitVec.toNat_ofNat]
    omega

/-- Settles O39: an entry reads the glyph's eight bytes, which lie in the font region, and the space widths. -/
theorem metricsReadOnlyTheFont : Obligations.MetricsReadOnlyTheFont := by
  intro p q m n hfont hnormal halternate
  have hspace : ∀ v, spaceWidth p v = spaceWidth q v := by
    rintro (_ | _)
    · exact congrArg Fin.val hnormal
    · exact congrArg Fin.val halternate
  refine MetricTable.ext_metricAt fun v c => ?_
  rw [metricAt_metrics, metricAt_metrics]
  by_cases hc : (c : Nat) = 32
  · rw [hc, glyphMetrics_space, glyphMetrics_space, hspace]
  · have hcolumns : glyphColumns p m v c = glyphColumns q n v c := by
      apply BitVec.eq_of_getLsbD_eq
      intro k _
      have hv : v.code.toNat ≤ 1 := by cases v <;> decide
      rw [Bool.eq_iff_iff, getLsbD_glyphColumns, getLsbD_glyphColumns]
      refine exists_congr fun r => and_congr_right fun hr => ?_
      rw [hfont _ (by omega) (by omega)]
    rw [glyphMetrics_of_ne_space p m v hc, glyphMetrics_of_ne_space q n v hc, hcolumns]

/-- GLYPHMET's word, field by field: advance width, left padding, valid bit (R228). -/
theorem metricWord_toNat (e : GlyphMetric) :
    (metricWord e).toNat = 2147483648 + 256 * e.lpad.toNat + e.adv.toNat := by
  have hadv : (e.adv.setWidth 32).toNat = e.adv.toNat := BitVec.toNat_setWidth_of_le (by decide)
  have hlpad : (e.lpad.setWidth 32).toNat = e.lpad.toNat := BitVec.toNat_setWidth_of_le (by decide)
  have hadv' := e.adv.isLt
  have hlpad' := e.lpad.isLt
  have hlow : (e.adv.setWidth 32 ||| e.lpad.setWidth 32 <<< 8).toNat = e.adv.toNat + 2 ^ 8 * e.lpad.toNat := by
    rw [toNat_or_shiftLeft (by omega) (by omega), hadv, hlpad]
  have hone : (1#32).toNat = 1 := rfl
  rw [metricWord, BitVec.or_assoc, BitVec.or_comm, BitVec.or_comm (e.lpad.setWidth 32 <<< 8),
    toNat_or_shiftLeft (by omega) (by omega), hlow]
  omega

/-- Settles O40: GLYPHMET's word is the sum of its fields. -/
theorem glyphmetReadsTheCache : Obligations.GlyphmetReadsTheCache := by
  intro v code s
  refine ⟨_, rfl, rfl, fun h => ?_, fun h => ?_⟩
  · rw [State.setResult_result, glyphWord, dif_pos h, metricWord_toNat]
  · exact dif_neg (Nat.not_lt.2 h)

end Sys2Proof.Machine
end

section
/-! The tile map, the palette and the gamepad latch (42_atlas.md R230 to R232; 44_palette.md R292; 43_peripheral.md R260
to R263). -/

namespace Sys2Proof.Machine

/-- Settles O42: a cell inside the map has an address, one outside has none. -/
theorem mgetReadsTheCell : Obligations.MgetReadsTheCell := by
  intro x y s
  simp only [exec, execMget]
  cases haddr : mapAddr x y with
  | some a =>
    obtain ⟨hin, rfl⟩ := mapAddr_eq_some.1 haddr
    exact ⟨_, rfl, rfl, fun _ => BitVec.toNat_setWidth_of_le (by decide), fun hout => absurd hin hout⟩
  | none => exact ⟨_, rfl, rfl, fun hin => absurd hin (mapAddr_eq_none.1 haddr), fun _ => rfl⟩

/-- Settles O43: a cell inside the map has an address, one outside has none. -/
theorem msetWritesTheCell : Obligations.MsetWritesTheCell := by
  intro x y id s
  simp only [exec, execMset]
  cases haddr : mapAddr x y with
  | some a =>
    obtain ⟨hin, rfl⟩ := mapAddr_eq_some.1 haddr
    exact ⟨_, rfl, rfl, fun _ a => s.byte_setByte _ a id, fun hout => absurd hin hout⟩
  | none => exact ⟨_, rfl, rfl, fun hin => absurd hin (mapAddr_eq_none.1 haddr), fun _ => rfl⟩

/-- PALGET's word, byte by byte (R292). -/
theorem paletteWord_toNat (r g b : Byte) :
    (paletteWord (r, g, b)).toNat = r.toNat + 256 * g.toNat + 65536 * b.toNat := by
  have hr : (r.setWidth 32).toNat = r.toNat := BitVec.toNat_setWidth_of_le (by decide)
  have hg : (g.setWidth 32).toNat = g.toNat := BitVec.toNat_setWidth_of_le (by decide)
  have hb : (b.setWidth 32).toNat = b.toNat := BitVec.toNat_setWidth_of_le (by decide)
  have hr' := r.isLt
  have hg' := g.isLt
  have hb' := b.isLt
  have hlow : (r.setWidth 32 ||| g.setWidth 32 <<< 8).toNat = r.toNat + 2 ^ 8 * g.toNat := by
    rw [toNat_or_shiftLeft (by omega) (by omega), hr, hg]
  have hword : paletteWord (r, g, b) = r.setWidth 32 ||| g.setWidth 32 <<< 8 ||| b.setWidth 32 <<< 16 := rfl
  rw [hword, toNat_or_shiftLeft (by omega) (by omega), hlow, hb]
  omega

/-- Settles O50: PALGET's word is the sum of its three bytes. -/
theorem palgetReadsTheEntry : Obligations.PalgetReadsTheEntry :=
  fun _ _ => ⟨_, rfl, rfl, paletteWord_toNat _ _ _⟩

/-- One bit of a byte, moved down and masked. -/
theorem shift_and_one (b : Byte) (k : Nat) : (b >>> k) &&& 1 = if b.getLsbD k then 1 else 0 := by
  apply BitVec.eq_of_getLsbD_eq
  intro i _
  cases hbit : b.getLsbD k <;> by_cases hi : i = 0 <;> simp [BitVec.getLsbD_one, hi, hbit]

/-- Settles O45: the button's byte and bit are its index divided by 8 and the remainder. -/
theorem btngetReadsOneButton : Obligations.BtngetReadsOneButton := by
  intro i s
  have hbit : (s.byte (buttonAddr i)).getLsbD (buttonBit i) = s.bit (0x149B8 + i.toNat / 8) (i.toNat % 8) := by
    rw [buttonAddr_eq, buttonBit_eq]
    rfl
  simp only [exec, execBtnget, shift_and_one]
  rw [hbit]
  cases s.bit (0x149B8 + i.toNat / 8) (i.toNat % 8) <;> rfl

/-- All that writing a latch bit does (R262). -/
theorem getLsbD_latchSet (b : Byte) {bit k : Nat} (hk : k < 8) (pressed : Bool) :
    (latchSet b bit pressed).getLsbD k = if k = bit then pressed else b.getLsbD k := by
  simp only [latchSet, BitVec.getLsbD_or, BitVec.getLsbD_and, BitVec.getLsbD_not, BitVec.getLsbD_shiftLeft,
    BitVec.getLsbD_setWidth, BitVec.getLsbD_one, BitVec.getLsbD_ofBool, hk, decide_true, Bool.true_and]
  rcases Nat.lt_trichotomy k bit with hlt | rfl | hgt
  · simp [hlt, Nat.ne_of_lt hlt]
  · simp
  · have h1 : ¬k < bit := by omega
    have h2 : k ≠ bit := by omega
    have h3 : k - bit ≠ 0 := by omega
    simp [h1, h2, h3]

/-- Settles O44: the button's byte has its bit written, and no other byte is stored to. -/
theorem btnsetSetsOneButton : Obligations.BtnsetSetsOneButton := by
  intro i pressed s
  refine ⟨_, rfl, rfl, fun p b hp hb => ?_, fun a ha => ?_⟩
  · rw [State.bit, State.byte_setByte, buttonAddr_eq]
    simp only [gamepadBase]
    by_cases hbyte : p = i.toNat / 8
    · subst hbyte
      rw [if_pos rfl, getLsbD_latchSet _ hb, buttonBit_eq]
      exact if_congr (by omega) rfl rfl
    · rw [if_neg (by omega), if_neg (by omega)]
      rfl
  · rw [State.byte_setByte, buttonAddr_eq, if_neg ha]

end Sys2Proof.Machine
end

section
/-! The mouse register (43_peripheral.md R264 to R271): what each of its bytes is as a number, and what each read makes
of them. -/

namespace Sys2Proof.Machine

/-- Byte 2: the buttons, and the low five bits of the horizontal delta (R264). -/
theorem mouseByte2_toNat (mb : BitVec 3) (fx : BitVec 6) :
    (mouseByte2 mb fx).toNat = mb.toNat + 8 * (fx.toNat % 32) := by
  have hmb := mb.isLt
  rw [mouseByte2, toNat_or_shiftLeft] <;>
    simp only [BitVec.toNat_setWidth, BitVec.extractLsb'_toNat, Nat.shiftRight_zero] <;> omega

/-- Byte 3: the high bit of the horizontal delta, and the vertical delta (R264). -/
theorem mouseByte3_toNat (fx fy : BitVec 6) : (mouseByte3 fx fy).toNat = fx.toNat / 32 + 2 * fy.toNat := by
  have hfx := fx.isLt
  have hfy := fy.isLt
  rw [mouseByte3, toNat_or_shiftLeft] <;>
    simp only [BitVec.toNat_setWidth, BitVec.extractLsb'_toNat, Nat.shiftRight_eq_div_pow] <;> omega

/-- The bytes after a MOUSESET (R267). -/
theorem byte_mouseWrite (mx my : Byte) (mb : BitVec 3) (sx sy : Int) (s : State) (a : Nat) :
    (mouseWrite mx my mb sx sy s).byte a =
      if a = mouseBase + 3 then mouseByte3 (pack6 (clampScroll sx)) (pack6 (clampScroll sy))
      else if a = mouseBase + 2 then mouseByte2 mb (pack6 (clampScroll sx))
      else if a = mouseBase + 1 then my
      else if a = mouseBase then mx
      else s.byte a := by
  simp only [mouseWrite, State.byte_setByte]

/-- Settles O46: each byte as it was stored last, and its fields as numbers. -/
theorem mousesetWritesTheRegister : Obligations.MousesetWritesTheRegister := by
  intro mx my mb sx sy s
  have hfield : ∀ v : Int, (pack6 (clampScroll v)).toNat = (min (max v (-32)) 31 % 64).toNat := by
    intro v
    rw [← Int.toNat_natCast (pack6 (clampScroll v)).toNat, pack6_toNat, clampScroll]
  refine ⟨_, rfl, mouseWrite_eq .., ?_, ?_, ?_, ?_, fun a ha => ?_⟩
  · simp [byte_mouseWrite]
  · simp [byte_mouseWrite]
  · simp [byte_mouseWrite, mouseByte2_toNat, hfield]
  · simp [byte_mouseWrite, mouseByte3_toNat, hfield]
  · rw [byte_mouseWrite]
    simp only [mouseBase]
    rw [if_neg (by omega), if_neg (by omega), if_neg (by omega), if_neg (by omega)]

theorem mousepos_toNat (b0 b1 : Byte) :
    (b0.setWidth 32 ||| b1.setWidth 32 <<< 8 : Word32).toNat = b0.toNat + 256 * b1.toNat := by
  have h0 := b0.isLt
  have h1 := b1.isLt
  rw [toNat_or_shiftLeft] <;> simp <;> omega

theorem mousebtn_toNat (b2 : Byte) : ((b2 &&& 0x07).setWidth 32 : Word32).toNat = b2.toNat % 8 := by
  rw [BitVec.toNat_setWidth_of_le (by decide), BitVec.toNat_and]
  exact Nat.and_two_pow_sub_one_eq_mod b2.toNat 3

theorem scrollFieldX_toNat (b2 b3 : Byte) : (scrollFieldX b2 b3).toNat = b2.toNat / 8 + 32 * (b3.toNat % 2) := by
  have h2 := b2.isLt
  have hshift : (b2 >>> 3).toNat = b2.toNat / 8 := by
    rw [BitVec.toNat_ushiftRight, Nat.shiftRight_eq_div_pow]
  have hone : (b3 &&& 1).toNat = b3.toNat % 2 := by
    rw [BitVec.toNat_and]
    exact Nat.and_two_pow_sub_one_eq_mod b3.toNat 1
  rw [scrollFieldX, BitVec.toNat_setWidth, toNat_or_shiftLeft (by omega) (by omega), hshift, hone]
  omega

theorem scrollFieldY_toNat (b3 : Byte) : (scrollFieldY b3).toNat = b3.toNat / 2 % 64 := by
  have hmask : ((b3 >>> 1) &&& 0x3F).toNat = b3.toNat / 2 % 64 := by
    rw [BitVec.toNat_and, BitVec.toNat_ushiftRight, Nat.shiftRight_eq_div_pow]
    exact Nat.and_two_pow_sub_one_eq_mod (b3.toNat / 2) 6
  rw [scrollFieldY, BitVec.toNat_setWidth, hmask]
  omega

/-- RESULT of a scroll read is the signed value of its 6-bit field (R266, R270, R271). -/
theorem scrollResult_toInt (f : BitVec 6) : ((unpack6 f).signExtend 32).toInt = f.toInt := by
  rw [BitVec.toInt_signExtend_of_le (by decide), unpack6_toInt]

/-- The signed value of a 6-bit field. -/
theorem toInt_of_toNat_eq {f : BitVec 6} {n : Nat} (h : f.toNat = n) :
    f.toInt = if n < 32 then (n : Int) else n - 64 := by
  have hf := f.isLt
  rw [BitVec.toInt_eq_toNat_cond, h]
  split <;> split <;> omega

/-- Settles O47: the fields as numbers; Unpack6 keeps the signed value of a delta's field. -/
theorem mouseReadsGiveTheFields : Obligations.MouseReadsGiveTheFields := by
  intro s
  refine ⟨⟨_, rfl, rfl, mousepos_toNat _ _⟩, ⟨_, rfl, rfl, mousebtn_toNat _⟩, ⟨_, rfl, rfl, ?_⟩, ⟨_, rfl, rfl, ?_⟩⟩
  · exact (scrollResult_toInt _).trans (toInt_of_toNat_eq (scrollFieldX_toNat _ _))
  · exact (scrollResult_toInt _).trans (toInt_of_toNat_eq (scrollFieldY_toNat _))

/-- Settles O48: each read finds its field in the bytes MOUSESET wrote, and in range Unpack6 undoes Pack6. -/
theorem mouseRegisterRoundTrips : Obligations.MouseRegisterRoundTrips := by
  intro mx my mb sx sy s t hexec
  cases hexec
  have hclamp : ∀ v : Int, (pack6 (clampScroll v)).toInt = min (max v (-32)) 31 := fun v =>
    pack6_toInt (clampScroll_range v)
  refine ⟨⟨_, rfl, ?_⟩, ⟨_, rfl, ?_⟩, ⟨_, rfl, ?_⟩, ⟨_, rfl, ?_⟩⟩
  · rw [State.setResult_result, mousepos_toNat]
    simp [byte_mouseWrite]
  · rw [State.setResult_result, mousebtn_toNat]
    simp [byte_mouseWrite, mouseByte2_toNat]
    omega
  · rw [State.setResult_result, scrollResult_toInt, ← hclamp]
    simp [byte_mouseWrite, scrollFieldX_mouseBytes]
  · rw [State.setResult_result, scrollResult_toInt, ← hclamp]
    simp [byte_mouseWrite, scrollFieldY_mouseByte3]

end Sys2Proof.Machine
end

section
/-! The cartridge decoder's failures, the builder's result and LOAD (40_cartridge.md R131 to R147). -/

namespace Sys2Proof.Machine

theorem chunkSize_toNat (lo hi : Byte) : (chunkSize lo hi).toNat = lo.toNat + 256 * hi.toNat := by
  have hlo := lo.isLt
  have hhi := hi.isLt
  rw [chunkSize, toNat_or_shiftLeft] <;> simp <;> omega

/-- One round of the decoder on a whole header (R131). -/
theorem decodeChunks_header (fuel : Nat) (h lo hi rsv : Byte) (rest : List Byte) :
    decodeChunks (fuel + 1) (h :: lo :: hi :: rsv :: rest) =
      if rest.length < (chunkSize lo hi).toNat then .error .decodeEof
      else (decodeChunks fuel (rest.drop (chunkSize lo hi).toNat)).map
        (⟨h.extractLsb' 0 5, h.extractLsb' 5 3, chunkSize lo hi, rest.take (chunkSize lo hi).toNat⟩ :: ·) := by
  rw [decodeChunks]
  split
  · rfl
  · cases decodeChunks fuel (rest.drop (chunkSize lo hi).toNat) <;> rfl

/-- A stream that ends inside a header is truncated (R132). -/
theorem decodeChunks_short_header {bytes : List Byte} (hpos : 1 ≤ bytes.length) (hle : bytes.length ≤ 3) (fuel : Nat) :
    decodeChunks fuel bytes = .error .decodeEof := by
  match bytes, hpos, hle with
  | [_], _, _ => cases fuel <;> rfl
  | [_, _], _, _ => cases fuel <;> rfl
  | [_, _, _], _, _ => cases fuel <;> rfl

/-- Fuel as long as the stream is enough: more of it changes nothing. -/
theorem decodeChunks_eq_decodeCart {fuel : Nat} {bytes : List Byte} (hfuel : bytes.length ≤ fuel) :
    decodeChunks fuel bytes = decodeCart bytes := by
  suffices ∀ fuel fuel' (bytes : List Byte), bytes.length ≤ fuel → bytes.length ≤ fuel' →
      decodeChunks fuel bytes = decodeChunks fuel' bytes from this _ _ _ hfuel (Nat.le_refl _)
  intro fuel
  induction fuel with
  | zero =>
    intro fuel' bytes hlen _
    rw [List.length_eq_zero_iff.1 (Nat.le_zero.1 hlen), decodeChunks_nil, decodeChunks_nil]
  | succ fuel ih =>
    rintro (_ | fuel') bytes hlen hlen'
    · rw [List.length_eq_zero_iff.1 (Nat.le_zero.1 hlen'), decodeChunks_nil, decodeChunks_nil]
    match bytes with
    | [] => rw [decodeChunks_nil, decodeChunks_nil]
    | [_] | [_, _] | [_, _, _] =>
      rw [decodeChunks_short_header (by simp) (by simp), decodeChunks_short_header (by simp) (by simp)]
    | h :: lo :: hi :: rsv :: rest =>
      simp only [List.length_cons] at hlen hlen'
      have hdrop : (rest.drop (chunkSize lo hi).toNat).length ≤ rest.length := by simp
      rw [decodeChunks_header, decodeChunks_header, ih fuel' _ (by omega) (by omega)]

/-- DECODE_EOF is the decoder's only error (R132). -/
theorem decodeChunks_error {fuel : Nat} {bytes : List Byte} {e : ErrorName}
    (h : decodeChunks fuel bytes = .error e) : e = .decodeEof := by
  induction fuel generalizing bytes with
  | zero =>
    match bytes with
    | [] => cases h
    | _ :: _ =>
      rw [decodeChunks, Except.error.injEq] at h
      · exact h.symm
      · simp
      · simp
  | succ fuel ih =>
    match bytes with
    | [] => cases h
    | [_] | [_, _] | [_, _, _] => cases h; rfl
    | h' :: lo :: hi :: rsv :: rest =>
      rw [decodeChunks_header] at h
      split at h
      · cases h; rfl
      · cases hrest : decodeChunks fuel (rest.drop (chunkSize lo hi).toNat) with
        | ok chunks => rw [hrest] at h; cases h
        | error e' => rw [hrest] at h; cases h; exact ih hrest

/-- A complete record in front decodes to its chunk, and the rest as by itself (R131). -/
theorem decodeCart_chunkRecord {ch : Chunk} (hsized : ch.Sized) (rsv : Byte) (rest : List Byte) :
    decodeCart (chunkRecord ch rsv ++ rest) = (decodeCart rest).map (ch :: ·) := by
  have hlen : (chunkRecord ch rsv ++ rest).length = ch.payload.length + rest.length + 3 + 1 := by
    simp only [chunkRecord, List.length_append, List.length_cons, List.length_nil]
    omega
  rw [decodeCart, hlen, decodeChunks_chunkRecord hsized, decodeChunks_eq_decodeCart (by omega)]

/-- Settles O52: each kind of stream by the decoder's first round on it. -/
theorem decoderFailsOnTruncationOnly : Obligations.DecoderFailsOnTruncationOnly := by
  refine ⟨rfl, fun ch rsv rest hsized => ?_, fun bytes hpos hle => decodeChunks_short_header hpos hle _,
    fun h lo hi rsv payload hlen => ?_, fun bytes e h => decodeChunks_error h⟩
  · refine Eq.trans ?_ ((decodeCart_chunkRecord hsized rsv rest).trans ?_)
    · simp [chunkRecord]
    · cases decodeCart rest <;> rfl
  · rw [decodeCart, List.length_cons, decodeChunks_header, if_pos]
    rwa [chunkSize_toNat]

/-! The builder. -/

/-- What one chunk's copy leaves at an address, by the table of R137. -/
def copiedByte (ch : Chunk) (a : Nat) : Option Byte :=
  match destinationTable.find? fun row => row.1 = ch.code.toNat with
  | some (_, base, cap) => if base ≤ a ∧ a < base + min ch.size.toNat cap then ch.payload[a - base]? else none
  | none => none

theorem copiedByte_of_chunkDest {ch : Chunk} {base cap : Nat} (hdest : chunkDest (chunkKind ch.code) = some (base, cap))
    (a : Nat) :
    copiedByte ch a = if base ≤ a ∧ a < base + min ch.size.toNat cap then ch.payload[a - base]? else none := by
  rw [chunkDest_chunkKind, Option.map_eq_some_iff] at hdest
  obtain ⟨⟨code, dest⟩, hrow, rfl⟩ := hdest
  rw [copiedByte, hrow]

theorem copiedByte_of_no_chunkDest {ch : Chunk} (hdest : chunkDest (chunkKind ch.code) = none) (a : Nat) :
    copiedByte ch a = none := by
  rw [chunkDest_chunkKind, Option.map_eq_none_iff] at hdest
  rw [copiedByte, hdest]

theorem lastCopied_cons (ch : Chunk) (chunks : List Chunk) (a : Nat) :
    lastCopied (ch :: chunks) a = (lastCopied chunks a).or (copiedByte ch a) := by
  simp only [lastCopied, List.reverse_cons, List.findSome?_append, List.findSome?_singleton]
  rfl

/-- The payload of the last Code chunk, if there is one. -/
def lastCodePayload (chunks : List Chunk) : Option (List Byte) :=
  (chunks.reverse.find? fun ch => ch.code.toNat = 5).map Chunk.payload

theorem lastCodePayload_cons (ch : Chunk) (chunks : List Chunk) :
    lastCodePayload (ch :: chunks) =
      (lastCodePayload chunks).or (if ch.code.toNat = 5 then some ch.payload else none) := by
  simp only [lastCodePayload, List.reverse_cons, List.find?_append, List.find?_singleton, Option.map_or]
  split <;> simp_all

/-- What one chunk copies is all that its round changes of the image (R138, R139). -/
theorem arenaGet_buildChunk {p : Params} {ch : Chunk} {m m' : Memory} {prog prog' : List Byte}
    (h : buildChunk p ch m prog = .ok (m', prog')) (a : Nat) :
    arenaGet p m' a = (copiedByte ch a).getD (arenaGet p m a) := by
  rcases buildChunk_cases h with ⟨base, cap, hdest, rfl, -⟩ | ⟨hkind, -, rfl, -⟩ | ⟨hkind, rfl, -⟩
  · have hlength := List.length_take (i := min ch.size.toNat cap) (l := ch.payload)
    rw [arenaGet_memWrite, copiedByte_of_chunkDest hdest]
    by_cases hin : base ≤ a ∧ a < base + min ch.size.toNat cap
    · rw [if_pos hin]
      by_cases hlen : a - base < ch.payload.length
      · rw [dif_pos (by omega), List.getElem?_eq_getElem hlen, List.getElem_take]
        rfl
      · rw [dif_neg (by omega), List.getElem?_eq_none (by omega)]
        rfl
    · rw [if_neg hin, dif_neg (by omega)]
      rfl
  · rw [copiedByte_of_no_chunkDest (by rw [hkind]; rfl)]
    rfl
  · rw [copiedByte_of_no_chunkDest (by rcases hkind with hkind | hkind <;> rw [hkind] <;> rfl)]
    rfl

/-- A Code chunk, code 5, is the program text; any other round keeps it (R141). -/
theorem prog_buildChunk {p : Params} {ch : Chunk} {m m' : Memory} {prog prog' : List Byte}
    (h : buildChunk p ch m prog = .ok (m', prog')) : prog' = if ch.code.toNat = 5 then ch.payload else prog := by
  have hcode := chunkKind_eq_code ch.code
  rcases buildChunk_cases h with ⟨base, cap, hdest, -, rfl⟩ | ⟨hkind, -, -, rfl⟩ | ⟨hkind, -, rfl⟩
  · rw [if_neg]
    intro hfive
    rw [hcode.2 hfive] at hdest
    cases hdest
  · rw [if_pos (hcode.1 hkind)]
  · rw [if_neg]
    intro hfive
    rw [hcode.2 hfive] at hkind
    rcases hkind with hkind | hkind <;> cases hkind

/-- What a successful run of the builder's loop leaves: of each byte the last copy, and the last Code chunk's text. -/
theorem buildChunks_eq_ok {p : Params} {chunks : List Chunk} {m m' : Memory} {prog prog' : List Byte}
    (h : buildChunks p chunks m prog = .ok (m', prog')) :
    (∀ a, arenaGet p m' a = (lastCopied chunks a).getD (arenaGet p m a)) ∧
      prog' = (lastCodePayload chunks).getD prog := by
  induction chunks generalizing m prog with
  | nil =>
    cases h
    exact ⟨fun _ => rfl, rfl⟩
  | cons ch chunks ih =>
    unfold buildChunks at h
    split at h
    · rename_i m1 prog1 hround
      obtain ⟨hbytes, htext⟩ := ih h
      refine ⟨fun a => ?_, ?_⟩
      · rw [hbytes, arenaGet_buildChunk hround, lastCopied_cons]
        cases lastCopied chunks a <;> rfl
      · rw [htext, prog_buildChunk hround, lastCodePayload_cons]
        cases lastCodePayload chunks with
        | some text => rfl
        | none => rw [Option.none_or, Option.getD_none]; split <;> rfl
    · cases h

/-- The metrics of an image are those of DEFAULT_FONT, whatever was copied elsewhere (R138, R145). -/
theorem metrics_seedFont (p : Params) (m : Memory) : metrics p (seedFont m) = metrics p [] := by
  refine metricsReadOnlyTheFont p p _ _ (fun a hlo hhi => ?_) rfl rfl
  rw [arenaGet_seedFont]
  exact if_pos ⟨hlo, hhi⟩

/-- Settles O53: the loop leaves the last copy of each byte, and seeding the font replaces the font region alone. -/
theorem lastChunkWinsEachByte : Obligations.LastChunkWinsEachByte := by
  intro p chunks img hbuilt
  obtain ⟨m, prog, hloop, hmem, hprog, hmet⟩ := buildImage_eq_ok hbuilt
  obtain ⟨hbytes, htext⟩ := buildChunks_eq_ok hloop
  refine ⟨fun c hc => ?_, fun a ha => ?_, hprog.trans htext, by rw [hmet, metrics_seedFont]⟩
  · rw [hmem, arenaGet_seedFont, if_pos (by simp only [fontBase, fontSize]; omega), arenaUnlisted_font p hc]
  · rw [hmem, arenaGet_seedFont]
    refine (if_neg ha).trans ?_
    rw [hbytes]
    exact congrArg _ (arenaUnlisted_of_not_font p ha)

/-- The loop stops at the first chunk in error, with its error (R138, R334). -/
theorem buildChunks_eq_error {p : Params} {chunks : List Chunk} {m : Memory} {prog : List Byte} {e : ErrorName} :
    buildChunks p chunks m prog = .error e ↔ chunks.findSome? chunkError = some e := by
  induction chunks generalizing m prog with
  | nil => simp [buildChunks]
  | cons ch chunks ih =>
    rw [buildChunks, List.findSome?_cons]
    cases hround : buildChunk p ch m prog with
    | ok r =>
      have hnone : chunkError ch = none := by
        by_contra hsome
        obtain ⟨e', he'⟩ := Option.ne_none_iff_exists'.1 hsome
        cases hround.symm.trans (buildChunk_eq_error.2 he')
      rw [hnone]
      exact ih
    | error e' =>
      rw [buildChunk_eq_error.1 hround]
      simp

/-- Settles O54: the build fails exactly when its loop does. -/
theorem builderFailsAtTheFirstBadChunk : Obligations.BuilderFailsAtTheFirstBadChunk := by
  intro p chunks e
  rw [← buildChunks_eq_error (p := p) (m := []) (prog := []), buildImage]
  cases buildChunks p chunks [] [] <;> simp

/-- The errors a build can raise (R141, R143). -/
theorem chunkError_cases {ch : Chunk} {e : ErrorName} (h : chunkError ch = some e) :
    e = .unsupportedChunk ∨ e = .buildBadText := by
  unfold chunkError at h
  split at h
  · cases h; exact .inl rfl
  · split at h
    · cases h; exact .inr rfl
    · cases h

theorem loadImage_of_decode_error {p : Params} {bytes : List Byte} {e : ErrorName} (h : decodeCart bytes = .error e) :
    loadImage p bytes = .error .decodeEof := by
  rw [loadImage, h, decodeChunks_error h]

theorem loadImage_of_decode {p : Params} {bytes : List Byte} {chunks : List Chunk} (h : decodeCart bytes = .ok chunks) :
    loadImage p bytes = buildImage p chunks := by
  rw [loadImage, h]

theorem execLoad_of_error {len : Nat} {s : State} {e : ErrorName} (hle : len ≤ s.cfg.cartSize)
    (h : loadImage s.cfg (cartBytes s.cart len) = .error e) : execLoad len s = .next (s.raise e) := by
  rw [execLoad, if_neg (Nat.not_lt.2 hle), h]

theorem execLoad_of_ok {len : Nat} {s : State} {img : Image} (hle : len ≤ s.cfg.cartSize)
    (h : loadImage s.cfg (cartBytes s.cart len) = .ok img) : execLoad len s = .next (s.install img) := by
  rw [execLoad, if_neg (Nat.not_lt.2 hle), h]

/-- Settles O56: each case of LOAD against each premise of the statement, which excludes the others. -/
theorem loadReplacesTheImage : Obligations.LoadReplacesTheImage := by
  intro len s
  rcases execLoad_cases len s with ⟨hlt, hexec⟩ | ⟨hle, e, herr, hexec⟩ | ⟨hle, img, hok, hexec⟩
  · exact ⟨_, hexec, fun _ => rfl, fun hle => absurd hlt (Nat.not_lt.2 hle)⟩
  · refine ⟨_, hexec, fun hlt => absurd hlt (Nat.not_lt.2 hle), fun _ => ⟨fun e' hdec => ?_, fun chunks hdec => ?_⟩⟩
    · cases herr.symm.trans (loadImage_of_decode_error hdec)
      rfl
    · rw [loadImage_of_decode hdec] at herr
      refine ⟨fun e' he' => ?_, fun img himg => absurd (herr.symm.trans himg) nofun⟩
      cases herr.symm.trans he'
      obtain ⟨ch, -, hch⟩ := List.exists_of_findSome?_eq_some ((builderFailsAtTheFirstBadChunk _ _ _).1 herr)
      rcases chunkError_cases hch with rfl | rfl
      · exact .inl ⟨rfl, rfl⟩
      · exact .inr ⟨rfl, rfl⟩
  · refine ⟨_, hexec, fun hlt => absurd hlt (Nat.not_lt.2 hle), fun _ => ⟨fun e' hdec => ?_, fun chunks hdec => ?_⟩⟩
    · cases hok.symm.trans (loadImage_of_decode_error hdec)
    · rw [loadImage_of_decode hdec] at hok
      refine ⟨fun e' he' => absurd (hok.symm.trans he') nofun, fun img' himg' => ?_⟩
      cases hok.symm.trans himg'
      rfl

/-- No chunk is copied past its destination's capacity, so a byte in no destination is copied by none. -/
theorem lastCopied_eq_none {a : Nat}
    (ha : ∀ kind base cap, chunkDest kind = some (base, cap) → ¬(base ≤ a ∧ a < base + cap)) (chunks : List Chunk) :
    lastCopied chunks a = none := by
  induction chunks with
  | nil => rfl
  | cons ch chunks ih =>
    rw [lastCopied_cons, ih, Option.none_or]
    cases hdest : chunkDest (chunkKind ch.code) with
    | none => exact copiedByte_of_no_chunkDest hdest a
    | some dest =>
      obtain ⟨base, cap⟩ := dest
      have hout := ha _ base cap hdest
      rw [copiedByte_of_chunkDest hdest, if_neg (by omega)]

/-- No copy reaches the reserved half of the palette or the input bytes (R137, R140). -/
theorem chunkDest_avoids {kind : ChunkKind} {base cap : Nat} (h : chunkDest kind = some (base, cap)) :
    (base + cap ≤ 0x07FC0 + 48 ∨ 0x07FC0 + 96 ≤ base) ∧ base + cap ≤ 0x149B8 := by
  cases kind <;> simp only [chunkDest, Option.some.injEq, Prod.mk.injEq, reduceCtorEq] at h <;>
    obtain ⟨rfl, rfl⟩ := h <;> decide

/-- Settles O58: no destination of R137 reaches the reserved palette half or the input bytes. -/
theorem loadClearsInputAndReservedBytes : Obligations.LoadClearsInputAndReservedBytes := by
  intro len s img hle hok
  obtain ⟨chunks, -, hbuilt⟩ := loadImage_eq_ok hok
  obtain ⟨hfont, hbytes, -, hmet⟩ := lastChunkWinsEachByte s.cfg chunks img hbuilt
  refine ⟨_, execLoad_of_ok hle hok, fun a hlo hhi => ?_, fun a hlo hhi => ?_, hfont, hmet⟩
  · refine (hbytes a (by omega)).trans (congrArg (·.getD 0) (lastCopied_eq_none (fun kind base cap hdest => ?_) chunks))
    obtain ⟨hpalette, -⟩ := chunkDest_avoids hdest
    omega
  · refine (hbytes a (by omega)).trans (congrArg (·.getD 0) (lastCopied_eq_none (fun kind base cap hdest => ?_) chunks))
    obtain ⟨-, hinput⟩ := chunkDest_avoids hdest
    omega

/-- Settles O59: no chunk, no copy; the image lists nothing, as after reset. -/
theorem loadOfNothingGivesTheResetImage : Obligations.LoadOfNothingGivesTheResetImage :=
  fun s => execLoad_of_ok (s := s) (Nat.zero_le _) rfl

end Sys2Proof.Machine
end

section
/-! The `spr` call of the host (30_encoding.md R111), and repeated commands (20_memory.md R70). -/

namespace Sys2Proof.Machine

/-- Settles O60: TILESURF loads the view, and the index it advances is nothing BLIT reads. -/
theorem sprExpandsToTileAndBlit : Obligations.SprExpandsToTileAndBlit := by
  intro id x y key scale hf vf s hlegal
  let loaded := s.setSlot .s3 (if id < 512 then tileView id else empty4)
  have hslot : ∀ b, b ≠ .s3 → loaded.slot b = s.slot b := fun b hb => by
    rw [State.slot_setSlot, if_neg hb]
  have hview : loaded.slot .s3 = if id < 512 then tileView id else empty4 := by
    rw [State.slot_setSlot, if_pos rfl]
  have hdest : (loaded.slot .s0).Legal := by
    rw [hslot _ (by decide)]
    exact hlegal
  have hsource : (loaded.slot .s3).Legal := by
    rw [hview]
    exact (tilesurf_view id).1
  have hrun : runCommands (hostSpr id x y key scale hf vf) s = .next _ :=
    runCommands_cons_eq_next.2 ⟨loaded, rfl, runCommands_cons_eq_next.2
      ⟨_, exec_blit_of_legal (s := loaded.advance) hdest hsource, rfl⟩⟩
  exact ⟨_, _, hrun, hview, hslot, exec_blit_of_legal hdest hsource, fun _ => rfl⟩

/-! Repeating a command: what each operation does a second time. -/

/-- From `t` the command ends with every byte and all other state as in `t`. -/
def Repeats (i : Instr) (t : State) : Prop :=
  ∃ u, exec i t = .next u ∧ u = t.setArena u.arena ∧ ∀ a, u.byte a = t.byte a

theorem Repeats.of_same {i : Instr} {t : State} (h : exec i t = .next t) : Repeats i t := ⟨t, h, rfl, fun _ => rfl⟩

theorem State.raise_raise (s : State) (e : ErrorName) : (s.raise e).raise e = s.raise e := by
  refine State.raise_err_of_ne e ?_
  show (if s.err = 0 then errorCode e else s.err) ≠ 0
  split
  · cases e <;> decide
  · assumption

theorem State.setSlot_setSlot (s : State) (a : SlotId) (S : Surface) :
    (s.setSlot a S).setSlot a S = s.setSlot a S := by
  cases a <;> rfl

theorem State.setMet_setMet (s : State) (t u : MetricTable) : (s.setMet t).setMet u = s.setMet u := rfl

/-- SETSURF loads its surface in every state, or raises its error in every state (R174). -/
theorem execSetsurf_uniform (a : SlotId) (base w h bpp : Nat) :
    (∃ S, ∀ s, execSetsurf a base w h bpp s = .next (s.setSlot a S)) ∨
      ∀ s, execSetsurf a base w h bpp s = .next (s.raise .badSurface) := by
  unfold execSetsurf
  cases depthOf bpp with
  | none => exact .inr fun _ => rfl
  | some d =>
    dsimp only
    split
    · exact .inr fun _ => rfl
    · exact .inl ⟨_, fun _ => rfl⟩

theorem repeats_setsurf {a : SlotId} {base w h bpp : Nat} {s t : State}
    (hexec : execSetsurf a base w h bpp s = .next t) : Repeats (.setsurf a base w h bpp) t := by
  refine .of_same ?_
  rw [exec]
  rcases execSetsurf_uniform a base w h bpp with ⟨S, hall⟩ | hall
  · cases (hall s).symm.trans hexec
    rw [hall, State.setSlot_setSlot]
  · cases (hall s).symm.trans hexec
    rw [hall, State.raise_raise]

theorem repeats_mget {x y : Int} {s t : State} (hexec : execMget x y s = .next t) : Repeats (.mget x y) t := by
  refine .of_same ?_
  simp only [exec, execMget] at hexec ⊢
  cases haddr : mapAddr x y <;> rw [haddr] at hexec <;> cases hexec <;> rfl

theorem repeats_memrd {addr : Nat} {s t : State} (hexec : execMemrd addr s = .next t) : Repeats (.memrd addr) t := by
  refine .of_same ?_
  simp only [exec, execMemrd] at hexec ⊢
  split at hexec <;> rename_i haddr <;> cases hexec
  · rw [if_pos haddr, State.raise_raise]
  · rw [if_neg haddr]
    rfl

theorem repeats_pixget {a : SlotId} {x y : Int} {s t : State} (hexec : execPixget a x y s = .next t) :
    Repeats (.pixget a x y) t := by
  obtain ⟨hlegal, hnext⟩ := State.onSurface_eq_next.1 hexec
  cases hnext
  exact .of_same (exec_pixget_of_legal hlegal)

theorem repeats_torgba {a : SlotId} {s t : State} (hexec : execTorgba a s = .next t) : Repeats (.torgba a) t := by
  obtain ⟨hlegal, hnext⟩ := State.onSurface_eq_next.1 hexec
  cases hnext
  exact .of_same (exec_torgba_of_legal hlegal)

/-- LOAD reads the configuration and CART only, which it keeps. -/
theorem repeats_load {len : Nat} {s t : State} (hexec : execLoad len s = .next t) : Repeats (.load len) t := by
  refine .of_same ?_
  rw [exec]
  rcases execLoad_cases len s with ⟨hlt, h⟩ | ⟨hle, e, herr, h⟩ | ⟨hle, img, hok, h⟩ <;> cases h.symm.trans hexec
  · rw [execLoad, State.raise_cfg, if_pos hlt, State.raise_raise]
  · rw [execLoad_of_error (s := s.raise e) hle herr, State.raise_raise]
  · rw [execLoad_of_ok (s := s.install img) hle hok]
    rfl

/-- Storing the byte that stands there changes no byte. -/
theorem byte_setByte_self {s : State} {a : Nat} {v : Byte} (h : s.byte a = v) (b : Nat) :
    (s.setByte a v).byte b = s.byte b := by
  rw [State.byte_setByte]
  split
  · rename_i hb
    rw [hb, h]
  · rfl

theorem repeats_mset {x y : Int} {id : Byte} {s t : State} (hexec : execMset x y id s = .next t) :
    Repeats (.mset x y id) t := by
  simp only [execMset] at hexec
  cases haddr : mapAddr x y with
  | none => exact .of_same (by simp only [exec, execMset, haddr])
  | some a =>
    rw [haddr] at hexec
    cases hexec
    refine ⟨(s.setByte a id).setByte a id, by simp only [exec, execMset, haddr], rfl, byte_setByte_self ?_⟩
    rw [State.byte_setByte, if_pos rfl]

theorem repeats_memwr {addr : Nat} {data : Byte} {s t : State} (hexec : execMemwr addr data s = .next t) :
    Repeats (.memwr addr data) t := by
  simp only [execMemwr] at hexec
  by_cases haddr : addr ≥ arenaSize
  · rw [if_pos haddr] at hexec
    cases hexec
    exact .of_same (by rw [exec, execMemwr, if_pos haddr, State.raise_raise])
  · rw [if_neg haddr] at hexec
    cases hexec
    refine ⟨(s.setByte addr data).setByte addr data, by rw [exec, execMemwr, if_neg haddr], rfl, byte_setByte_self ?_⟩
    rw [State.byte_setByte, if_pos rfl]

theorem latchSet_latchSet (b : Byte) (bit : Nat) (pressed : Bool) :
    latchSet (latchSet b bit pressed) bit pressed = latchSet b bit pressed := by
  apply BitVec.eq_of_getLsbD_eq
  intro k hk
  rw [getLsbD_latchSet _ hk, getLsbD_latchSet _ hk]
  split <;> rfl

theorem repeats_btnset (i : BitVec 5) (pressed : Bool) (s : State) :
    Repeats (.btnset i pressed)
      (s.setByte (buttonAddr i) (latchSet (s.byte (buttonAddr i)) (buttonBit i) pressed)) := by
  refine ⟨_, rfl, rfl, byte_setByte_self ?_⟩
  rw [State.byte_setByte, if_pos rfl, latchSet_latchSet]

theorem repeats_mouseset (mx my : Byte) (mb : BitVec 3) (sx sy : Int) (s : State) :
    Repeats (.mouseset mx my mb sx sy) (mouseWrite mx my mb sx sy s) := by
  refine ⟨_, rfl, mouseWrite_eq .., fun a => ?_⟩
  rw [byte_mouseWrite, byte_mouseWrite]
  split_ifs <;> rfl

/-! Drawing commands: what is drawn a second time is drawn already. -/

/-- A bit of a pixel, in the value of the pixel (R171, R172). -/
theorem State.bit_of_holdsBit {s : State} {D : Surface} {x y a k : Nat} (hx : x < D.w) (hy : y < D.h)
    (h : D.HoldsBit x y a k) : s.bit a k = (s.pixel D x y).getLsbD (k - pixShift D x y) := by
  obtain ⟨rfl, hlo, hhi⟩ := h
  rw [State.pixel, pixelOrZero_of_contains (Surface.contains_natCast.2 ⟨hx, hy⟩), getLsbD_getPix]
  have hlane : k - pixShift D x y < D.bpp.bits := by omega
  simp only [Int.toNat_natCast, hlane, decide_true, Bool.true_and, Nat.add_sub_cancel' hlo]
  rfl

theorem State.Draws.byte_eq {s t u : State} {D : Surface} {new : Nat → Nat → Option Nibble} (hst : s.Draws t D new)
    (htu : t.Draws u D new) (a : Nat) : u.byte a = t.byte a := by
  apply BitVec.eq_of_getLsbD_eq
  intro k hk
  show u.bit a k = t.bit a k
  by_cases hdrawn : ∃ x y, x < D.w ∧ y < D.h ∧ (new x y).isSome ∧ D.HoldsBit x y a k
  · obtain ⟨x, y, hx, hy, hnew, hbit⟩ := hdrawn
    obtain ⟨c, hc⟩ := Option.isSome_iff_exists.1 hnew
    rw [State.bit_of_holdsBit hx hy hbit, State.bit_of_holdsBit hx hy hbit, hst.drawn x y c hx hy hc,
      htu.drawn x y c hx hy hc]
  · exact htu.bits a k hk fun x y hx hy hnew hbit => hdrawn ⟨x, y, hx, hy, hnew, hbit⟩

theorem State.Draws.slot_eq {s t : State} {D : Surface} {new : Nat → Nat → Option Nibble} (h : s.Draws t D new)
    (a : SlotId) : t.slot a = s.slot a := by
  rw [h.rest]
  rfl

/-- A command that draws the same picture from `s` and from the state it leaves repeats. -/
theorem repeats_of_draws {i : Instr} {s t : State} {D : Surface} {new : Nat → Nat → Option Nibble}
    (hexec : exec i s = .next t) (hs : ∃ t, exec i s = .next t ∧ s.Draws t D new)
    (ht : s.Draws t D new → ∃ u, exec i t = .next u ∧ t.Draws u D new) : Repeats i t := by
  obtain ⟨t', ht', hst⟩ := hs
  cases ht'.symm.trans hexec
  obtain ⟨u, hu, htu⟩ := ht hst
  exact ⟨u, hu, htu.rest, hst.byte_eq htu⟩

theorem repeats_pixset {a : SlotId} {x y : Int} {c : Nibble} {s t : State} (hexec : execPixset a x y c s = .next t) :
    Repeats (.pixset a x y c) t := by
  obtain ⟨hlegal, -⟩ := State.onSurface_eq_next.1 hexec
  refine repeats_of_draws hexec (pixsetDrawsOnePixel a x y c s hlegal) fun h => ?_
  rw [← h.slot_eq] at hlegal ⊢
  exact pixsetDrawsOnePixel a x y c t hlegal

theorem repeats_cls {a : SlotId} {c : Nibble} {s t : State} (hexec : execCls a c s = .next t) :
    Repeats (.cls a c) t := by
  obtain ⟨hlegal, -⟩ := State.onSurface_eq_next.1 hexec
  refine repeats_of_draws hexec (clsDrawsEveryPixel a c s hlegal) fun h => ?_
  rw [← h.slot_eq] at hlegal ⊢
  exact clsDrawsEveryPixel a c t hlegal

theorem repeats_rect {a : SlotId} {x y : Int} {w h : Nat} {c : Nibble} {s t : State}
    (hexec : execRect a x y w h c s = .next t) : Repeats (.rect a x y w h c) t := by
  obtain ⟨hlegal, -⟩ := State.onSurface_eq_next.1 hexec
  refine repeats_of_draws hexec (rectDrawsItsBox a x y w h c s hlegal) fun hst => ?_
  rw [← hst.slot_eq] at hlegal ⊢
  exact rectDrawsItsBox a x y w h c t hlegal

theorem repeats_rectb {a : SlotId} {x y : Int} {w h : Nat} {c : Nibble} {s t : State}
    (hexec : execRectb a x y w h c s = .next t) : Repeats (.rectb a x y w h c) t := by
  obtain ⟨hlegal, -⟩ := State.onSurface_eq_next.1 hexec
  refine repeats_of_draws hexec (rectbDrawsTheBorder a x y w h c s hlegal) fun hst => ?_
  rw [← hst.slot_eq] at hlegal ⊢
  exact rectbDrawsTheBorder a x y w h c t hlegal

/-- A drawing leaves the pixels of a disjoint surface. -/
theorem State.Draws.pixel_of_disjoint {s t : State} {S D : Surface} {new : Nat → Nat → Option Nibble}
    (h : s.Draws t D new) (hdisjoint : S.Disjoint D) (x y : Int) : t.pixel S x y = s.pixel S x y := by
  have hcfg : t.cfg = s.cfg := by rw [h.rest]; rfl
  rw [State.pixel, State.pixel, hcfg]
  refine pixelOrZero_congr fun hxy => ?_
  have hbyte := h.bytes (pixByte S x.toNat y.toNat) fun x' y' hx' hy' _ =>
    hdisjoint.pixByte_ne (by omega) (by omega) hx' hy'
  rwa [State.byte, hcfg] at hbyte

theorem repeats_blit {d src : SlotId} {x y : Int} {scale : Nat} {k : Bool} {key : Nibble} {hf vf : Bool} {s t : State}
    (hdisjoint : (s.slot src).Disjoint (s.slot d)) (hexec : execBlit d src x y scale k key hf vf s = .next t) :
    Repeats (.blit d src x y scale k key hf vf) t := by
  obtain ⟨hd, hnext⟩ := State.onSurface_eq_next.1 hexec
  obtain ⟨hsrc, -⟩ := State.onSurface_eq_next.1 hnext
  rcases Nat.eq_zero_or_pos scale with rfl | hscale
  · obtain ⟨t', -, ht', -, -, -, hzero, -⟩ := blitRunsItsPixelSequence d src x y 0 k key hf vf s hd hsrc
    cases ht'.symm.trans hexec
    refine .of_same ?_
    rw [hzero rfl] at hexec ⊢
    exact hexec
  · refine repeats_of_draws hexec
      (blitCopiesBetweenDisjointSurfaces d src x y scale k key hf vf s hd hsrc hdisjoint hscale) fun h => ?_
    simp only [← h.pixel_of_disjoint hdisjoint]
    rw [← h.slot_eq, ← h.slot_eq] at *
    exact blitCopiesBetweenDisjointSurfaces d src x y scale k key hf vf t hd hsrc hdisjoint hscale

/-- Settles O15: a command that stores nothing to the arena leaves a state it does not change again, a store writes the
byte that stands there, and a drawing draws what is drawn. -/
theorem repeatingACommandChangesNothing : Obligations.RepeatingACommandChangesNothing := by
  intro i s t hfree hexec
  show Repeats i t
  cases i with
  | nop | palget | glyphmet | btnget | mousepos | mousebtn | scrollx | scrolly | stepbegin | stepend | clrstatus =>
    cases hexec
    exact .of_same rfl
  | recompute =>
    cases hexec
    exact .of_same (by rw [exec, execRecompute, State.setMet_setMet, State.setMet_cfg, State.setMet_arena])
  | setsurf => exact repeats_setsurf hexec
  | tilesurf =>
    cases hexec
    exact .of_same (by rw [exec, execTilesurf, State.setSlot_setSlot])
  | glyphsurf =>
    cases hexec
    exact .of_same (by rw [exec, execGlyphsurf, State.setSlot_setSlot])
  | pixset => exact repeats_pixset hexec
  | pixget => exact repeats_pixget hexec
  | cls => exact repeats_cls hexec
  | rect => exact repeats_rect hexec
  | rectb => exact repeats_rectb hexec
  | blit => exact repeats_blit hfree hexec
  | torgba => exact repeats_torgba hexec
  | mget => exact repeats_mget hexec
  | mset => exact repeats_mset hexec
  | btnset => cases hexec; exact repeats_btnset ..
  | mouseset => cases hexec; exact repeats_mouseset ..
  | memrd => exact repeats_memrd hexec
  | memwr => exact repeats_memwr hexec
  | load => exact repeats_load hexec

end Sys2Proof.Machine
end

section
/-! Valid text is UTF-8 (40_cartridge.md R141, D11; log 11): a well-formed sequence and a Unicode scalar value determine
each other, and the check takes one sequence after the other. -/

namespace Sys2Proof.Machine

/-- The encoding of a scalar value as Lean gives it, in bytes of the model. -/
def utf8Bytes (v : Nat) : List Byte :=
  if v ≤ 0x7F then [BitVec.ofNat 8 v]
  else if v ≤ 0x7FF then [BitVec.ofNat 8 (v / 64 % 0x20 + 0xC0), BitVec.ofNat 8 (v % 0x40 + 0x80)]
  else if v ≤ 0xFFFF then
    [BitVec.ofNat 8 (v / 4096 % 0x10 + 0xE0), BitVec.ofNat 8 (v / 64 % 0x40 + 0x80), BitVec.ofNat 8 (v % 0x40 + 0x80)]
  else
    [BitVec.ofNat 8 (v / 262144 % 0x08 + 0xF0), BitVec.ofNat 8 (v / 4096 % 0x40 + 0x80),
      BitVec.ofNat 8 (v / 64 % 0x40 + 0x80), BitVec.ofNat 8 (v % 0x40 + 0x80)]

theorem map_utf8EncodeChar (c : Char) : (String.utf8EncodeChar c).map UInt8.toBitVec = utf8Bytes c.toNat := by
  simp only [String.utf8EncodeChar, utf8Bytes, Char.toNat]
  split_ifs <;> rfl

/-- Every scalar value is a character's. -/
theorem exists_char {v : Nat} (hv : v.isValidChar) : ∃ c : Char, c.toNat = v := by
  have hlt : v < 2 ^ 32 := by rcases hv with h | h <;> omega
  have hval : (UInt32.ofNat v).toNat = v := UInt32.toNat_ofNat_of_lt' hlt
  exact ⟨⟨UInt32.ofNat v, by rw [UInt32.isValidChar, hval]; exact hv⟩, hval⟩

/-- The first byte of a sequence, as a number: how many bytes follow, and the bounds of the next (log 11). -/
theorem utf8Lead_eq (b : Byte) :
    utf8Lead b =
      if b.toNat ≤ 0x7F then some (0, 0x80, 0xBF)
      else if 0xC2 ≤ b.toNat ∧ b.toNat ≤ 0xDF then some (1, 0x80, 0xBF)
      else if 0xE0 ≤ b.toNat ∧ b.toNat ≤ 0xEF then
        some (2, if b.toNat = 0xE0 then 0xA0 else 0x80, if b.toNat = 0xED then 0x9F else 0xBF)
      else if 0xF0 ≤ b.toNat ∧ b.toNat ≤ 0xF4 then
        some (3, if b.toNat = 0xF0 then 0x90 else 0x80, if b.toNat = 0xF4 then 0x8F else 0xBF)
      else none := by
  revert b
  decide +kernel

/-- A byte that continues a sequence. -/
def Continues (b : Byte) : Prop := 0x80 ≤ b.toNat ∧ b.toNat ≤ 0xBF

/-- The well-formed sequences of the Unicode standard's table, by their length: no overlong form, no surrogate, nothing
above U+10FFFF (log 11). -/
inductive Utf8Sequence : List Byte → Prop
  | one {b : Byte} (lead : b.toNat ≤ 0x7F) : Utf8Sequence [b]
  | two {b b1 : Byte} (lead : 0xC2 ≤ b.toNat ∧ b.toNat ≤ 0xDF) (next : Continues b1) : Utf8Sequence [b, b1]
  | three {b b1 b2 : Byte} (lead : 0xE0 ≤ b.toNat ∧ b.toNat ≤ 0xEF) (next : Continues b1) (last : Continues b2)
      (overlong : b.toNat = 0xE0 → 0xA0 ≤ b1.toNat) (surrogate : b.toNat = 0xED → b1.toNat ≤ 0x9F) :
      Utf8Sequence [b, b1, b2]
  | four {b b1 b2 b3 : Byte} (lead : 0xF0 ≤ b.toNat ∧ b.toNat ≤ 0xF4) (next : Continues b1) (third : Continues b2)
      (last : Continues b3) (overlong : b.toNat = 0xF0 → 0x90 ≤ b1.toNat) (above : b.toNat = 0xF4 → b1.toNat ≤ 0x8F) :
      Utf8Sequence [b, b1, b2, b3]

/-! The check takes a well-formed sequence off the front, and only such a one. -/

@[simp] theorem utf8Rest_zero (lo hi : Byte) (bytes : List Byte) : utf8Rest 0 lo hi bytes = validUtf8 bytes := by
  cases bytes <;> rfl

theorem validUtf8_of_lead {b lo hi : Byte} {n : Nat} (hlead : utf8Lead b = some (n, lo, hi)) (rest : List Byte) :
    validUtf8 (b :: rest) = utf8Rest n lo hi rest := by
  rw [validUtf8, utf8Rest, hlead]

theorem exists_lead_of_validUtf8 {b : Byte} {rest : List Byte} (h : validUtf8 (b :: rest) = true) :
    ∃ n lo hi, utf8Lead b = some (n, lo, hi) ∧ utf8Rest n lo hi rest = true := by
  cases hlead : utf8Lead b with
  | none => rw [validUtf8, utf8Rest, hlead] at h; cases h
  | some r =>
    obtain ⟨n, lo, hi⟩ := r
    exact ⟨n, lo, hi, rfl, validUtf8_of_lead hlead rest ▸ h⟩

theorem utf8Rest_cons {n : Nat} {lo hi b : Byte} (hlo : lo.toNat ≤ b.toNat) (hhi : b.toNat ≤ hi.toNat)
    (rest : List Byte) : utf8Rest (n + 1) lo hi (b :: rest) = utf8Rest n 0x80 0xBF rest := by
  simp [utf8Rest, BitVec.le_def, hlo, hhi]

theorem utf8Rest_cons_of_continues {n : Nat} {b : Byte} (h : Continues b) (rest : List Byte) :
    utf8Rest (n + 1) 0x80 0xBF (b :: rest) = utf8Rest n 0x80 0xBF rest :=
  utf8Rest_cons (lo := 0x80) (hi := 0xBF) h.1 h.2 rest

theorem exists_of_utf8Rest_succ {n : Nat} {lo hi : Byte} {bytes : List Byte} (h : utf8Rest (n + 1) lo hi bytes = true) :
    ∃ b rest, bytes = b :: rest ∧ lo.toNat ≤ b.toNat ∧ b.toNat ≤ hi.toNat ∧ utf8Rest n 0x80 0xBF rest = true := by
  cases bytes with
  | nil => cases h
  | cons b rest =>
    simp only [utf8Rest, BitVec.le_def, Bool.and_eq_true, decide_eq_true_eq] at h
    obtain ⟨⟨hlo, hhi⟩, hrest⟩ := h
    exact ⟨b, rest, rfl, hlo, hhi, hrest⟩

theorem Utf8Sequence.validUtf8_append {seq : List Byte} (h : Utf8Sequence seq) (rest : List Byte) :
    validUtf8 (seq ++ rest) = validUtf8 rest := by
  cases h with
  | @one b lead =>
    have hlead : utf8Lead b = some (0, 0x80, 0xBF) := by rw [utf8Lead_eq, if_pos lead]
    exact (validUtf8_of_lead hlead rest).trans (utf8Rest_zero ..)
  | @two b b1 lead next =>
    have hlead : utf8Lead b = some (1, 0x80, 0xBF) := by rw [utf8Lead_eq, if_neg (by omega), if_pos lead]
    rw [List.cons_append, validUtf8_of_lead hlead, List.cons_append, utf8Rest_cons_of_continues next, utf8Rest_zero]
    rfl
  | @three b b1 b2 lead next last overlong surrogate =>
    have hlead : utf8Lead b =
        some (2, if b.toNat = 0xE0 then 0xA0 else 0x80, if b.toNat = 0xED then 0x9F else 0xBF) := by
      rw [utf8Lead_eq, if_neg (by omega), if_neg (by omega), if_pos lead]
    obtain ⟨hlo, hhi⟩ := next
    rw [List.cons_append, validUtf8_of_lead hlead, List.cons_append, utf8Rest_cons, List.cons_append,
      utf8Rest_cons_of_continues last, utf8Rest_zero]
    · rfl
    · split
      · exact overlong ‹_›
      · exact hlo
    · split
      · exact surrogate ‹_›
      · exact hhi
  | @four b b1 b2 b3 lead next third last overlong above =>
    have hlead : utf8Lead b =
        some (3, if b.toNat = 0xF0 then 0x90 else 0x80, if b.toNat = 0xF4 then 0x8F else 0xBF) := by
      rw [utf8Lead_eq, if_neg (by omega), if_neg (by omega), if_neg (by omega), if_pos lead]
    obtain ⟨hlo, hhi⟩ := next
    rw [List.cons_append, validUtf8_of_lead hlead, List.cons_append, utf8Rest_cons, List.cons_append,
      utf8Rest_cons_of_continues third, List.cons_append, utf8Rest_cons_of_continues last, utf8Rest_zero]
    · rfl
    · split
      · exact overlong ‹_›
      · exact hlo
    · split
      · exact above ‹_›
      · exact hhi

/-- Valid text that is not empty begins with a well-formed sequence. -/
theorem exists_sequence_of_validUtf8 {b : Byte} {bytes : List Byte} (h : validUtf8 (b :: bytes) = true) :
    ∃ seq rest, b :: bytes = seq ++ rest ∧ Utf8Sequence seq ∧ validUtf8 rest = true := by
  obtain ⟨n, lo, hi, hlead, hrest⟩ := exists_lead_of_validUtf8 h
  rw [utf8Lead_eq] at hlead
  by_cases h1 : b.toNat ≤ 0x7F
  · rw [if_pos h1] at hlead
    cases hlead
    exact ⟨[b], bytes, rfl, .one h1, utf8Rest_zero _ _ bytes ▸ hrest⟩
  rw [if_neg h1] at hlead
  by_cases h2 : 0xC2 ≤ b.toNat ∧ b.toNat ≤ 0xDF
  · rw [if_pos h2] at hlead
    cases hlead
    obtain ⟨b1, rest, rfl, hlo, hhi, hrest⟩ := exists_of_utf8Rest_succ hrest
    exact ⟨[b, b1], rest, rfl, .two h2 ⟨hlo, hhi⟩, utf8Rest_zero _ _ rest ▸ hrest⟩
  rw [if_neg h2] at hlead
  by_cases h3 : 0xE0 ≤ b.toNat ∧ b.toNat ≤ 0xEF
  · rw [if_pos h3] at hlead
    cases hlead
    obtain ⟨b1, rest1, rfl, hlo, hhi, hrest⟩ := exists_of_utf8Rest_succ hrest
    obtain ⟨b2, rest, rfl, hlo2, hhi2, hrest⟩ := exists_of_utf8Rest_succ hrest
    have hnext : Continues b1 :=
      ⟨le_trans (by split <;> decide) hlo, le_trans hhi (by split <;> decide)⟩
    refine ⟨[b, b1, b2], rest, rfl, .three h3 hnext ⟨hlo2, hhi2⟩ (fun heq => ?_) (fun heq => ?_),
      utf8Rest_zero _ _ rest ▸ hrest⟩
    · rwa [if_pos heq] at hlo
    · rwa [if_pos heq] at hhi
  rw [if_neg h3] at hlead
  by_cases h4 : 0xF0 ≤ b.toNat ∧ b.toNat ≤ 0xF4
  · rw [if_pos h4] at hlead
    cases hlead
    obtain ⟨b1, rest1, rfl, hlo, hhi, hrest⟩ := exists_of_utf8Rest_succ hrest
    obtain ⟨b2, rest2, rfl, hlo2, hhi2, hrest⟩ := exists_of_utf8Rest_succ hrest
    obtain ⟨b3, rest, rfl, hlo3, hhi3, hrest⟩ := exists_of_utf8Rest_succ hrest
    have hnext : Continues b1 :=
      ⟨le_trans (by split <;> decide) hlo, le_trans hhi (by split <;> decide)⟩
    refine ⟨[b, b1, b2, b3], rest, rfl, .four h4 hnext ⟨hlo2, hhi2⟩ ⟨hlo3, hhi3⟩ (fun heq => ?_) (fun heq => ?_),
      utf8Rest_zero _ _ rest ▸ hrest⟩
    · rwa [if_pos heq] at hlo
    · rwa [if_pos heq] at hhi
  rw [if_neg h4] at hlead
  cases hlead

/-! A well-formed sequence is the encoding of a scalar value. -/

theorem toNat_ofNat_byte {n : Nat} (h : n < 256) : (BitVec.ofNat 8 n).toNat = n := by
  rw [BitVec.toNat_ofNat, Nat.mod_eq_of_lt h]

theorem eq_ofNat_byte {b : Byte} {n : Nat} (h : b.toNat = n) : b = BitVec.ofNat 8 n := by
  rw [← h, BitVec.ofNat_toNat, BitVec.setWidth_eq]

theorem utf8Sequence_utf8Bytes {v : Nat} (hv : v.isValidChar) : Utf8Sequence (utf8Bytes v) := by
  have hlt : v < 0x110000 := by rcases hv with h | h <;> omega
  have hsurrogate : ¬(0xD800 ≤ v ∧ v ≤ 0xDFFF) := by rcases hv with h | h <;> omega
  have hcont : ∀ n, Continues (BitVec.ofNat 8 (n % 0x40 + 0x80)) := by
    intro n
    rw [Continues, toNat_ofNat_byte (by omega)]
    omega
  unfold utf8Bytes
  split_ifs with h1 h2 h3
  · exact .one (by rw [toNat_ofNat_byte (by omega)]; omega)
  · exact .two (by rw [toNat_ofNat_byte (by omega)]; omega) (hcont _)
  · refine .three ?_ (hcont _) (hcont _) ?_ ?_ <;>
      simp (disch := omega) only [toNat_ofNat_byte] <;> omega
  · refine .four ?_ (hcont _) (hcont _) (hcont _) ?_ ?_ <;>
      simp (disch := omega) only [toNat_ofNat_byte] <;> omega

theorem exists_scalar_of_utf8Sequence {seq : List Byte} (h : Utf8Sequence seq) :
    ∃ v : Nat, v.isValidChar ∧ seq = utf8Bytes v := by
  cases h with
  | @one b lead =>
    refine ⟨b.toNat, by omega, ?_⟩
    rw [utf8Bytes, if_pos lead, ← eq_ofNat_byte rfl]
  | @two b b1 lead next =>
    obtain ⟨hlo, hhi⟩ := next
    refine ⟨(b.toNat - 0xC0) * 64 + (b1.toNat - 0x80), by omega, ?_⟩
    rw [utf8Bytes, if_neg (by omega), if_pos (by omega), ← eq_ofNat_byte (b := b) (by omega),
      ← eq_ofNat_byte (b := b1) (by omega)]
  | @three b b1 b2 lead next last overlong surrogate =>
    obtain ⟨hlo, hhi⟩ := next
    obtain ⟨hlo2, hhi2⟩ := last
    refine ⟨(b.toNat - 0xE0) * 4096 + (b1.toNat - 0x80) * 64 + (b2.toNat - 0x80), by omega, ?_⟩
    rw [utf8Bytes, if_neg (by omega), if_neg (by omega), if_pos (by omega), ← eq_ofNat_byte (b := b) (by omega),
      ← eq_ofNat_byte (b := b1) (by omega), ← eq_ofNat_byte (b := b2) (by omega)]
  | @four b b1 b2 b3 lead next third last overlong above =>
    obtain ⟨hlo, hhi⟩ := next
    obtain ⟨hlo2, hhi2⟩ := third
    obtain ⟨hlo3, hhi3⟩ := last
    refine ⟨(b.toNat - 0xF0) * 262144 + (b1.toNat - 0x80) * 4096 + (b2.toNat - 0x80) * 64 + (b3.toNat - 0x80),
      by omega, ?_⟩
    rw [utf8Bytes, if_neg (by omega), if_neg (by omega), if_neg (by omega), ← eq_ofNat_byte (b := b) (by omega),
      ← eq_ofNat_byte (b := b1) (by omega), ← eq_ofNat_byte (b := b2) (by omega), ← eq_ofNat_byte (b := b3) (by omega)]

theorem Utf8Sequence.length_pos {seq : List Byte} (h : Utf8Sequence seq) : 0 < seq.length := by
  cases h <;> exact Nat.succ_pos _

/-- Settles O55: text is valid when it is a sequence of well-formed sequences, and these are the encodings of
characters. -/
theorem validTextIsUtf8 : Obligations.ValidTextIsUtf8 := by
  intro bytes
  simp only [map_utf8EncodeChar]
  constructor
  · induction hlen : bytes.length using Nat.strong_induction_on generalizing bytes with
    | _ n ih =>
      intro hvalid
      cases bytes with
      | nil => exact ⟨[], rfl⟩
      | cons b bytes =>
        obtain ⟨seq, rest, hsplit, hseq, hrest⟩ := exists_sequence_of_validUtf8 hvalid
        have hpos := hseq.length_pos
        have hlength : (b :: bytes).length = seq.length + rest.length := by rw [hsplit, List.length_append]
        obtain ⟨cs, rfl⟩ := ih rest.length (by omega) rest rfl hrest
        obtain ⟨v, hv, rfl⟩ := exists_scalar_of_utf8Sequence hseq
        obtain ⟨c, rfl⟩ := exists_char hv
        exact ⟨c :: cs, hsplit⟩
  · rintro ⟨cs, rfl⟩
    induction cs with
    | nil => rfl
    | cons c cs ih =>
      have hseq : Utf8Sequence (utf8Bytes c.toNat) := utf8Sequence_utf8Bytes c.valid
      rw [List.flatMap_cons, hseq.validUtf8_append, ih]

end Sys2Proof.Machine
end
